-- ==== Sys2Proof/Word.lean ====
section
/-! DEFINITION. The word types of the command, response and record channels (spec/30_encoding.md R70,
R72, R74, R75), and the two closed operand sets of the command table (R78). Only names stand here:
every bit-field helper is in Sys2Proof/Decode.lean or under Sys2Proof/Machine/. -/

namespace Sys2Proof

/-- A command word or a response word (R70, R72: both 64 bits). -/
abbrev Word64 := BitVec 64

/-- The DATA part of a response word, bits 55:0 (R72). -/
abbrev Data56 := BitVec 56

/-- The IMM field, a packer word, a record's DATA: 32 bits (R70, R29, R74). -/
abbrev Word32 := BitVec 32

/-- A bit sequence; position 0 is the first bit, the one nearest the root (R8). -/
abbrev Bits := List Bool

/-- The selector operand of NODE_READ (R132): `sel = 0` reads a node's shape, `sel = 1` its weight. -/
inductive NodeSel where
  | shape
  | weight
  deriving DecidableEq, Repr

/-- The nine status views of STATUS_READ (R211), views 0 to 8 in the order of its table. -/
inductive View where
  | status
  | params
  | encNsym
  | encNbits
  | decNbits
  | decNsym
  | lastErr
  | traversal
  | pkBuf
  deriving DecidableEq, Repr

end Sys2Proof
end

