-- ==== Sys2Proof/Config.lean ====
section
/-! DEFINITION. The implementation parameters (spec/00_scope.md R5) and the quantities derived from them.
They are configuration, not state: no command changes them (R22). A model takes them as arguments, so a
machine carries its own `Params` and every definition reads them from there (log entry 1). -/

namespace Sys2Proof

/-- The three free parameters of R5. -/
structure Params where
  /-- SYM_W, the symbol width in bits, 1..16. -/
  symW : Nat
  /-- CNT_W, the frequency counter width, 1..32. -/
  cntW : Nat
  /-- POS_W, the width of the message length counters, 1..32. -/
  posW : Nat
  deriving DecidableEq, Repr

namespace Params

/-- The default column of R5: SYM_W = 8, CNT_W = 32, POS_W = 32. -/
def default : Params := ⟨8, 32, 32⟩

/-- The legal ranges of R5. -/
abbrev legal (p : Params) : Prop :=
  1 ≤ p.symW ∧ p.symW ≤ 16 ∧ 1 ≤ p.cntW ∧ p.cntW ≤ 32 ∧ 1 ≤ p.posW ∧ p.posW ≤ 32

/-- NSYM = 2^SYM_W: the symbols are 0 .. NSYM-1. -/
def nsym (p : Params) : Nat := 2 ^ p.symW

/-- WGT_W = CNT_W + SYM_W, the width of a node weight. -/
def wgtW (p : Params) : Nat := p.cntW + p.symW

/-- NNODE = 2*NSYM - 1, the size of the node arena. -/
def nnode (p : Params) : Nat := 2 * p.nsym - 1

/-- NODE_W = SYM_W + 1, the width of a node index. -/
def nodeW (p : Params) : Nat := p.symW + 1

/-- MAXCODE = NSYM - 1, the longest codeword. -/
def maxCode (p : Params) : Nat := p.nsym - 1

/-- MAXLEN = 2^POS_W - 1, the most bits one message may hold. -/
def maxLen (p : Params) : Nat := 2 ^ p.posW - 1

/-- The largest count a frequency counter holds, 2^CNT_W - 1 (R102). -/
def maxCount (p : Params) : Nat := 2 ^ p.cntW - 1

/-- PACK_W, fixed at 32 (R5). -/
def packW (_ : Params) : Nat := 32

end Params

/-! The two durations that no rule bounds (spec/70_reset_and_hazards.md R262, R271) are free values: constants
with no body, applied to the number of clock edges so far. Only the port-level machine
(Sys2Proof/Machine/Ports.lean) reads them; no command's effect does (log entry 7). -/

/-- Cycles before the block next offers a record, a response or `cmd_ready` (R271). -/
opaque Config.workCycles : Nat → Nat

/-- Cycles the block holds `cmd_ready` at 0 after reset (R262). -/
opaque Config.resetCycles : Nat → Nat

end Sys2Proof
end

