-- ==== Sys2Proof/Syntax.lean ====
section
/-! DEFINITION. The fifteen commands of spec/opcode_table.json (spec/30_encoding.md R77), one constructor a
row, in the table's order. Symbols, counts, node and chunk indices are numbers (R7: every field is an
unsigned integer, an index or a count); only DEC_BITS takes its IMM as bits (R71). -/

namespace Sys2Proof

/-- A legal command of R77; its operands are bounded by `Instr.wellFormed` (R78). -/
inductive Instr where
  /-- NOP (R210). -/
  | nop
  /-- FREQ_CLEAR (R101). -/
  | freqClear
  /-- FREQ_COUNT s (R102). -/
  | freqCount (sym : Nat)
  /-- FREQ_SET s, c (R103). -/
  | freqSet (sym cnt : Nat)
  /-- FREQ_READ s (R104). -/
  | freqRead (sym : Nat)
  /-- BUILD (R120). -/
  | build
  /-- NODE_READ i, sel (R132). -/
  | nodeRead (idx : Nat) (sel : NodeSel)
  /-- CODE_READ s, k (R144). -/
  | codeRead (sym chunk : Nat)
  /-- STATUS_READ v (R211). -/
  | statusRead (view : View)
  /-- ENC_START (R161). -/
  | encStart
  /-- ENC_SYM s (R162). -/
  | encSym (sym : Nat)
  /-- ENC_END (R163). -/
  | encEnd
  /-- DEC_START (R191). -/
  | decStart
  /-- DEC_BITS n, v (R192). -/
  | decBits (n : Nat) (v : Word32)
  /-- DEC_END (R195). -/
  | decEnd
  deriving DecidableEq, Repr

end Sys2Proof
end

