-- ==== Sys2Proof/WellFormed.lean ====
section
/-! DEFINITION. The operand constraints of spec/30_encoding.md R78, for given parameters. What R78 says of
the selector (0 or 1) and of the view (0..8) holds by the operands' types; what it says of fields a
command does not use is the decoder's (Sys2Proof/Decode.lean). -/

namespace Sys2Proof

/-- The command's operands meet its row of R78. -/
def Instr.wellFormed (p : Params) : Instr → Bool
  | .nop => true
  | .freqClear => true
  | .freqCount sym => decide (sym < p.nsym)
  | .freqSet sym cnt => decide (sym < p.nsym) && decide (cnt < 2 ^ p.cntW)
  | .freqRead sym => decide (sym < p.nsym)
  | .build => true
  | .nodeRead idx _ => decide (idx < p.nnode)
  | .codeRead sym chunk => decide (sym < p.nsym) && decide (chunk < 2 ^ 32)
  | .statusRead _ => true
  | .encStart => true
  | .encSym sym => decide (sym < p.nsym)
  | .encEnd => true
  | .decStart => true
  | .decBits n _ => decide (1 ≤ n) && decide (n ≤ 32)
  | .decEnd => true

end Sys2Proof
end

