-- ==== Sys2Proof/Decode.lean ====
section
/-! DEFINITION. Decoding a 64-bit command word (spec/30_encoding.md R70, R71, R76 to R79) and encoding a
command, both from the field positions of R70, the opcode map of R77 and the constraints of R78.
Decoding is total: a word is one of the fifteen commands with legal operands, or it is rejected, and
the reason is named. -/

namespace Sys2Proof

/-- The OP field, cmd[63:56] (R70). -/
def opField (w : Word64) : BitVec 8 := w.extractLsb' 56 8

/-- The N field, cmd[55:48] (R70). -/
def nField (w : Word64) : BitVec 8 := w.extractLsb' 48 8

/-- The SYM field, cmd[47:32] (R70). -/
def symField (w : Word64) : BitVec 16 := w.extractLsb' 32 16

/-- The IMM field, cmd[31:0] (R70). -/
def immField (w : Word64) : Word32 := w.extractLsb' 0 32

/-- Why a word spells no command (R76). The block answers all four alike, with E_ILLEGAL_CMD; the names
only say which constraint of R77 or R78 failed first. -/
inductive Reject where
  /-- OP is a reserved value (R77). -/
  | reservedOpcode
  /-- N breaks the opcode's row of R78. -/
  | badN
  /-- SYM breaks the opcode's row of R78. -/
  | badSym
  /-- IMM breaks the opcode's row of R78. -/
  | badImm
  deriving DecidableEq, Repr

/-- The command `i`, if the word's N, SYM and IMM are legal for it (R78). -/
def accept (nOk symOk immOk : Bool) (i : Instr) : Except Reject Instr :=
  if nOk then if symOk then if immOk then .ok i else .error .badImm else .error .badSym else .error .badN

/-- The selector NODE_READ's N field spells (R132). -/
def NodeSel.ofField : Nat → NodeSel
  | 0 => .shape
  | _ => .weight

/-- The N field of a NODE_READ with this selector (R132). -/
def NodeSel.toField : NodeSel → Nat
  | .shape => 0
  | .weight => 1

/-- View number to view, for the numbers 0 to 8 (R211). -/
def View.ofField : Nat → View
  | 0 => .status
  | 1 => .params
  | 2 => .encNsym
  | 3 => .encNbits
  | 4 => .decNbits
  | 5 => .decNsym
  | 6 => .lastErr
  | 7 => .traversal
  | _ => .pkBuf

/-- The number of a view (R211). -/
def View.toField : View → Nat
  | .status => 0
  | .params => 1
  | .encNsym => 2
  | .encNbits => 3
  | .decNbits => 4
  | .decNsym => 5
  | .lastErr => 6
  | .traversal => 7
  | .pkBuf => 8

/-- The command a word spells, or why it spells none (R76 to R79). -/
def decode (p : Params) (w : Word64) : Except Reject Instr :=
  let n := (nField w).toNat
  let sym := (symField w).toNat
  let imm := (immField w).toNat
  let symOk := decide (sym < p.nsym)
  match (opField w).toNat with
  | 0x00 => accept (n == 0) (sym == 0) (imm == 0) .nop
  | 0x01 => accept (n == 0) (sym == 0) (imm == 0) .freqClear
  | 0x02 => accept (n == 0) symOk (imm == 0) (.freqCount sym)
  | 0x03 => accept (n == 0) symOk (decide (imm < 2 ^ p.cntW)) (.freqSet sym imm)
  | 0x04 => accept (n == 0) symOk (imm == 0) (.freqRead sym)
  | 0x08 => accept (n == 0) (sym == 0) (imm == 0) .build
  | 0x09 => accept (decide (n ≤ 1)) (sym == 0) (decide (imm < p.nnode)) (.nodeRead imm (.ofField n))
  | 0x0A => accept (n == 0) symOk true (.codeRead sym imm)
  | 0x0F => accept (n == 0) (sym == 0) (decide (imm ≤ 8)) (.statusRead (.ofField imm))
  | 0x10 => accept (n == 0) (sym == 0) (imm == 0) .encStart
  | 0x11 => accept (n == 0) symOk (imm == 0) (.encSym sym)
  | 0x12 => accept (n == 0) (sym == 0) (imm == 0) .encEnd
  | 0x18 => accept (n == 0) (sym == 0) (imm == 0) .decStart
  | 0x19 => accept (decide (1 ≤ n) && decide (n ≤ 32)) (sym == 0) true (.decBits n (immField w))
  | 0x1A => accept (n == 0) (sym == 0) (imm == 0) .decEnd
  | _ => .error .reservedOpcode

/-- The opcode of a command (R77). -/
def Instr.op : Instr → BitVec 8
  | .nop => 0x00
  | .freqClear => 0x01
  | .freqCount _ => 0x02
  | .freqSet _ _ => 0x03
  | .freqRead _ => 0x04
  | .build => 0x08
  | .nodeRead _ _ => 0x09
  | .codeRead _ _ => 0x0A
  | .statusRead _ => 0x0F
  | .encStart => 0x10
  | .encSym _ => 0x11
  | .encEnd => 0x12
  | .decStart => 0x18
  | .decBits _ _ => 0x19
  | .decEnd => 0x1A

/-- The N field of a command (R78). -/
def Instr.nOperand : Instr → Nat
  | .nodeRead _ sel => sel.toField
  | .decBits n _ => n
  | .nop | .freqClear | .freqCount _ | .freqSet _ _ | .freqRead _ | .build | .codeRead _ _
  | .statusRead _ | .encStart | .encSym _ | .encEnd | .decStart | .decEnd => 0

/-- The SYM field of a command (R78). -/
def Instr.symOperand : Instr → Nat
  | .freqCount sym | .freqSet sym _ | .freqRead sym | .codeRead sym _ | .encSym sym => sym
  | .nop | .freqClear | .build | .nodeRead _ _ | .statusRead _ | .encStart | .encEnd | .decStart
  | .decBits _ _ | .decEnd => 0

/-- The IMM field of a command (R78). -/
def Instr.immOperand : Instr → Nat
  | .freqSet _ cnt => cnt
  | .nodeRead idx _ => idx
  | .codeRead _ chunk => chunk
  | .statusRead view => view.toField
  | .decBits _ v => v.toNat
  | .nop | .freqClear | .freqCount _ | .freqRead _ | .build | .encStart | .encSym _ | .encEnd
  | .decStart | .decEnd => 0

/-- A word from its four fields, OP at 63:56, N at 55:48, SYM at 47:32, IMM at 31:0 (R70). -/
def commandWord (op : BitVec 8) (n sym imm : Nat) : Word64 :=
  op ++ BitVec.ofNat 8 n ++ BitVec.ofNat 16 sym ++ BitVec.ofNat 32 imm

/-- The word of a command (R70, R77, R78). -/
def encode (i : Instr) : Word64 := commandWord i.op i.nOperand i.symOperand i.immOperand

/-- The bits of a command's word that are the same for every operand and every parameter choice: the
fixed mask of R78, as spec/opcode_table.json gives it. -/
def Instr.fixedMask : Instr → Word64
  | .nop => 0xFFFFFFFFFFFFFFFF
  | .freqClear => 0xFFFFFFFFFFFFFFFF
  | .freqCount _ => 0xFFFF0000FFFFFFFF
  | .freqSet _ _ => 0xFFFF000000000000
  | .freqRead _ => 0xFFFF0000FFFFFFFF
  | .build => 0xFFFFFFFFFFFFFFFF
  | .nodeRead _ _ => 0xFFFEFFFF00000000
  | .codeRead _ _ => 0xFFFF000000000000
  | .statusRead _ => 0xFFFFFFFFFFFFFFF0
  | .encStart => 0xFFFFFFFFFFFFFFFF
  | .encSym _ => 0xFFFF0000FFFFFFFF
  | .encEnd => 0xFFFFFFFFFFFFFFFF
  | .decStart => 0xFFFFFFFFFFFFFFFF
  | .decBits _ _ => 0xFFC0FFFF00000000
  | .decEnd => 0xFFFFFFFFFFFFFFFF

/-- The value the fixed bits have: the opcode, with every other fixed bit zero (R78). -/
def Instr.fixedMatch (i : Instr) : Word64 := commandWord i.op 0 0 0

/-- The instruction the decoder reads, under the default parameters of R5, from an instruction whose low
`nbits` bits are `w` and whose other bits are 0. -/
def decodeTableWord (nbits w : Nat) : Option Instr :=
  match decode Params.default (BitVec.ofNat 64 (w % 2 ^ nbits)) with
  | .ok i => some i
  | .error _ => none

end Sys2Proof
end

