-- ==== Sys2Proof/Machine/State.lean ====
section
/-! DEFINITION. The machine's state as plain data: every item of the table of spec/10_state.md R22, the
parameters (R5), and the two ends of the channels that a host holds (R21, R35). `State.reset` is R260. -/

namespace Sys2Proof.Machine

/-- An index space (R50): entries by index, in one canonical form (`Table.wf`, Sys2Proof/Machine/Ops.lean):
indices strictly rising, and no entry equal to what an unlisted index reads as, which is the space's
reset value (R260). -/
abbrev Table (α : Type) := List (Nat × α)

/-- A node of the tree arena (R24): the tagged variant, so that only an INTERNAL node has children. -/
inductive Node where
  /-- KIND = 0: no node. -/
  | empty
  /-- KIND = 1: the leaf of the symbol that is its index. -/
  | leaf (weight : Nat)
  /-- KIND = 2: an internal node with its WEIGHT, LEFT and RIGHT. -/
  | internal (weight left right : Nat)
  deriving DecidableEq, Repr

/-- An entry of the code table (R26). LEN is the length of BITS, stored once (`CodeEntry.len`). -/
structure CodeEntry where
  valid : Bool
  bits : Bits
  deriving DecidableEq, Repr

/-- A response status (R231): OK and the eight error codes; the reserved codes have no constructor, since
they are never produced. -/
inductive Status where
  /-- 0x00 -/
  | ok
  /-- 0x01, DOC's EmptyAlphabetError -/
  | emptyAlphabet
  /-- 0x02, DOC's UnknownSymbolError -/
  | unknownSymbol
  /-- 0x03, DOC's MalformedBitstreamError -/
  | malformedBitstream
  /-- 0x10 -/
  | illegalCmd
  /-- 0x11 -/
  | sequence
  /-- 0x12 -/
  | countOverflow
  /-- 0x13 -/
  | noTree
  /-- 0x14 -/
  | length
  deriving DecidableEq, Repr

/-- LAST_ERR (R31): the most recent error. -/
structure ErrRecord where
  code : Status
  op : BitVec 8
  sym : BitVec 16
  pos : BitVec 32
  deriving DecidableEq, Repr

/-- A bitstream record (R74). -/
structure BsRecord where
  data : Word32
  /-- NBITS, the number of valid bits, 0..32. -/
  nbits : Nat
  last : Bool
  deriving DecidableEq, Repr

/-- What the block puts on its output channels (R10): a bitstream record, a symbol record (R75), or a
response word (R72). -/
inductive Output where
  | bs (r : BsRecord)
  | sym (w : BitVec 16)
  | rsp (w : Word64)
  deriving DecidableEq, Repr

/-- What the host does to the block between two commands (R21, R261): deliver a command word, or reset it. -/
inductive HostInput where
  | cmd (w : Word64)
  | rst
  deriving DecidableEq, Repr

/-- The state record of R22, the parameters it is read under, and the channels' two ends. -/
structure State where
  /-- SYM_W, CNT_W, POS_W (R5): configuration, changed by nothing (R22). -/
  params : Params
  /-- FREQ (R23); an unlisted symbol has count 0. -/
  freq : Table Nat
  /-- NODE (R24); an unlisted index is EMPTY. -/
  node : Table Node
  /-- ROOT (R25). -/
  root : Nat
  /-- NLEAVES (R25). -/
  nleaves : Nat
  /-- TREE_VALID (R25). -/
  treeValid : Bool
  /-- CODE (R26); an unlisted symbol has no codeword. -/
  code : Table CodeEntry
  /-- ENC_OPEN (R28). -/
  encOpen : Bool
  /-- ENC_NSYM (R28). -/
  encNsym : Nat
  /-- ENC_NBITS (R28). -/
  encNbits : Nat
  /-- PK_BUF (R29). -/
  pkBuf : Word32
  /-- PK_CNT (R29), 0..31. -/
  pkCnt : Fin 32
  /-- DEC_OPEN (R30). -/
  decOpen : Bool
  /-- DEC_CUR (R30). -/
  decCur : Nat
  /-- DEC_NBITS (R30). -/
  decNbits : Nat
  /-- DEC_NSYM (R30). -/
  decNsym : Nat
  /-- LAST_ERR (R31). -/
  lastErr : ErrRecord
  /-- The command channel: what the host still delivers, the next first (R21). -/
  inputs : List HostInput
  /-- The host-visible output sequence so far, oldest first (R35). -/
  outputs : List Output
  deriving DecidableEq, Repr

/-- Why a step can stop with a fault. There is no constructor: the step of this block is total (R10), and
every error it reports is a response, after which the block goes on (R230). -/
inductive Fault where
  deriving DecidableEq, Repr

/-- Why a step can refuse. -/
inductive Refusal where
  /-- Raised by an arm of `exec` that has no meaning yet (none is left); safe. -/
  | notModelled (mnemonic : String)
  deriving DecidableEq, Repr

/-- An entry of CODE that holds no codeword (R26). -/
def CodeEntry.none : CodeEntry := ⟨false, []⟩

/-- LAST_ERR after reset (R260). -/
def ErrRecord.none : ErrRecord := ⟨.ok, 0, 0, 0⟩

/-- The block with parameters `p` right after reset (R260, R261: `reset : Params → State`), with nothing
delivered to it and nothing put out. -/
def State.resetWith (p : Params) : State where
  params := p
  freq := []
  node := []
  root := 0
  nleaves := 0
  treeValid := false
  code := []
  encOpen := false
  encNsym := 0
  encNbits := 0
  pkBuf := 0
  pkCnt := 0
  decOpen := false
  decCur := 0
  decNbits := 0
  decNsym := 0
  lastErr := .none
  inputs := []
  outputs := []

/-- The block with the default parameters of R5 right after reset (R260). -/
def State.reset : State := .resetWith .default

end Sys2Proof.Machine
end

