-- ==== Sys2Proof/Machine/Operands.lean ====
section
/-! DEFINITION. How values are laid out in, and read from, the words of the channels: fields of a response's
DATA (spec/30_encoding.md R72, R73), the MSB-first bit order of packed words (spec/20_memory.md R54 to
R56), the bits DEC_BITS consumes (R55), the number and record encodings of R24, R74, R75 and R231. -/

namespace Sys2Proof.Machine

/-- A response DATA word that is zero but for `v` in the `w`-bit field whose lowest bit is `lo` (R72). -/
def field (lo w v : Nat) : Data56 := (BitVec.ofNat w v).setWidth 56 <<< lo

/-- A one-bit field of a response DATA word. -/
def flag (lo : Nat) (b : Bool) : Data56 := field lo 1 b.toNat

/-- `X[i] <- b` on a 32-bit word. -/
def setBit (x : Word32) (i : Nat) (b : Bool) : Word32 :=
  (x &&& ~~~((1 : Word32) <<< i)) ||| ((BitVec.ofBool b).setWidth 32 <<< i)

/-- The first `n` bits of a word in MSB-first order: bit 31, bit 30, and so on (R54, R55). -/
def msbBits (n : Nat) (v : Word32) : Bits := (List.range n).map fun j => v.getLsbD (31 - j)

/-- Chunk `k` of a bit sequence, as R144's loop builds it: sequence bit `32*k + j` is chunk bit `31 - j`,
and positions at or past the end are 0 (R56). `32*k + j` is an unbounded number. -/
def msbChunk (bits : Bits) (k : Nat) : Word32 :=
  (List.range 32).foldl
    (fun chunk j => if 32 * k + j < bits.length then setBit chunk (31 - j) (bits.getD (32 * k + j) false) else chunk) 0

/-- The codes of R231. -/
def Status.bits : Status → BitVec 8
  | .ok => 0x00
  | .emptyAlphabet => 0x01
  | .unknownSymbol => 0x02
  | .malformedBitstream => 0x03
  | .illegalCmd => 0x10
  | .sequence => 0x11
  | .countOverflow => 0x12
  | .noTree => 0x13
  | .length => 0x14

/-- The KIND field of a node: 0 = EMPTY, 1 = LEAF, 2 = INTERNAL (R24). -/
def Node.kind : Node → Nat
  | .empty => 0
  | .leaf _ => 1
  | .internal _ _ _ => 2

/-- The WEIGHT field of a node; 0 when EMPTY (R22, R24). -/
def Node.weight : Node → Nat
  | .empty => 0
  | .leaf w => w
  | .internal w _ _ => w

/-- The LEFT field of a node; 0 unless INTERNAL (R24). -/
def Node.left : Node → Nat
  | .empty => 0
  | .leaf _ => 0
  | .internal _ l _ => l

/-- The RIGHT field of a node; 0 unless INTERNAL (R24). -/
def Node.right : Node → Nat
  | .empty => 0
  | .leaf _ => 0
  | .internal _ _ r => r

/-- KIND = LEAF. -/
def Node.isLeaf : Node → Bool
  | .leaf _ => true
  | .empty | .internal _ _ _ => false

/-- The child a bit descends to: 0 is LEFT, 1 is RIGHT (R143, R190). -/
def Node.child (n : Node) (b : Bool) : Nat := if b then n.right else n.left

/-- The LEN field of a code entry (R26). -/
def CodeEntry.len (e : CodeEntry) : Nat := e.bits.length

/-- A bitstream record as one 39-bit word: LAST at bit 38, NBITS at 37:32, DATA at 31:0 (R74). -/
def BsRecord.word (r : BsRecord) : BitVec 39 :=
  BitVec.ofBool r.last ++ BitVec.ofNat 6 r.nbits ++ r.data

/-- The valid bits of a record, in message order (R54, R74). -/
def BsRecord.bits (r : BsRecord) : Bits := msbBits r.nbits r.data

/-- The DATA of an error response: ERR_OP at 55:48, ERR_SYM at 47:32, ERR_POS at 31:0 (R73). -/
def errData (op : BitVec 8) (sym pos : Nat) : Data56 :=
  field 48 8 op.toNat ||| field 32 16 sym ||| field 0 32 pos

/-- A response word: STATUS at 63:56, DATA at 55:0 (R72). -/
def responseWord (st : Status) (d : Data56) : Word64 := st.bits ++ d

end Sys2Proof.Machine
end

