-- ==== Sys2Proof/Machine/Ops.lean ====
section
/-! DEFINITION. The shared operations: the index spaces FREQ, NODE and CODE (spec/20_memory.md R50 to R58),
the output channels and the response (spec/00_scope.md R9, R10), raising an error, which is this block's
one exception (spec/60_exceptions.md R230, R234; there is nothing to return from, R237), the illegal word
(spec/30_encoding.md R76), reset (spec/70_reset_and_hazards.md R260, R261), and taking the next input. -/

namespace Sys2Proof.Machine

/-! ### Index spaces -/

/-- Entry `i` of a table whose unlisted entries read as `d`. -/
def Table.read {α : Type} (d : α) : Table α → Nat → α
  | [], _ => d
  | (k, x) :: t, i => if k = i then x else Table.read d t i

/-- The table without entry `i`. -/
def Table.erase {α : Type} (t : Table α) (i : Nat) : Table α := t.filter fun e => e.1 != i

/-- The table with entry `i` put before the first greater index. -/
def Table.insert {α : Type} : Table α → Nat → α → Table α
  | [], i, v => [(i, v)]
  | (k, x) :: t, i, v => if i < k then (i, v) :: (k, x) :: t else (k, x) :: Table.insert t i v

/-- `T[i] <- v`, keeping the canonical form: the value an unlisted index reads as is not listed. -/
def Table.write {α : Type} [DecidableEq α] (d : α) (t : Table α) (i : Nat) (v : α) : Table α :=
  if v = d then t.erase i else (t.erase i).insert i v

/-- The canonical form: indices strictly rising and below `bound`, no entry equal to the unlisted value. -/
abbrev Table.wf {α : Type} [DecidableEq α] (d : α) (bound : Nat) (t : Table α) : Prop :=
  t.Pairwise (fun a b => a.1 < b.1) ∧ ∀ e ∈ t, e.2 ≠ d ∧ e.1 < bound

/-- FREQ[s] (R23). -/
def State.count (s : State) (sym : Nat) : Nat := Table.read 0 s.freq sym

/-- NODE[i] (R24). -/
def State.nodeAt (s : State) (i : Nat) : Node := Table.read .empty s.node i

/-- CODE[s] (R26). -/
def State.codeAt (s : State) (sym : Nat) : CodeEntry := Table.read .none s.code sym

/-- FREQ[s] <- c. -/
def State.setCount (s : State) (sym c : Nat) : State := { s with freq := Table.write 0 s.freq sym c }

/-- The three index spaces of R50 are in canonical form, each within its range (R52). -/
abbrev Memory.wf (s : State) : Prop :=
  Table.wf 0 s.params.nsym s.freq ∧ Table.wf .empty s.params.nnode s.node ∧
    Table.wf CodeEntry.none s.params.nsym s.code

/-! ### Output channels -/

/-- Append one record or response to the host-visible output sequence (R10, R35). -/
def emit (o : Output) (s : State) : State := { s with outputs := s.outputs ++ [o] }

/-- `emit_bs(data, nbits, last)` (R74). -/
def emitBs (data : Word32) (nbits : Nat) (last : Bool) (s : State) : State := emit (.bs ⟨data, nbits, last⟩) s

/-- `emit_sym(s)`: one 16-bit record (R75). -/
def emitSym (sym : Nat) (s : State) : State := emit (.sym (BitVec.ofNat 16 sym)) s

/-- `respond(status, data)` (R72). -/
def respond (st : Status) (d : Data56) (s : State) : State := emit (.rsp (responseWord st d)) s

/-- `raise E(sym, pos)` in a command with opcode `op` (R234): LAST_ERR is overwritten, then the error
response is produced. What the command did before stays in effect (R9, R230). -/
def raise (e : Status) (op : BitVec 8) (sym pos : Nat) (s : State) : State :=
  respond e (errData op sym pos)
    { s with lastErr := ⟨e, op, BitVec.ofNat 16 sym, BitVec.ofNat 32 pos⟩ }

/-- An illegal word: E_ILLEGAL_CMD with the word's raw OP, SYM and IMM fields (R76). -/
def raiseIllegal (w : Word64) (s : State) : State :=
  raise .illegalCmd (opField w) (symField w).toNat (immField w).toNat s

/-! ### Inputs -/

/-- Reset between two commands (R260, R261): every item of state takes its reset value; the parameters do
not change, what the host still delivers is the host's, and what it has received stays received. -/
def takeReset (s : State) : State :=
  { State.resetWith s.params with inputs := s.inputs, outputs := s.outputs }

end Sys2Proof.Machine
end

