-- ==== Sys2Proof/Machine/Flags.lean ====
section
/-! DEFINITION. The status flags of spec/10_state.md R32 (there are no arithmetic condition codes): TREE_VALID,
ENC_OPEN and DEC_OPEN, the operations that clear them, and the status views that show them
(spec/45_control.md R211). LAST_ERR.CODE, the fourth, is written by `raise` alone. -/

namespace Sys2Proof.Machine

/-- An encode or a decode message is open (R120, R121). -/
def State.busy (s : State) : Bool := s.encOpen || s.decOpen

/-- The tree and code table are gone: TREE_VALID = 0, ROOT = NLEAVES = 0, NODE EMPTY, CODE invalid (R25, R126). -/
def clearTree (s : State) : State :=
  { s with node := [], code := [], treeValid := false, root := 0, nleaves := 0 }

/-- `EncAbort()` (R160): ENC_OPEN and the packer are cleared; ENC_NSYM and ENC_NBITS keep their values. -/
def encAbort (s : State) : State := { s with encOpen := false, pkBuf := 0, pkCnt := 0 }

/-- `DecAbort()` (R190): DEC_OPEN is cleared; DEC_CUR, DEC_NBITS and DEC_NSYM keep their values. -/
def decAbort (s : State) : State := { s with decOpen := false }

/-- The DATA of a status view (R211); fields not listed there are 0. -/
def State.view (s : State) : View → Data56
  | .status =>
    field 33 17 s.root ||| field 16 17 s.nleaves ||| field 8 8 s.lastErr.code.bits.toNat |||
      flag 2 s.decOpen ||| flag 1 s.encOpen ||| flag 0 s.treeValid
  | .params =>
    field 24 8 s.params.packW ||| field 16 8 s.params.posW ||| field 8 8 s.params.cntW ||| field 0 8 s.params.symW
  | .encNsym => field 0 32 s.encNsym
  | .encNbits => field 0 32 s.encNbits
  | .decNbits => field 0 32 s.decNbits
  | .decNsym => field 0 32 s.decNsym
  | .lastErr => field 48 8 s.lastErr.op.toNat ||| field 32 16 s.lastErr.sym.toNat ||| field 0 32 s.lastErr.pos.toNat
  | .traversal => field 8 17 s.decCur ||| field 0 5 s.pkCnt.val
  | .pkBuf => field 0 32 s.pkBuf.toNat

end Sys2Proof.Machine
end

