-- ==== Sys2Proof/Machine/CodeTable.lean ====
section
/-! DEFINITION. Code-table generation, which runs inside BUILD, and CODE_READ (spec/42_code_table.md R140 to
R145). -/

namespace Sys2Proof.Machine

/-- `Walk(n, p)` (R140) on the tree `nodes`, filling `code`: a leaf's codeword is the path to it, 0 for LEFT
and 1 for RIGHT (R143). `fuel` bounds the depth still allowed below `n`; BUILD gives NLEAVES, and no
leaf lies deeper than NLEAVES - 1 (R127). -/
def walk (nodes : Table Node) : Nat → Nat → Bits → Table CodeEntry → Table CodeEntry
  | 0, _, _, code => code
  | fuel + 1, n, path, code =>
    match Table.read .empty nodes n with
    | .empty => code
    | .leaf _ => Table.write .none code n ⟨true, path⟩
    | .internal _ l r => walk nodes fuel r (path ++ [true]) (walk nodes fuel l (path ++ [false]) code)

/-- `GenerateCodes()` (R140) on a cleared code table; the sole symbol of a one-leaf tree gets "0" (R141). -/
def generateCodes (nodes : Table Node) (root nleaves : Nat) : Table CodeEntry :=
  if (Table.read .empty nodes root).isLeaf then Table.write .none [] root ⟨true, [false]⟩
  else walk nodes nleaves root [] []

/-- CODE_READ s, k (R144). -/
def execCodeRead (sym chunk : Nat) (s : State) : Host.Outcome State Fault Refusal :=
  let e := s.codeAt sym
  .next (respond .ok (flag 55 e.valid ||| field 32 16 e.len ||| field 0 32 (msbChunk e.bits chunk).toNat) s)

end Sys2Proof.Machine
end

