-- ==== Sys2Proof/Machine/Control.lean ====
section
/-! DEFINITION. NOP and STATUS_READ (spec/45_control.md R210 to R212). -/

namespace Sys2Proof.Machine

/-- NOP (R210): a response and nothing else. -/
def execNop (s : State) : Host.Outcome State Fault Refusal := .next (respond .ok 0 s)

/-- STATUS_READ v (R211). -/
def execStatusRead (view : View) (s : State) : Host.Outcome State Fault Refusal :=
  .next (respond .ok (s.view view) s)

end Sys2Proof.Machine
end

