-- ==== Sys2Proof/Machine/Decoder.lean ====
section
/-! DEFINITION. The tree-traversal decoder: DEC_START, DEC_BITS and DEC_END (spec/44_decoder.md R190 to R200). -/

namespace Sys2Proof.Machine

/-- Emit a decoded symbol and count it (R190). -/
def decodeEmit (sym : Nat) (s : State) : State :=
  let s1 := emitSym sym s
  { s1 with decNsym := s1.decNsym + 1 }

/-- `DecodeBit(b)` (R190), with the number of symbols it emits; `none` where it raises E_MALFORMED_BITSTREAM,
a 1 bit under a one-leaf tree (R194). -/
def decodeBit (b : Bool) (s : State) : Option (State × Nat) :=
  if (s.nodeAt s.root).isLeaf then
    if b then none
    else
      let s1 := decodeEmit s.root s
      some ({ s1 with decNbits := s1.decNbits + 1 }, 1)
  else
    let c := (s.nodeAt s.decCur).child b
    if (s.nodeAt c).isLeaf then
      let s1 := decodeEmit c s
      some ({ s1 with decCur := s1.root, decNbits := s1.decNbits + 1 }, 1)
    else some ({ s with decCur := c, decNbits := s.decNbits + 1 }, 0)

/-- `DecodeBit` of every bit of a sequence, in order, with the symbols emitted so far, then the response; a
malformed bit aborts the message and ends the command (R190, R192). -/
def decodeBits (op : BitVec 8) : Bits → Nat → State → State
  | [], emitted, s => respond .ok (field 0 56 emitted) s
  | b :: bs, emitted, s =>
    match decodeBit b s with
    | some (s1, e) => decodeBits op bs (emitted + e) s1
    | none => raise .malformedBitstream op 0 s.decNbits (decAbort s)

/-- DEC_START (R191). -/
def execDecStart (s : State) : Host.Outcome State Fault Refusal :=
  if s.decOpen then .next (raise .sequence (Instr.op .decStart) 0 0 s)
  else .next (respond .ok 0 { s with decOpen := true, decCur := s.root, decNbits := 0, decNsym := 0 })

/-- DEC_BITS n, v (R192, R196, R198, R199). -/
def execDecBits (n : Nat) (v : Word32) (s : State) : Host.Outcome State Fault Refusal :=
  let op := Instr.op (.decBits n v)
  if s.decOpen = false then .next (raise .sequence op 0 v.toNat s)
  else if s.treeValid = false then .next (raise .noTree op 0 s.decNbits (decAbort s))
  else if s.decNbits + n > s.params.maxLen then .next (raise .length op 0 s.decNbits (decAbort s))
  else .next (decodeBits op (msbBits n v) 0 s)

/-- DEC_END (R195, R197): the bits must end on a codeword boundary. -/
def execDecEnd (s : State) : Host.Outcome State Fault Refusal :=
  let op := Instr.op .decEnd
  if s.decOpen = false then .next (raise .sequence op 0 0 s)
  else if s.decCur ≠ s.root then .next (raise .malformedBitstream op 0 s.decNbits { s with decOpen := false })
  else .next (respond .ok (field 0 56 s.decNsym) { s with decOpen := false })

end Sys2Proof.Machine
end

