-- ==== Sys2Proof/Machine/Encoder.lean ====
section
/-! DEFINITION. The packer, ENC_START, ENC_SYM and ENC_END (spec/43_encoder_packer.md R160 to R172). -/

namespace Sys2Proof.Machine

/-- `PackBit(b)` (R160): the bit goes to PK_BUF[31 - PK_CNT]; a full word goes out at once. -/
def packBit (b : Bool) (s : State) : State :=
  let buf := setBit s.pkBuf (31 - s.pkCnt.val) b
  if s.pkCnt = 31 then emitBs buf 32 false { s with pkBuf := 0, pkCnt := 0 }
  else { s with pkBuf := buf, pkCnt := s.pkCnt + 1 }

/-- `PackBit` of every bit of a sequence, in order (R162). -/
def packBits : Bits → State → State
  | [], s => s
  | b :: bs, s => packBits bs (packBit b s)

/-- ENC_START (R161). -/
def execEncStart (s : State) : Host.Outcome State Fault Refusal :=
  if s.encOpen then .next (raise .sequence (Instr.op .encStart) 0 0 s)
  else .next (respond .ok 0 { s with encOpen := true, encNsym := 0, encNbits := 0, pkBuf := 0, pkCnt := 0 })

/-- ENC_SYM s (R162, R167 to R169). -/
def execEncSym (sym : Nat) (s : State) : Host.Outcome State Fault Refusal :=
  let op := Instr.op (.encSym sym)
  let e := s.codeAt sym
  if s.encOpen = false then .next (raise .sequence op sym 0 s)
  else if e.valid = false then .next (raise .unknownSymbol op sym s.encNsym (encAbort s))
  else if s.encNbits + e.len > s.params.maxLen then .next (raise .length op sym s.encNsym (encAbort s))
  else
    let s1 := packBits e.bits s
    let s2 := { s1 with encNbits := s1.encNbits + e.len, encNsym := s1.encNsym + 1 }
    .next (respond .ok (field 32 16 e.len ||| field 0 32 s2.encNbits) s2)

/-- ENC_END (R163): the final record carries what the packer still holds. -/
def execEncEnd (s : State) : Host.Outcome State Fault Refusal :=
  if s.encOpen = false then .next (raise .sequence (Instr.op .encEnd) 0 0 s)
  else
    let s1 := emitBs s.pkBuf s.pkCnt.val true s
    .next (respond .ok (field 0 56 s.encNbits) { s1 with pkBuf := 0, pkCnt := 0, encOpen := false })

end Sys2Proof.Machine
end

