-- ==== Sys2Proof/Machine/FrequencyAnalyzer.lean ====
section
/-! DEFINITION. FREQ_CLEAR, FREQ_COUNT, FREQ_SET and FREQ_READ (spec/40_frequency_analyzer.md R101 to R105). -/

namespace Sys2Proof.Machine

/-- FREQ_CLEAR (R101): every count is 0. -/
def execFreqClear (s : State) : Host.Outcome State Fault Refusal :=
  .next (respond .ok 0 { s with freq := [] })

/-- FREQ_COUNT s (R102): an increment that never wraps (R105). -/
def execFreqCount (sym : Nat) (s : State) : Host.Outcome State Fault Refusal :=
  if s.count sym = s.params.maxCount then
    .next (raise .countOverflow (Instr.op (.freqCount sym)) sym 0 s)
  else
    let s1 := s.setCount sym (s.count sym + 1)
    .next (respond .ok (field 0 56 (s1.count sym)) s1)

/-- FREQ_SET s, c (R103). -/
def execFreqSet (sym cnt : Nat) (s : State) : Host.Outcome State Fault Refusal :=
  .next (respond .ok 0 (s.setCount sym cnt))

/-- FREQ_READ s (R104). -/
def execFreqRead (sym : Nat) (s : State) : Host.Outcome State Fault Refusal :=
  .next (respond .ok (field 0 56 (s.count sym)) s)

end Sys2Proof.Machine
end

