-- ==== Sys2Proof/Machine/TreeBuilder.lean ====
section
/-! DEFINITION. BUILD and NODE_READ (spec/41_tree_builder.md R120 to R133). The priority queue and the sequence
counter exist only while BUILD runs (R34). The queue is kept as the list of its elements in ascending
order, so that its least element is its head; R133 leaves the algorithm free. -/

namespace Sys2Proof.Machine

/-- An element of BUILD's queue: (weight, seq, node index) (R120). -/
structure QEntry where
  weight : Nat
  seq : Nat
  idx : Nat
  deriving DecidableEq, Repr

/-- The queue's order: by weight, then by seq (R123). -/
def QEntry.before (a b : QEntry) : Bool :=
  decide (a.weight < b.weight) || (decide (a.weight = b.weight) && decide (a.seq < b.seq))

/-- Insert an element into the ascending queue (R122, R123). -/
def enqueue (e : QEntry) : List QEntry → List QEntry
  | [] => [e]
  | x :: q => if e.before x then e :: x :: q else x :: enqueue e q

/-- The alphabet Lv: the symbols with a nonzero count, ascending (R120, R122). -/
def State.alphabet (s : State) : List Nat := (List.range s.params.nsym).filter fun sym => s.count sym != 0

/-- The leaves of the symbols of a list, written to NODE and inserted into the queue in list order, the
first with sequence number `seq` (R122). -/
def plantLeaves (count : Nat → Nat) : List Nat → Nat → List QEntry → Table Node → List QEntry × Table Node
  | [], _, q, nodes => (q, nodes)
  | sym :: syms, seq, q, nodes =>
    plantLeaves count syms (seq + 1) (enqueue ⟨count sym, seq, sym⟩ q)
      (Table.write .empty nodes sym (.leaf (count sym)))

/-- The merge loop (R124, R125): while two trees are left, the first removed becomes LEFT and the second RIGHT
of the internal node at `newIdx`, which enters the queue with sequence number `seq`. The result is NODE and
the index of the tree that remains. `fuel` bounds the merges; BUILD gives one for each leaf, and a merge
takes one tree away. An empty queue, which has no tree to name, does not arise (R126). -/
def mergeTrees : Nat → Nat → Nat → List QEntry → Table Node → Table Node × Nat
  | fuel + 1, seq, newIdx, a :: b :: q, nodes =>
    mergeTrees fuel (seq + 1) (newIdx + 1) (enqueue ⟨a.weight + b.weight, seq, newIdx⟩ q)
      (Table.write .empty nodes newIdx (.internal (a.weight + b.weight) a.idx b.idx))
  | _, _, _, r :: _, nodes => (nodes, r.idx)
  | _, _, _, [], nodes => (nodes, 0)

/-- The tree of an alphabet with these counts: NODE and ROOT (R120). -/
def buildTree (nsym : Nat) (count : Nat → Nat) (lv : List Nat) : Table Node × Nat :=
  let planted := plantLeaves count lv 0 [] []
  mergeTrees lv.length lv.length nsym planted.1 planted.2

/-- NODE, ROOT, NLEAVES, TREE_VALID and CODE as a successful BUILD leaves them (R120, R140). -/
def rebuild (lv : List Nat) (s : State) : State :=
  let t := buildTree s.params.nsym s.count lv
  { s with node := t.1, root := t.2, nleaves := lv.length, treeValid := true,
           code := generateCodes t.1 t.2 lv.length }

/-- BUILD (R120, R121, R126). -/
def execBuild (s : State) : Host.Outcome State Fault Refusal :=
  if s.busy then .next (raise .sequence (Instr.op .build) 0 0 s)
  else if s.alphabet = [] then .next (raise .emptyAlphabet (Instr.op .build) 0 0 (clearTree s))
  else
    let s1 := rebuild s.alphabet s
    .next (respond .ok (field 24 17 s1.root ||| field 0 17 s1.nleaves) s1)

/-- NODE_READ i, sel (R132). -/
def execNodeRead (idx : Nat) (sel : NodeSel) (s : State) : Host.Outcome State Fault Refusal :=
  let n := s.nodeAt idx
  match sel with
  | .shape => .next (respond .ok (field 25 17 n.right ||| field 8 17 n.left ||| field 0 2 n.kind) s)
  | .weight => .next (respond .ok (field 0 56 n.weight) s)

end Sys2Proof.Machine
end

