-- ==== Sys2Proof/Machine/Dispatch.lean ====
section
/-! DEFINITION. The dispatch of a decoded command to its meaning, one arm a command of R77. -/

namespace Sys2Proof.Machine

/-- The meaning of a command (R77). -/
def exec (i : Instr) (s : State) : Host.Outcome State Fault Refusal :=
  match i with
  | .nop => Sys2Proof.Machine.execNop s
  | .freqClear => Sys2Proof.Machine.execFreqClear s
  | .freqCount sym => Sys2Proof.Machine.execFreqCount sym s
  | .freqSet sym cnt => Sys2Proof.Machine.execFreqSet sym cnt s
  | .freqRead sym => Sys2Proof.Machine.execFreqRead sym s
  | .build => Sys2Proof.Machine.execBuild s
  | .nodeRead idx sel => Sys2Proof.Machine.execNodeRead idx sel s
  | .codeRead sym chunk => Sys2Proof.Machine.execCodeRead sym chunk s
  | .statusRead view => Sys2Proof.Machine.execStatusRead view s
  | .encStart => Sys2Proof.Machine.execEncStart s
  | .encSym sym => Sys2Proof.Machine.execEncSym sym s
  | .encEnd => Sys2Proof.Machine.execEncEnd s
  | .decStart => Sys2Proof.Machine.execDecStart s
  | .decBits n v => Sys2Proof.Machine.execDecBits n v s
  | .decEnd => Sys2Proof.Machine.execDecEnd s

end Sys2Proof.Machine
end

