-- ==== Sys2Proof/Machine/Step.lean ====
section
/-! DEFINITION. One step: the block takes the next input of the host and runs it to completion
(spec/00_scope.md R10). -/

namespace Sys2Proof.Machine

/-- A command word runs to completion (R10, R79): the command it spells, or the error of an illegal word (R76). -/
def execWord (w : Word64) (s : State) : Host.Outcome State Fault Refusal :=
  match decode s.params w with
  | .ok i => exec i s
  | .error _ => .next (raiseIllegal w s)

/-- With nothing delivered the block waits (R239). A reset puts every item of state at its reset value
(R261). A command word runs (R10). -/
def step (s : State) : Host.Outcome State Fault Refusal :=
  match s.inputs with
  | [] => .next s
  | .rst :: rest => .next (takeReset { s with inputs := rest })
  | .cmd w :: rest => execWord w { s with inputs := rest }

/-- The state with the command whose low `nbits` bits are `w` (the others 0) delivered next. -/
def State.withFetchWord (s : State) (nbits w : Nat) : State :=
  { s with inputs := .cmd (BitVec.ofNat 64 (w % 2 ^ nbits)) :: s.inputs }

/-- Commands given one after another, each to the state the last one left (R60). -/
def execAll : List Instr → State → Host.Outcome State Fault Refusal
  | [], s => .next s
  | i :: is, s =>
    match exec i s with
    | .next t => execAll is t
    | .fault r => .fault r
    | .refused r => .refused r

end Sys2Proof.Machine
end

