-- ==== Sys2Proof/Machine/Assembler.lean ====
section
/-! DEFINITION. The textual forms of spec/30_encoding.md R80 and the pseudo-commands of R81. They are text only:
the block never sees them. A line is its mnemonic and its operands; how their characters are read is not
modelled. An assembled word need not be legal: an operand that fits its field is put there, and the block
judges it (R76). -/

namespace Sys2Proof.Machine

/-- An operand as R80 writes it: an integer, a quoted character, or a string of 0 and 1. -/
inductive AsmOperand where
  | int (n : Nat)
  | chr (c : Char)
  | bits (bs : Bits)
  deriving DecidableEq, Repr

/-- The value of a symbol operand: an integer, or a quoted character's ASCII code (R80, R6). -/
def AsmOperand.symbol : AsmOperand → Option Nat
  | .int n => some n
  | .chr c => if c.toNat < 128 then some c.toNat else none
  | .bits _ => none

/-- The word of these fields, if each fits (R70). -/
def fieldsWord (op : BitVec 8) (n sym imm : Nat) : Option Word64 :=
  if n < 2 ^ 8 ∧ sym < 2 ^ 16 ∧ imm < 2 ^ 32 then some (commandWord op n sym imm) else none

/-- The word a line of assembly text spells (R80). -/
def assemble (mnemonic : String) (ops : List AsmOperand) : Option Word64 :=
  match mnemonic, ops with
  | "NOP", [] => fieldsWord 0x00 0 0 0
  | "FREQ_CLEAR", [] => fieldsWord 0x01 0 0 0
  | "FREQ_COUNT", [s] => s.symbol.bind fun s => fieldsWord 0x02 0 s 0
  | "FREQ_SET", [s, .int c] => s.symbol.bind fun s => fieldsWord 0x03 0 s c
  | "FREQ_READ", [s] => s.symbol.bind fun s => fieldsWord 0x04 0 s 0
  | "BUILD", [] => fieldsWord 0x08 0 0 0
  | "NODE_READ", [.int i, .int sel] => fieldsWord 0x09 sel 0 i
  | "CODE_READ", [s, .int k] => s.symbol.bind fun s => fieldsWord 0x0A 0 s k
  | "STATUS_READ", [.int v] => fieldsWord 0x0F 0 0 v
  | "ENC_START", [] => fieldsWord 0x10 0 0 0
  | "ENC_SYM", [s] => s.symbol.bind fun s => fieldsWord 0x11 0 s 0
  | "ENC_END", [] => fieldsWord 0x12 0 0 0
  | "DEC_START", [] => fieldsWord 0x18 0 0 0
  | "DEC_BITS", [.int n, .int b] => fieldsWord 0x19 n 0 b
  | "DEC_BITS", [.bits bs] =>
    if 1 ≤ bs.length ∧ bs.length ≤ 32 then fieldsWord 0x19 bs.length 0 (msbChunk bs 0).toNat else none
  | "DEC_END", [] => fieldsWord 0x1A 0 0 0
  | _, _ => none

/-- `ANALYZE "t"` (R81, R100). -/
def pseudoAnalyze (t : List Nat) : List Instr := .freqClear :: t.map .freqCount

/-- `ENCODE "t"` (R81, R12). -/
def pseudoEncode (t : List Nat) : List Instr := .encStart :: t.map .encSym ++ [.encEnd]

/-- Successive 32-bit chunks of a bit string, the last maybe shorter, at most `fuel` of them (R81). -/
def chunks32 : Nat → Bits → List Bits
  | 0, _ => []
  | fuel + 1, bs => if bs = [] then [] else bs.take 32 :: chunks32 fuel (bs.drop 32)

/-- `DEC_BITS "c"`: the bits of a chunk, MSB-first (R80). -/
def decBitsOf (c : Bits) : Instr := .decBits c.length (msbChunk c 0)

/-- `DECODE "bits"` (R81, R12). -/
def pseudoDecode (bits : Bits) : List Instr :=
  .decStart :: (chunks32 bits.length bits).map decBitsOf ++ [.decEnd]

/-- `SETFREQ` of the pairs in the order written (R81). -/
def pseudoSetFreq (pairs : List (Nat × Nat)) : List Instr :=
  .freqClear :: pairs.map fun e => .freqSet e.1 e.2

end Sys2Proof.Machine
end

