-- ==== Sys2Proof/Machine/Ports.lean ====
section
/-! DEFINITION. The block behind its ports (spec/30_encoding.md R82, R83; spec/20_memory.md R61;
spec/70_reset_and_hazards.md R261, R262, R267): the command-level machine of Sys2Proof/Machine/Step.lean, what
it has produced and not yet transferred, and one transition for each rising edge of clk. A channel's valid
line and its data lines are one Option: `some` is valid = 1, and data lines say nothing while valid = 0.
How long the block works before it offers anything is a free value (log entry 7). The records of one command
are offered in the order it produced them, and its response after them all (R61). -/

namespace Sys2Proof.Machine

/-- What the host drives at a clock edge (R82): rst, cmd_valid with cmd_data, and the three ready lines. -/
structure PortIn where
  rst : Bool
  cmd : Option Word64
  rspReady : Bool
  bsReady : Bool
  syReady : Bool
  deriving DecidableEq, Repr

/-- What the block drives (R82): cmd_ready, and the three channels with their valid lines. -/
structure PortOut where
  cmdReady : Bool
  rsp : Option Word64
  bs : Option BsRecord
  sy : Option (BitVec 16)
  deriving DecidableEq, Repr

/-- The block and its channels. -/
structure Port where
  /-- The command-level state; its `outputs` are all that was produced and not withdrawn. -/
  block : State
  /-- Produced by the last command and not yet transferred, the next first. -/
  offered : List Output
  /-- Edges left before the block offers the next of these, or cmd_ready. -/
  wait : Nat
  /-- Edges so far. -/
  edges : Nat
  /-- What the host has received, oldest first. -/
  taken : List Output
  deriving DecidableEq, Repr

/-- All lines at 0. -/
def PortOut.idle : PortOut := ⟨false, none, none, none⟩

/-- The block's lines while rst has the given value (R83, R261, R262): nothing during reset or while the block
works; else the next record or response on its channel; cmd_ready once all of it is transferred. -/
def Port.out (q : Port) (rst : Bool) : PortOut :=
  if rst || q.wait != 0 then .idle
  else
    match q.offered with
    | [] => { PortOut.idle with cmdReady := true }
    | .bs r :: _ => { PortOut.idle with bs := some r }
    | .sym w :: _ => { PortOut.idle with sy := some w }
    | .rsp w :: _ => { PortOut.idle with rsp := some w }

/-- The host's ready line of the channel a record or response is offered on (R82). -/
def PortIn.takes (i : PortIn) : Output → Bool
  | .bs _ => i.bsReady
  | .sym _ => i.syReady
  | .rsp _ => i.rspReady

/-- An edge with rst = 1 (R260, R261): every item of state takes its reset value, and what was offered and not
yet transferred is withdrawn. -/
def Port.reset (q : Port) : Port :=
  { block := takeReset { q.block with outputs := q.taken }
    offered := []
    wait := Config.resetCycles q.edges
    edges := q.edges + 1
    taken := q.taken }

/-- The host receives the next record or response (R83). -/
def Port.transfer (q : Port) (o : Output) (rest : List Output) : Port :=
  { q with offered := rest, taken := q.taken ++ [o], wait := Config.workCycles q.edges, edges := q.edges + 1 }

/-- The block has run a command word and left state `t` (R10, R83). -/
def Port.accept (q : Port) (t : State) : Port :=
  { q with block := t, offered := t.outputs.drop q.block.outputs.length,
           wait := Config.workCycles q.edges, edges := q.edges + 1 }

/-- Nothing moves at this edge. -/
def Port.hold (q : Port) : Port := { q with wait := q.wait - 1, edges := q.edges + 1 }

/-- One rising edge of clk (R82, R83). -/
def Port.clock (q : Port) (i : PortIn) : Host.Outcome Port Fault Refusal :=
  if i.rst then .next q.reset
  else if q.wait ≠ 0 then .next q.hold
  else
    match q.offered with
    | o :: rest => if i.takes o then .next (q.transfer o rest) else .next q.hold
    | [] =>
      match i.cmd with
      | none => .next q.hold
      | some w =>
        match execWord w q.block with
        | .next t => .next (q.accept t)
        | .fault r => .fault r
        | .refused r => .refused r

/-- The clock edges of a list of inputs, one after another. -/
def Port.clockAll : List PortIn → Port → Host.Outcome Port Fault Refusal
  | [], q => .next q
  | i :: is, q =>
    match q.clock i with
    | .next r => Port.clockAll is r
    | .fault r => .fault r
    | .refused r => .refused r

/-- The block with parameters `p` when its reset values are in place (R262) and nothing was transferred. -/
def Port.start (p : Params) : Port := ⟨State.resetWith p, [], 0, 0, []⟩

end Sys2Proof.Machine
end

