-- ==== Sys2Proof/Safety.lean ====
section
/-! DEFINITION. What every reachable state of the block satisfies, in the terms the statements use: the shape of a
built tree and its code table (spec/10_state.md R25 to R27, spec/41_tree_builder.md R127, R128,
spec/42_code_table.md R142), the message registers (R28 to R30, R165, R169, R193, R199), the packer
(R29), the canonical form of the index spaces (R50, R52), and what the output channels carry (R74, R75,
R231). -/

namespace Sys2Proof.Machine

/-- The node reached from `n` by following the bits, 0 to LEFT and 1 to RIGHT (R143, R193); `none` if the way
leads through a node that is not INTERNAL. -/
def descend (nodes : Table Node) : Bits → Nat → Option Nat
  | [], n => some n
  | b :: bs, n =>
    match Table.read .empty nodes n with
    | .internal _ l r => descend nodes bs (if b then r else l)
    | .empty | .leaf _ => none

/-- A node is INTERNAL. -/
abbrev Node.isInternal (n : Node) : Prop := n.kind = 2

/-- The order of R123 between two nodes of the finished arena: sequence numbers rise with the index. -/
abbrev NodeBefore (rd : Nat → Node) (x y : Nat) : Prop :=
  (rd x).weight < (rd y).weight ∨ ((rd x).weight = (rd y).weight ∧ x < y)

/-- `i` is a child of an internal node below `bound`. -/
abbrev ParentBelow (rd : Nat → Node) (bound i : Nat) : Prop :=
  ∃ (j : Nat) (b : Bool), j < bound ∧ (rd j).isInternal ∧ (rd j).child b = i

/-- `c` was the root of a tree when node `i` was created: there, created before `i`, and without a parent then. -/
abbrev TreeBefore (rd : Nat → Node) (i c : Nat) : Prop :=
  c < i ∧ rd c ≠ .empty ∧ ¬ ParentBelow rd i c

/-- Node `i` merged the two least of the trees that were there (R123, R124): LEFT and RIGHT were roots of trees
then, LEFT comes before RIGHT, and RIGHT before every other tree. -/
abbrev MergedLeast (rd : Nat → Node) (i : Nat) : Prop :=
  TreeBefore rd i (rd i).left ∧ TreeBefore rd i (rd i).right ∧ NodeBefore rd (rd i).left (rd i).right ∧
    ∀ c, TreeBefore rd i c → c ≠ (rd i).left → c ≠ (rd i).right → NodeBefore rd (rd i).right c

/-- The bits the packer holds, in message order (R165). -/
def State.pending (s : State) : Bits := msbBits s.pkCnt.val s.pkBuf

/-- The state that has also put out these records and then the response OK with this DATA (R10, R72). -/
def State.answered (s : State) (recs : List Output) (data : Nat) : State :=
  { s with outputs := s.outputs ++ recs ++ [.rsp (0x00#8 ++ BitVec.ofNat 56 data)] }

/-- The state that has also recorded this error in LAST_ERR and put out its response (R73, R234). -/
def State.errored (s : State) (e : Status) (op : BitVec 8) (sym : BitVec 16) (pos : BitVec 32) : State :=
  { s with lastErr := ⟨e, op, sym, pos⟩, outputs := s.outputs ++ [.rsp (e.bits ++ op ++ sym ++ pos)] }

/-- Bitstream records of an output sequence, in order (R61). -/
def bsRecords (os : List Output) : List BsRecord :=
  os.filterMap fun
    | .bs r => some r
    | .sym _ => none
    | .rsp _ => none

/-- Symbols of the symbol records of an output sequence, in order (R61, R75). -/
def symRecords (os : List Output) : List Nat :=
  os.filterMap fun
    | .bs _ => none
    | .sym w => some w.toNat
    | .rsp _ => none

/-- What the output channels may carry: a bitstream record with LAST = 0 has 32 valid bits, one with LAST = 1
at most 31, and the bits below are 0 (R54, R74); a symbol record holds a symbol (R75); a response has a
status of R231, none of the reserved codes. -/
def Output.wf (p : Params) : Output → Prop
  | .bs r =>
    (r.last = false → r.nbits = 32) ∧ (r.last = true → r.nbits ≤ 31) ∧
      ∀ j, j + r.nbits < 32 → r.data.getLsbD j = false
  | .sym w => w.toNat < p.nsym
  | .rsp w => ∃ (st : Status) (d : Data56), w = responseWord st d

/-- A present tree and its code table: R27, with R26, R127, R128 and R142. -/
structure TreeInv (s : State) : Prop where
  /-- 1 <= NLEAVES <= NSYM. -/
  leaves : 1 ≤ s.nleaves ∧ s.nleaves ≤ s.params.nsym
  /-- NODE[i].KIND = LEAF if and only if CODE[i].VALID = 1. -/
  leaf_iff : ∀ i, (s.nodeAt i).isLeaf = true ↔ (s.codeAt i).valid = true
  /-- Leaves are symbols, and there are NLEAVES of them. -/
  leaf_lt : ∀ i, (s.nodeAt i).isLeaf = true → i < s.params.nsym
  leaf_count : ((List.range s.params.nsym).filter fun i => (s.nodeAt i).isLeaf).length = s.nleaves
  leaf_weight : ∀ i w, s.nodeAt i = .leaf w → 1 ≤ w ∧ w ≤ s.params.maxCount
  /-- Exactly NLEAVES - 1 internal nodes exist, at NSYM .. NSYM + NLEAVES - 2. -/
  internal_iff : ∀ i, (s.nodeAt i).isInternal ↔ s.params.nsym ≤ i ∧ i + 1 < s.params.nsym + s.nleaves
  /-- If NLEAVES = 1, ROOT is the only leaf; otherwise it is the last internal node. -/
  root_leaf : s.nleaves = 1 → (s.nodeAt s.root).isLeaf = true
  root_internal : 2 ≤ s.nleaves → s.root + 2 = s.params.nsym + s.nleaves
  /-- Every internal node's children are there, were created before it, and weigh together what it weighs. -/
  children : ∀ i w l r, s.nodeAt i = .internal w l r →
    l < i ∧ r < i ∧ s.nodeAt l ≠ .empty ∧ s.nodeAt r ≠ .empty ∧ w = (s.nodeAt l).weight + (s.nodeAt r).weight
  /-- Every node except ROOT has exactly one parent. -/
  one_parent : ∀ i, s.nodeAt i ≠ .empty → i ≠ s.root →
    ∃! e : Nat × Bool, (s.nodeAt e.1).isInternal ∧ (s.nodeAt e.1).child e.2 = i
  /-- ROOT's weight, the greatest, fits WGT_W bits. -/
  root_weight : (s.nodeAt s.root).weight < 2 ^ s.params.wgtW
  /-- A codeword is "0" under a one-leaf tree, and else the way from ROOT to its leaf. -/
  code_path : ∀ i, (s.codeAt i).valid = true →
    if (s.nodeAt s.root).isLeaf then i = s.root ∧ (s.codeAt i).bits = [false]
    else descend s.node (s.codeAt i).bits s.root = some i
  code_none : ∀ i, (s.codeAt i).valid = false → s.codeAt i = .none
  code_len : ∀ i, (s.codeAt i).valid = true → 1 ≤ (s.codeAt i).len ∧ (s.codeAt i).len ≤ s.params.maxCode

/-- What holds at reset and after every step. -/
structure State.Inv (s : State) : Prop where
  legal : s.params.legal
  memory : Memory.wf s
  counts : ∀ i, s.count i ≤ s.params.maxCount
  tree : s.treeValid = true → TreeInv s
  /-- TREE_VALID = 0: NODE EMPTY, CODE invalid, ROOT = NLEAVES = 0 (R25). -/
  noTree : s.treeValid = false → s.node = [] ∧ s.code = [] ∧ s.root = 0 ∧ s.nleaves = 0
  /-- ENC_NSYM <= ENC_NBITS <= MAXLEN (R169). -/
  encCounts : s.encNsym ≤ s.encNbits ∧ s.encNbits ≤ s.params.maxLen
  /-- PK_CNT = ENC_NBITS mod 32 in an open message (R165, log entry 5). -/
  packer : s.encOpen = true → s.pkCnt.val = s.encNbits % 32
  packerClosed : s.encOpen = false → s.pkBuf = 0 ∧ s.pkCnt = 0
  /-- PK_BUF[31 - PK_CNT : 0] = 0 (R29). -/
  packerZeros : ∀ j, j + s.pkCnt.val < 32 → s.pkBuf.getLsbD j = false
  /-- DEC_NSYM <= DEC_NBITS <= MAXLEN (R199). -/
  decCounts : s.decNsym ≤ s.decNbits ∧ s.decNbits ≤ s.params.maxLen
  /-- In an open decode message DEC_CUR is an internal node if ROOT is one (R193, log entry 5), and else ROOT (R194). -/
  decCurOk : s.decOpen = true →
    if (s.nodeAt s.root).isInternal then (s.nodeAt s.decCur).isInternal else s.decCur = s.root
  decCurLt : s.decCur < s.params.nnode
  outputsOk : ∀ o ∈ s.outputs, o.wf s.params

/-- BUILD at `s` with no message open and a nonempty alphabet: the premises of a successful BUILD (R120). -/
structure Buildable (s : State) : Prop where
  inv : s.Inv
  closed : s.encOpen = false ∧ s.decOpen = false
  nonempty : ∃ sym, sym < s.params.nsym ∧ s.count sym ≠ 0

/-- What the host has received and what is offered to it, together, are the outputs of the command-level machine, and
what is offered is empty or ends with the one response (R61). -/
def Port.Ordered (q : Port) : Prop :=
  q.taken ++ q.offered = q.block.outputs ∧
    (q.offered = [] ∨ ∃ (recs : List Output) (w : Word64), q.offered = recs ++ [.rsp w] ∧ ∀ o ∈ recs, ∀ r, o ≠ .rsp r)

end Sys2Proof.Machine
end

