-- ==== Sys2Proof/Certificates/Slice0/Obligations.lean ====
section
/-! DEFINITION. The statements for the provers. Each docstring names the rule of spec/ it formalises. -/

open Sys2Proof Sys2Proof.Machine

/-! ### Command words -/

/-- R70, R71, R77, R78: decoding the word of a well-formed command gives the command, for every legal choice of
parameters and every operand its row admits. -/
def Obligations.DecodeOfEncodeIsTheCommand : Prop :=
  ∀ (p : Params) (i : Instr), p.legal → i.wellFormed p = true → decode p (encode i) = .ok i

/-- R78, R79: a word that decodes has legal operands and is the word of the command it decodes to, so every
command has exactly one word. -/
def Obligations.DecodedWordIsTheCommandsOnlyWord : Prop :=
  ∀ (p : Params) (w : Word64) (i : Instr), decode p w = .ok i → encode i = w ∧ i.wellFormed p = true

/-- R78: the bits under a row's fixed mask have the row's pattern in every word that decodes to it. -/
def Obligations.FixedBitsOfDecodedWords : Prop :=
  ∀ (p : Params) (w : Word64) (i : Instr), decode p w = .ok i → w &&& i.fixedMask = i.fixedMatch

/-- R77: every OP value not listed is reserved, and a word with it spells no command. -/
def Obligations.UnlistedOpcodesAreReserved : Prop :=
  ∀ (p : Params) (w : Word64),
    (opField w).toNat ∉ [0x00, 0x01, 0x02, 0x03, 0x04, 0x08, 0x09, 0x0A, 0x0F, 0x10, 0x11, 0x12, 0x18, 0x19, 0x1A] →
    decode p w = .error .reservedOpcode

/-- R101 to R211: words written out from the rules' encodings decode to the commands they stand for, under the
default parameters. -/
def Obligations.SpecWordsDecode : Prop :=
  decode .default 0x0000000000000000 = .ok .nop ∧
  decode .default 0x0200006100000000 = .ok (.freqCount 0x61) ∧
  decode .default 0x0300006100000005 = .ok (.freqSet 0x61 5) ∧
  decode .default 0x0800000000000000 = .ok .build ∧
  decode .default 0x0901000000000103 = .ok (.nodeRead 259 .weight) ∧
  decode .default 0x0A00006300000001 = .ok (.codeRead 0x63 1) ∧
  decode .default 0x0F00000000000007 = .ok (.statusRead .traversal) ∧
  decode .default 0x1100006200000000 = .ok (.encSym 0x62) ∧
  decode .default 0x1904000060000000 = .ok (.decBits 4 0x60000000) ∧
  decode .default 0x1900000000000000 = .error .badN ∧
  decode .default 0x1100010000000000 = .error .badSym ∧
  decode .default 0x0F00000000000009 = .error .badImm

/-! ### A step -/

/-- R10, R60: when the next input is a command word that decodes to `i`, the step is `i` at the state with that
input taken; the encoding of a well-formed command, delivered next, runs exactly that command. -/
def Obligations.StepRunsTheDecodedCommand : Prop :=
  (∀ (s : State) (w : Word64) (rest : List HostInput) (i : Instr),
    s.inputs = .cmd w :: rest → decode s.params w = .ok i → step s = exec i { s with inputs := rest }) ∧
  (∀ (s : State) (i : Instr), s.params.legal → i.wellFormed s.params = true →
    step (s.withFetchWord 64 (encode i).toNat) = exec i s)

/-- R76: a word that is not the word of a command with legal operands changes no state except LAST_ERR;
E_ILLEGAL_CMD reports the word's raw OP, SYM and IMM fields. -/
def Obligations.IllegalWordChangesOnlyLastErr : Prop :=
  ∀ (s : State) (w : Word64) (rest : List HostInput),
    s.inputs = .cmd w :: rest → (∀ i : Instr, i.wellFormed s.params = true → encode i ≠ w) →
    step s = .next (({ s with inputs := rest } : State).errored .illegalCmd (opField w) (symField w) (immField w))

/-- R260: a reset puts every item of the table of R22 at its reset value, and the parameters stay. -/
def Obligations.ResetPutsEveryItemAtItsResetValue : Prop :=
  ∀ (s : State) (rest : List HostInput), s.inputs = .rst :: rest →
    ∃ t, step s = .next t ∧
      (∀ i, t.count i = 0 ∧ t.nodeAt i = .empty ∧ t.codeAt i = ⟨false, []⟩) ∧
      t.root = 0 ∧ t.nleaves = 0 ∧ t.treeValid = false ∧
      t.encOpen = false ∧ t.encNsym = 0 ∧ t.encNbits = 0 ∧ t.pkBuf = 0 ∧ t.pkCnt = 0 ∧
      t.decOpen = false ∧ t.decCur = 0 ∧ t.decNbits = 0 ∧ t.decNsym = 0 ∧ t.lastErr = ⟨.ok, 0, 0, 0⟩ ∧
      t.params = s.params

/-- R10 (the step is total) with log entry 3: a step always answers a next state. With nothing delivered the block
waits, which is the model's choice. -/
def Obligations.StepIsTotal : Prop :=
  (∀ s : State, ∃ t, step s = .next t) ∧ ∀ s : State, s.inputs = [] → step s = .next s

/-- R10, R61, R72: every command word, legal or not, is answered by its records and then exactly one response, whose
status is one of R231. -/
def Obligations.EveryWordGetsOneResponseLast : Prop :=
  ∀ (w : Word64) (s : State), ∃ (t : State) (recs : List Output) (st : Status) (d : Data56),
    execWord w s = .next t ∧ t.outputs = s.outputs ++ recs ++ [.rsp (st.bits ++ d)] ∧ ∀ o ∈ recs, ∀ r, o ≠ .rsp r

/-- R231: the status codes. -/
def Obligations.StatusCodesAreAsListed : Prop :=
  Status.ok.bits = 0x00 ∧ Status.emptyAlphabet.bits = 0x01 ∧ Status.unknownSymbol.bits = 0x02 ∧
  Status.malformedBitstream.bits = 0x03 ∧ Status.illegalCmd.bits = 0x10 ∧ Status.sequence.bits = 0x11 ∧
  Status.countOverflow.bits = 0x12 ∧ Status.noTree.bits = 0x13 ∧ Status.length.bits = 0x14

/-- R31, R234: an error response overwrites LAST_ERR with its code, the failing word's opcode field and the
response's information fields; a successful command never changes LAST_ERR. -/
def Obligations.LastErrRecordsTheLatestError : Prop :=
  ∀ (w : Word64) (s t : State), execWord w s = .next t →
    ∃ (os : List Output) (st : Status) (d : Data56), t.outputs = os ++ [.rsp (st.bits ++ d)] ∧
      if st = .ok then t.lastErr = s.lastErr
      else t.lastErr.code = st ∧ t.lastErr.op = opField w ∧ d = opField w ++ t.lastErr.sym ++ t.lastErr.pos

/-! ### The invariant -/

/-- The state after reset satisfies the invariant, whatever the parameters (R260; the canonical form in it is log entry
6, DESIGN CHOICE). -/
def Obligations.ResetSatisfiesTheInvariant : Prop :=
  ∀ p : Params, p.legal → (State.resetWith p).Inv

/-- R25 to R27, R29, R74, R75, R127, R128, R142, R169, R199, R231: every step keeps the invariant. Two of its parts
are the model's reading: PK_CNT = ENC_NBITS mod 32 (of R165) and an internal DEC_CUR (of R193) are in it for an
open message only (log entry 5, DEDUCED), and the canonical form of the index spaces is the model's choice (log
entry 6, DESIGN CHOICE). -/
def Obligations.StepKeepsTheInvariant : Prop :=
  ∀ s t : State, s.Inv → step s = .next t → t.Inv

/-! ### Control -/

/-- R210: NOP gives response 0 with no state change, in every state; every other word with OP = 0x00 is illegal. -/
def Obligations.NopOnlyResponds : Prop :=
  encode .nop = 0x0000000000000000 ∧
  (∀ (p : Params) (w : Word64), opField w = 0x00 → w ≠ 0 → ∃ r, decode p w = .error r) ∧
  ∀ s : State, exec .nop s = .next (s.answered [] 0)

/-- R211: STATUS_READ v, with v from 0 to 8 as its table numbers the views, responds with view v and changes
nothing. -/
def Obligations.StatusReadShowsTheView : Prop :=
  ∀ (s : State) (v : View), s.Inv →
    (encode (.statusRead v)).toNat = 0x0F * 2 ^ 56 +
      (match v with
        | .status => 0
        | .params => 1
        | .encNsym => 2
        | .encNbits => 3
        | .decNbits => 4
        | .decNsym => 5
        | .lastErr => 6
        | .traversal => 7
        | .pkBuf => 8) ∧
    exec (.statusRead v) s = .next (s.answered []
      (match v with
        | .status => s.treeValid.toNat + s.encOpen.toNat * 2 + s.decOpen.toNat * 2 ^ 2 +
            s.lastErr.code.bits.toNat * 2 ^ 8 + s.nleaves * 2 ^ 16 + s.root * 2 ^ 33
        | .params => s.params.symW + s.params.cntW * 2 ^ 8 + s.params.posW * 2 ^ 16 + 32 * 2 ^ 24
        | .encNsym => s.encNsym
        | .encNbits => s.encNbits
        | .decNbits => s.decNbits
        | .decNsym => s.decNsym
        | .lastErr => s.lastErr.op.toNat * 2 ^ 48 + s.lastErr.sym.toNat * 2 ^ 32 + s.lastErr.pos.toNat
        | .traversal => s.pkCnt.val + s.decCur * 2 ^ 8
        | .pkBuf => s.pkBuf.toNat))

/-! ### Frequency analyzer -/

/-- R101: FREQ_CLEAR makes every count 0 and changes nothing else. -/
def Obligations.FreqClearEmptiesTheTable : Prop :=
  encode .freqClear = 0x0100000000000000 ∧
  ∀ s : State, ∃ t, exec .freqClear s = .next t ∧ (∀ sym, t.count sym = 0) ∧
    t = ({ s with freq := t.freq } : State).answered [] 0

/-- R102: FREQ_COUNT s counts one occurrence, or raises E_COUNT_OVERFLOW when the count is at its maximum; no
other count and no other item changes. -/
def Obligations.FreqCountAddsOneOrOverflows : Prop :=
  ∀ (s : State) (sym : Nat), s.Inv → sym < s.params.nsym →
    (encode (.freqCount sym)).toNat = 0x02 * 2 ^ 56 + sym * 2 ^ 32 ∧
    if s.count sym = 2 ^ s.params.cntW - 1 then
      exec (.freqCount sym) s = .next (s.errored .countOverflow 0x02 (BitVec.ofNat 16 sym) 0)
    else
      ∃ t, exec (.freqCount sym) s = .next t ∧
        (∀ i, t.count i = if i = sym then s.count sym + 1 else s.count i) ∧
        t = ({ s with freq := t.freq } : State).answered [] (s.count sym + 1)

/-- R103: FREQ_SET s, c loads the count of symbol s; no other count and no other item changes. -/
def Obligations.FreqSetLoadsTheCount : Prop :=
  ∀ (s : State) (sym cnt : Nat), s.params.legal → sym < s.params.nsym → cnt < 2 ^ s.params.cntW →
    (encode (.freqSet sym cnt)).toNat = 0x03 * 2 ^ 56 + sym * 2 ^ 32 + cnt ∧
    ∃ t, exec (.freqSet sym cnt) s = .next t ∧ (∀ i, t.count i = if i = sym then cnt else s.count i) ∧
      t = ({ s with freq := t.freq } : State).answered [] 0

/-- R104: FREQ_READ s responds with the count of symbol s and changes nothing. -/
def Obligations.FreqReadRespondsWithTheCount : Prop :=
  ∀ (s : State) (sym : Nat), s.params.legal → sym < s.params.nsym →
    (encode (.freqRead sym)).toNat = 0x04 * 2 ^ 56 + sym * 2 ^ 32 ∧
    exec (.freqRead sym) s = .next (s.answered [] (s.count sym))

/-- R105: only FREQ_SET and FREQ_CLEAR lower a count, and no count passes 2^CNT_W - 1. -/
def Obligations.CountsNeverWrap : Prop :=
  ∀ (s t : State) (i : Instr) (sym : Nat), s.Inv → i.wellFormed s.params = true → exec i s = .next t →
    t.count sym ≤ 2 ^ s.params.cntW - 1 ∧
      (t.count sym < s.count sym → i = .freqClear ∨ ∃ c, i = .freqSet sym c)

/-- R100: FREQ_CLEAR and one FREQ_COUNT for each symbol of `t`, in any order, leave each symbol's number of
occurrences in `t` as its count, provided none passes 2^CNT_W - 1. -/
def Obligations.AnalyzeCountsOccurrences : Prop :=
  ∀ (s : State) (t t' : List Nat), s.params.legal → t'.Perm t → (∀ sym ∈ t, sym < s.params.nsym) →
    (∀ sym, t.count sym ≤ 2 ^ s.params.cntW - 1) →
    ∃ u, execAll (pseudoAnalyze t') s = .next u ∧ ∀ sym, u.count sym = t.count sym

/-! ### Tree builder -/

/-- R121: BUILD is refused while a message is open, and changes nothing but LAST_ERR. -/
def Obligations.BuildIsRefusedInsideAMessage : Prop :=
  ∀ s : State, s.encOpen = true ∨ s.decOpen = true → exec .build s = .next (s.errored .sequence 0x08 0 0)

/-- R126: BUILD with every count 0 raises E_EMPTY_ALPHABET and clears the tree and the code table. -/
def Obligations.BuildOfAnEmptyAlphabetFails : Prop :=
  ∀ s : State, s.encOpen = false → s.decOpen = false → (∀ sym, sym < s.params.nsym → s.count sym = 0) →
    ∃ t, exec .build s = .next t ∧ (∀ i, t.nodeAt i = .empty ∧ t.codeAt i = ⟨false, []⟩) ∧
      t = ({ s with node := t.node, code := t.code, treeValid := false, root := 0, nleaves := 0 } : State).errored
        .emptyAlphabet 0x08 0 0

/-- R120: a successful BUILD sets TREE_VALID, makes NLEAVES the size of the alphabet, responds with ROOT and NLEAVES,
and changes nothing outside the tree and the code table. What NODE, ROOT and CODE hold is said by the
statements that follow. -/
def Obligations.BuildCompletes : Prop :=
  encode .build = 0x0800000000000000 ∧
  ∀ s : State, Buildable s → ∃ t, exec .build s = .next t ∧
    t.nleaves = ((List.range s.params.nsym).filter fun sym => s.count sym != 0).length ∧
    t = ({ s with node := t.node, root := t.root, nleaves := t.nleaves, treeValid := true, code := t.code } :
      State).answered [] (t.root * 2 ^ 24 + t.nleaves)

/-- R122, R24: BUILD makes the leaf of every symbol with a nonzero count, weighing its count, at the symbol's own
index, and no node at another symbol's. -/
def Obligations.BuildPlantsTheLeaves : Prop :=
  ∀ s t : State, Buildable s → exec .build s = .next t → ∀ sym, sym < s.params.nsym →
    t.nodeAt sym = if s.count sym = 0 then .empty else .leaf (s.count sym)

/-- R123, R124: merge k makes NODE[NSYM + k], weighing what its children weigh; its children were
two of the trees that were there (the nodes created before it that had no parent yet); of these trees LEFT is the
least and RIGHT the next, by weight and among equal weights by creation: leaves in symbol order, then merged
trees in merge order. -/
def Obligations.BuildMergesTheTwoLeast : Prop :=
  ∀ s t : State, Buildable s → exec .build s = .next t → ∀ k, k + 1 < t.nleaves →
    (∃ l r, t.nodeAt (s.params.nsym + k) = .internal ((t.nodeAt l).weight + (t.nodeAt r).weight) l r) ∧
      MergedLeast t.nodeAt (s.params.nsym + k)

/-- R127: with L leaves there are exactly L - 1 internal nodes, NODE[NSYM .. NSYM + L - 2]; for L >= 2 ROOT is the
last; every child is non-EMPTY and was created before its parent; no leaf lies deeper than L - 1 <= MAXCODE
(a codeword is the path to its leaf); nothing is written past NNODE - 1. -/
def Obligations.BuildShapeOfTheTree : Prop :=
  ∀ s t : State, Buildable s → exec .build s = .next t →
    (∀ i, (t.nodeAt i).isInternal ↔ s.params.nsym ≤ i ∧ i < s.params.nsym + t.nleaves - 1) ∧
    (2 ≤ t.nleaves → t.root = s.params.nsym + t.nleaves - 2) ∧
    (∀ i b, (t.nodeAt i).isInternal → t.nodeAt ((t.nodeAt i).child b) ≠ .empty ∧ (t.nodeAt i).child b < i) ∧
    (∀ bits sym, descend t.node bits t.root = some sym → (t.nodeAt sym).isLeaf = true → bits.length ≤ t.nleaves - 1) ∧
    t.nleaves - 1 ≤ s.params.maxCode ∧
    ∀ i, t.nodeAt i ≠ .empty → i < s.params.nnode

/-- R128: a leaf weighs its count, an internal node what its children weigh together, ROOT the sum of FREQ over the
alphabet; no weight is more than that sum, which never reaches 2^WGT_W. -/
def Obligations.BuildWeightsAreExact : Prop :=
  ∀ s t : State, Buildable s → exec .build s = .next t →
    (∀ i w, t.nodeAt i = .leaf w → w = s.count i) ∧
    (∀ i w l r, t.nodeAt i = .internal w l r → w = (t.nodeAt l).weight + (t.nodeAt r).weight) ∧
    (t.nodeAt t.root).weight = ((List.range s.params.nsym).map s.count).sum ∧
    (∀ i, (t.nodeAt i).weight ≤ ((List.range s.params.nsym).map s.count).sum) ∧
    ((List.range s.params.nsym).map s.count).sum ≤ s.params.nsym * (2 ^ s.params.cntW - 1) ∧
    s.params.nsym * (2 ^ s.params.cntW - 1) < 2 ^ s.params.wgtW

/-- R125, R141: with one distinct symbol, ROOT is that leaf, there is no internal node, and the code is "0". -/
def Obligations.BuildOfOneSymbol : Prop :=
  ∀ (s : State) (sym : Nat), s.encOpen = false → s.decOpen = false → sym < s.params.nsym → s.count sym ≠ 0 →
    (∀ i, i < s.params.nsym → i ≠ sym → s.count i = 0) →
    ∃ t, exec .build s = .next t ∧ t.root = sym ∧ t.nleaves = 1 ∧ (t.nodeAt sym).isLeaf = true ∧
      (∀ i, i ≠ sym → t.nodeAt i = .empty) ∧ t.codeAt sym = ⟨true, [false]⟩ ∧ ∀ i, i ≠ sym → t.codeAt i = ⟨false, []⟩

/-- R140, R143: with at least two symbols, the codeword of a symbol is the path from ROOT to its leaf, 0 to LEFT and
1 to RIGHT, and the path is the only one; a symbol without a leaf has no codeword. -/
def Obligations.BuildCodesAreThePaths : Prop :=
  ∀ s t : State, Buildable s → exec .build s = .next t → 2 ≤ t.nleaves → ∀ sym,
    if (t.nodeAt sym).isLeaf then
      (t.codeAt sym).valid = true ∧ ∀ bits, descend t.node bits t.root = some sym ↔ bits = (t.codeAt sym).bits
    else t.codeAt sym = ⟨false, []⟩

/-- R130: NODE, ROOT, NLEAVES, TREE_VALID and CODE after BUILD are a function of FREQ alone. -/
def Obligations.BuildDependsOnFreqAlone : Prop :=
  ∀ s₁ s₂ t₁ t₂ : State, s₁.params = s₂.params → (∀ sym, s₁.count sym = s₂.count sym) →
    s₁.busy = false → s₂.busy = false → exec .build s₁ = .next t₁ → exec .build s₂ = .next t₂ →
    t₁.node = t₂.node ∧ t₁.root = t₂.root ∧ t₁.nleaves = t₂.nleaves ∧ t₁.treeValid = t₂.treeValid ∧ t₁.code = t₂.code

/-- R142: after BUILD the symbols with a codeword are those with a nonzero count, every LEN is in 1..MAXCODE, and no
codeword is a prefix of another symbol's. -/
def Obligations.BuildCodeIsPrefixFree : Prop :=
  ∀ s t : State, Buildable s → exec .build s = .next t →
    (∀ sym, sym < s.params.nsym → ((t.codeAt sym).valid = true ↔ s.count sym ≠ 0)) ∧
    (∀ sym, (t.codeAt sym).valid = true → 1 ≤ (t.codeAt sym).len ∧ (t.codeAt sym).len ≤ s.params.maxCode) ∧
    ∀ a b, (t.codeAt a).valid = true → (t.codeAt b).valid = true → a ≠ b → ¬ (t.codeAt a).bits <+: (t.codeAt b).bits

/-- R129: the weighted length of the code is the least over all prefix-free codes that give every symbol of the
alphabet a nonempty codeword. -/
def Obligations.BuildCodeIsOptimal : Prop :=
  ∀ s t : State, Buildable s → exec .build s = .next t → ∀ c : Nat → Bits,
    (∀ a, a < s.params.nsym → s.count a ≠ 0 → c a ≠ []) →
    (∀ a b, a < s.params.nsym → b < s.params.nsym → s.count a ≠ 0 → s.count b ≠ 0 → a ≠ b → ¬ c a <+: c b) →
    ((List.range s.params.nsym).map fun a => s.count a * (t.codeAt a).len).sum ≤
      ((List.range s.params.nsym).map fun a => s.count a * (c a).length).sum

/-- R132: NODE_READ i, sel responds with the node's RIGHT, LEFT and KIND, or with its WEIGHT, and changes nothing. -/
def Obligations.NodeReadRespondsWithTheNode : Prop :=
  ∀ (s : State) (i : Nat), s.Inv → i < s.params.nnode →
    (encode (.nodeRead i .shape)).toNat = 0x09 * 2 ^ 56 + i ∧
    (encode (.nodeRead i .weight)).toNat = 0x09 * 2 ^ 56 + 1 * 2 ^ 48 + i ∧
    exec (.nodeRead i .shape) s = .next (s.answered []
      ((s.nodeAt i).right * 2 ^ 25 + (s.nodeAt i).left * 2 ^ 8 +
        (match s.nodeAt i with | .empty => 0 | .leaf _ => 1 | .internal _ _ _ => 2))) ∧
    exec (.nodeRead i .weight) s = .next (s.answered [] (s.nodeAt i).weight)

/-- R144, R56: CODE_READ s, k responds with VALID at bit 55, LEN at 47:32 and chunk k of the codeword, MSB-first and
zero past its end, and changes nothing. An invalid entry reads 0, and with no tree every entry is invalid. -/
def Obligations.CodeReadRespondsWithTheChunk : Prop :=
  ∀ (s : State) (sym k : Nat), s.Inv → sym < s.params.nsym → k < 2 ^ 32 →
    (encode (.codeRead sym k)).toNat = 0x0A * 2 ^ 56 + sym * 2 ^ 32 + k ∧
    ∃ d : Nat, exec (.codeRead sym k) s = .next (s.answered [] d) ∧ d < 2 ^ 56 ∧
      d.testBit 55 = (s.codeAt sym).valid ∧ (∀ j, 48 ≤ j → j ≤ 54 → d.testBit j = false) ∧
      d / 2 ^ 32 % 2 ^ 16 = (s.codeAt sym).len ∧
      (∀ j, j < 32 → d.testBit (31 - j) = (s.codeAt sym).bits.getD (32 * k + j) false) ∧
      ((s.codeAt sym).valid = false → d = 0) ∧ (s.treeValid = false → (s.codeAt sym).valid = false)

/-! ### Encoder and packer -/

/-- R161: ENC_START opens a message with its counters and the packer at 0, or raises E_SEQUENCE. -/
def Obligations.EncStartOpensAMessage : Prop :=
  encode .encStart = 0x1000000000000000 ∧
  ∀ s : State, exec .encStart s = .next
    (if s.encOpen then s.errored .sequence 0x10 0 0
     else ({ s with encOpen := true, encNsym := 0, encNbits := 0, pkBuf := 0, pkCnt := 0 } : State).answered [] 0)

/-- R162, with R160, R168, R169: ENC_SYM s. Packing appends the codeword's bits to the pending ones; as soon as 32 are
there they go out as a record with LAST = 0, and the rest stays in the packer, MSB-first over zeros. -/
def Obligations.EncSymPacksTheCodeword : Prop :=
  ∀ (s : State) (sym : Nat), s.Inv → sym < s.params.nsym →
    (encode (.encSym sym)).toNat = 0x11 * 2 ^ 56 + sym * 2 ^ 32 ∧
    if s.encOpen = false then
      exec (.encSym sym) s = .next (s.errored .sequence 0x11 (BitVec.ofNat 16 sym) 0)
    else if (s.codeAt sym).valid = false then
      exec (.encSym sym) s = .next (({ s with encOpen := false, pkBuf := 0, pkCnt := 0 } : State).errored
        .unknownSymbol 0x11 (BitVec.ofNat 16 sym) (BitVec.ofNat 32 s.encNsym))
    else if s.encNbits + (s.codeAt sym).len > 2 ^ s.params.posW - 1 then
      exec (.encSym sym) s = .next (({ s with encOpen := false, pkBuf := 0, pkCnt := 0 } : State).errored
        .length 0x11 (BitVec.ofNat 16 sym) (BitVec.ofNat 32 s.encNsym))
    else
      ∃ (t : State) (rs : List BsRecord), exec (.encSym sym) s = .next t ∧
        (∀ r ∈ rs, r.nbits = 32 ∧ r.last = false) ∧
        rs.flatMap BsRecord.bits ++ t.pending = s.pending ++ (s.codeAt sym).bits ∧
        (∀ j, j + t.pkCnt.val < 32 → t.pkBuf.getLsbD j = false) ∧
        t = ({ s with pkBuf := t.pkBuf, pkCnt := t.pkCnt, encNbits := s.encNbits + (s.codeAt sym).len,
                      encNsym := s.encNsym + 1 } : State).answered (rs.map .bs)
              ((s.codeAt sym).len * 2 ^ 32 + (s.encNbits + (s.codeAt sym).len))

/-- R163, R165, R166: ENC_END emits what the packer holds as the LAST = 1 record, closes the message and responds with
its length, or raises E_SEQUENCE and emits nothing. The packer holds ENC_NBITS mod 32 bits, over zeros. -/
def Obligations.EncEndFlushesThePacker : Prop :=
  encode .encEnd = 0x1200000000000000 ∧
  (∀ s : State, exec .encEnd s = .next
    (if s.encOpen = false then s.errored .sequence 0x12 0 0
     else ({ s with pkBuf := 0, pkCnt := 0, encOpen := false } : State).answered
       [.bs ⟨s.pkBuf, s.pkCnt.val, true⟩] s.encNbits)) ∧
  ∀ s : State, s.Inv → s.encOpen = true →
    s.pkCnt.val = s.encNbits % 32 ∧ (∀ j, j < 32 - s.pkCnt.val → s.pkBuf.getLsbD j = false) ∧
      (s.encNbits % 32 = 0 → s.pkBuf = 0)

/-- R172: the empty message emits the record (0, 0, 1) and responds 0, with or without a tree. -/
def Obligations.EmptyMessageEncodesToNothing : Prop :=
  ∀ s : State, s.encOpen = false → execAll [.encStart, .encEnd] s = .next
    { s with encNsym := 0, encNbits := 0, pkBuf := 0, pkCnt := 0,
             outputs := s.outputs ++ [.rsp 0, .bs ⟨0, 0, true⟩, .rsp 0] }

/-- R164, R170: a message that ends with ENC_END puts out floor(n / 32) full records and one LAST = 1 record with
n mod 32 bits, whose valid bits, in order, are the codewords of its symbols; ENC_END responds with n. -/
def Obligations.EncodedMessageIsTheCodewords : Prop :=
  ∀ (s : State) (t : List Nat), s.Inv → s.encOpen = false → (∀ c ∈ t, (s.codeAt c).valid = true) →
    (t.flatMap fun c => (s.codeAt c).bits).length ≤ 2 ^ s.params.posW - 1 →
    ∃ (u : State) (os : List Output) (rs : List BsRecord) (last : BsRecord),
      execAll (pseudoEncode t) s = .next u ∧
      u.outputs = s.outputs ++ os ++ [.rsp (0x00#8 ++ BitVec.ofNat 56 (t.flatMap fun c => (s.codeAt c).bits).length)] ∧
      bsRecords os = rs ++ [last] ∧
      (∀ r ∈ rs, r.nbits = 32 ∧ r.last = false) ∧ last.last = true ∧
      rs.length = (t.flatMap fun c => (s.codeAt c).bits).length / 32 ∧
      last.nbits = (t.flatMap fun c => (s.codeAt c).bits).length % 32 ∧
      (rs ++ [last]).flatMap BsRecord.bits = t.flatMap fun c => (s.codeAt c).bits

/-! ### Decoder -/

/-- R191: DEC_START opens a message at ROOT with its counters at 0, or raises E_SEQUENCE. -/
def Obligations.DecStartOpensAMessage : Prop :=
  encode .decStart = 0x1800000000000000 ∧
  ∀ s : State, exec .decStart s = .next
    (if s.decOpen then s.errored .sequence 0x18 0 0
     else ({ s with decOpen := true, decCur := s.root, decNbits := 0, decNsym := 0 } : State).answered [] 0)

/-- R192, R198, R199: when DEC_BITS consumes nothing: no open message, no tree, or no room for its bits. The last two
abort the message. -/
def Obligations.DecBitsRefusals : Prop :=
  ∀ (s : State) (n : Nat) (v : Word32), 1 ≤ n → n ≤ 32 →
    (encode (.decBits n v)).toNat = 0x19 * 2 ^ 56 + n * 2 ^ 48 + v.toNat ∧
    (s.decOpen = false → exec (.decBits n v) s = .next (s.errored .sequence 0x19 0 v)) ∧
    (s.decOpen = true → s.treeValid = false → exec (.decBits n v) s =
      .next (({ s with decOpen := false } : State).errored .noTree 0x19 0 (BitVec.ofNat 32 s.decNbits))) ∧
    (s.decOpen = true → s.treeValid = true → s.decNbits + n > 2 ^ s.params.posW - 1 → exec (.decBits n v) s =
      .next (({ s with decOpen := false } : State).errored .length 0x19 0 (BitVec.ofNat 32 s.decNbits)))

/-- R193, R190, R55: under an internal ROOT, with `p` the part of a codeword consumed before, the n bits taken from
the top of v complete the codewords of the symbols emitted, in order, and leave DEC_CUR inside the next one,
or at ROOT. -/
def Obligations.DecBitsTraversesTheTree : Prop :=
  ∀ (s : State) (n : Nat) (v : Word32) (p : Bits), s.Inv → s.decOpen = true → s.treeValid = true →
    (s.nodeAt s.root).isInternal → 1 ≤ n → n ≤ 32 → s.decNbits + n ≤ 2 ^ s.params.posW - 1 →
    descend s.node p s.root = some s.decCur →
    ∃ (syms : List Nat) (rest : Bits) (m : Nat),
      p ++ (List.range n).map (fun j => v.getLsbD (31 - j)) = syms.flatMap (fun c => (s.codeAt c).bits) ++ rest ∧
      (∀ c ∈ syms, (s.codeAt c).valid = true) ∧
      descend s.node rest s.root = some m ∧ (s.nodeAt m).isInternal ∧
      exec (.decBits n v) s = .next
        (({ s with decCur := m, decNbits := s.decNbits + n, decNsym := s.decNsym + syms.length } : State).answered
          (syms.map fun c => .sym (BitVec.ofNat 16 c)) syms.length)

/-- R194: under a one-leaf tree each 0 bit emits ROOT's symbol; a 1 bit raises E_MALFORMED_BITSTREAM at its position in
the message and aborts it, and the symbols before it stay emitted. -/
def Obligations.DecBitsUnderAOneLeafTree : Prop :=
  ∀ (s : State) (n : Nat) (v : Word32), s.Inv → s.decOpen = true → s.treeValid = true →
    (s.nodeAt s.root).isLeaf = true → 1 ≤ n → n ≤ 32 → s.decNbits + n ≤ 2 ^ s.params.posW - 1 →
    ((∀ j, j < n → v.getLsbD (31 - j) = false) → exec (.decBits n v) s = .next
      (({ s with decNbits := s.decNbits + n, decNsym := s.decNsym + n } : State).answered
        (List.replicate n (.sym (BitVec.ofNat 16 s.root))) n)) ∧
    ∀ j, j < n → (∀ i, i < j → v.getLsbD (31 - i) = false) → v.getLsbD (31 - j) = true →
      exec (.decBits n v) s = .next
        (({ s with decOpen := false, decNbits := s.decNbits + j, decNsym := s.decNsym + j,
                   outputs := s.outputs ++ List.replicate j (.sym (BitVec.ofNat 16 s.root)) } : State).errored
          .malformedBitstream 0x19 0 (BitVec.ofNat 32 (s.decNbits + j)))

/-- R195, R197: DEC_END closes the message; it responds with the symbols decoded, or raises E_MALFORMED_BITSTREAM
when the bits ended inside a codeword, which never happens under a one-leaf tree. An empty message succeeds with
data 0, with or without a tree. -/
def Obligations.DecEndChecksTheBoundary : Prop :=
  encode .decEnd = 0x1A00000000000000 ∧
  (∀ s : State, exec .decEnd s = .next
    (if s.decOpen = false then s.errored .sequence 0x1A 0 0
     else if s.decCur ≠ s.root then
       ({ s with decOpen := false } : State).errored .malformedBitstream 0x1A 0 (BitVec.ofNat 32 s.decNbits)
     else ({ s with decOpen := false } : State).answered [] s.decNsym)) ∧
  (∀ s : State, s.Inv → s.decOpen = true → (s.nodeAt s.root).isLeaf = true → s.decCur = s.root) ∧
  ∀ s : State, s.decOpen = false → execAll [.decStart, .decEnd] s = .next
    { s with decCur := s.root, decNbits := 0, decNsym := 0, outputs := s.outputs ++ [.rsp 0, .rsp 0] }

/-- R200: the symbols of a decode message that ends well are the unique split of its bits into codewords, and
DEC_END responds with their number. -/
def Obligations.DecodedMessageIsTheUniqueSplit : Prop :=
  ∀ (s u : State) (cmds : List (Nat × Word32)) (d : Data56) (os : List Output), s.Inv → s.treeValid = true →
    s.decOpen = false → (∀ c ∈ cmds, 1 ≤ c.1 ∧ c.1 ≤ 32) →
    execAll (.decStart :: cmds.map (fun c => .decBits c.1 c.2) ++ [.decEnd]) s = .next u →
    u.outputs = s.outputs ++ os ++ [.rsp (0x00#8 ++ d)] →
    cmds.flatMap (fun c => msbBits c.1 c.2) = (symRecords os).flatMap (fun c => (s.codeAt c).bits) ∧
      d = BitVec.ofNat 56 (symRecords os).length ∧
      ∀ syms : List Nat, (∀ c ∈ syms, (s.codeAt c).valid = true) →
        cmds.flatMap (fun c => msbBits c.1 c.2) = syms.flatMap (fun c => (s.codeAt c).bits) → syms = symRecords os

/-- R171: the round trip. Under any present tree, encode any symbols that have codewords; feed the valid bits of the
records, in any pieces of 1 to 32, to a decode message: the symbol records are exactly those symbols, and
DEC_END succeeds with their number. -/
def Obligations.DecodeOfEncodeIsTheMessage : Prop :=
  ∀ (s u : State) (t : List Nat) (os : List Output) (cmds : List (Nat × Word32)), s.Inv → s.treeValid = true →
    s.encOpen = false → s.decOpen = false → (∀ c ∈ t, (s.codeAt c).valid = true) →
    (t.flatMap fun c => (s.codeAt c).bits).length ≤ 2 ^ s.params.posW - 1 →
    execAll (pseudoEncode t) s = .next u → u.outputs = s.outputs ++ os →
    (∀ c ∈ cmds, 1 ≤ c.1 ∧ c.1 ≤ 32) →
    cmds.flatMap (fun c => msbBits c.1 c.2) = (bsRecords os).flatMap BsRecord.bits →
    ∃ (v : State) (os' : List Output),
      execAll (.decStart :: cmds.map (fun c => .decBits c.1 c.2) ++ [.decEnd]) u = .next v ∧
      v.outputs = u.outputs ++ os' ++ [.rsp (0x00#8 ++ BitVec.ofNat 56 t.length)] ∧ symRecords os' = t

/-! ### Whole-machine rules -/

/-- R51, R65, R22: what each command may write. Only FREQ_CLEAR, FREQ_COUNT and FREQ_SET write FREQ, the last two one
entry of it; only BUILD writes NODE, ROOT, NLEAVES, TREE_VALID and CODE; no command writes the parameters. -/
def Obligations.OnlyTheirCommandsWriteTheTables : Prop :=
  ∀ (i : Instr) (s t : State), exec i s = .next t →
    t.params = s.params ∧
    (i ≠ .build → t.node = s.node ∧ t.root = s.root ∧ t.nleaves = s.nleaves ∧ t.treeValid = s.treeValid ∧ t.code = s.code) ∧
    ((i ≠ .freqClear ∧ (∀ sym, i ≠ .freqCount sym) ∧ ∀ sym c, i ≠ .freqSet sym c) → t.freq = s.freq) ∧
    ∀ sym, ((i = .freqCount sym ∨ ∃ c, i = .freqSet sym c) → ∀ j, j ≠ sym → t.count j = s.count j)

/-- R236, D39: the two directions are independent. Only ENC_ commands write the encoder's and the packer's registers,
only DEC_ commands the decoder's; an error in one direction never changes the other's message. -/
def Obligations.DirectionsAreIndependent : Prop :=
  ∀ (i : Instr) (s t : State), exec i s = .next t →
    ((i ≠ .encStart ∧ i ≠ .encEnd ∧ ∀ sym, i ≠ .encSym sym) →
      t.encOpen = s.encOpen ∧ t.encNsym = s.encNsym ∧ t.encNbits = s.encNbits ∧ t.pkBuf = s.pkBuf ∧ t.pkCnt = s.pkCnt) ∧
    ((i ≠ .decStart ∧ i ≠ .decEnd ∧ ∀ n v, i ≠ .decBits n v) →
      t.decOpen = s.decOpen ∧ t.decCur = s.decCur ∧ t.decNbits = s.decNbits ∧ t.decNsym = s.decNsym)

/-- R236: what each error changes beyond LAST_ERR and its response. -/
def Obligations.ErrorsChangeOnlyWhatTheirRuleSays : Prop :=
  ∀ (w : Word64) (s t : State) (e : Status) (d : Data56) (os : List Output), execWord w s = .next t → e ≠ .ok →
    t.outputs = os ++ [.rsp (e.bits ++ d)] →
    match e with
    | .ok => False
    | .illegalCmd => t = { s with lastErr := t.lastErr, outputs := t.outputs }
    | .sequence => t = { s with lastErr := t.lastErr, outputs := t.outputs }
    | .countOverflow => t = { s with lastErr := t.lastErr, outputs := t.outputs }
    | .emptyAlphabet => t = { s with node := [], code := [], treeValid := false, root := 0, nleaves := 0,
                                     lastErr := t.lastErr, outputs := t.outputs }
    | .unknownSymbol => t = { s with encOpen := false, pkBuf := 0, pkCnt := 0, lastErr := t.lastErr, outputs := t.outputs }
    | .noTree => t = { s with decOpen := false, lastErr := t.lastErr, outputs := t.outputs }
    | .length =>
      (opField w = 0x11 ∧
        t = { s with encOpen := false, pkBuf := 0, pkCnt := 0, lastErr := t.lastErr, outputs := t.outputs }) ∨
      (opField w = 0x19 ∧ t = { s with decOpen := false, lastErr := t.lastErr, outputs := t.outputs })
    | .malformedBitstream =>
      (opField w = 0x1A ∧ t = { s with decOpen := false, lastErr := t.lastErr, outputs := t.outputs }) ∨
      (opField w = 0x19 ∧ (s.nodeAt s.root).isLeaf = true ∧
        t = { s with decOpen := false, decNbits := t.decNbits, decNsym := t.decNsym, lastErr := t.lastErr, outputs := t.outputs })

/-- R59: the read commands and NOP have no side effects and are idempotent: repeating one gives the same response and
the same state. -/
def Obligations.ReadsAreIdempotent : Prop :=
  ∀ (i : Instr) (s : State),
    (i = .nop ∨ (∃ sym, i = .freqRead sym) ∨ (∃ idx sel, i = .nodeRead idx sel) ∨ (∃ sym k, i = .codeRead sym k) ∨
      ∃ v, i = .statusRead v) →
    ∃ r : Output, exec i s = .next { s with outputs := s.outputs ++ [r] } ∧
      exec i { s with outputs := s.outputs ++ [r] } = .next { s with outputs := s.outputs ++ [r] ++ [r] }

/-- R66: the tree and the code table never change inside a message. -/
def Obligations.TreeIsFixedInsideAMessage : Prop :=
  ∀ (i : Instr) (s t : State), s.encOpen = true ∨ s.decOpen = true → exec i s = .next t →
    t.node = s.node ∧ t.root = s.root ∧ t.nleaves = s.nleaves ∧ t.treeValid = s.treeValid ∧ t.code = s.code

/-! ### Ports -/

/-- R61, R261: at every clock edge the host has received, in order, exactly what the command-level machine has put
out, less what is still offered; a reset withdraws what is offered. The block never stops.
That a command's outputs are all there from the edge that takes it is the model's choice (log entry 7). -/
def Obligations.PortsDeliverTheOutputsInOrder : Prop :=
  (∀ p : Params, (Port.start p).Ordered) ∧
  ∀ (q : Port) (i : PortIn), q.Ordered → ∃ r, q.clock i = .next r ∧ r.Ordered

/-- R10, R58, R61, R83: cmd_ready is raised only when the last command's response has been transferred; a command word
that is taken then runs as one atomic command-level command. That its effect is in place from the edge that takes
the word, and that no other edge but a reset changes the command-level state, is the model's choice (log entry
7, DESIGN CHOICE). -/
def Obligations.CommandsRunOneAtATime : Prop :=
  ∀ (q r : Port) (i : PortIn), q.clock i = .next r → i.rst = false →
    ((q.out i.rst).cmdReady = true → q.offered = []) ∧
    (∀ w, (q.out i.rst).cmdReady = true → i.cmd = some w → execWord w q.block = .next r.block) ∧
    (((q.out i.rst).cmdReady = false ∨ i.cmd = none) → r.block = q.block)

/-- R83: at an edge where a channel offers a record or a response and the host is ready on it, the host receives
exactly what is offered; where the host is not ready, the channel keeps it, unchanged. The host receives nothing
else. -/
def Obligations.OffersAreHeldUntilTaken : Prop :=
  ∀ (q r : Port) (i : PortIn), q.clock i = .next r → i.rst = false →
    (∀ x, (q.out false).bs = some x →
      if i.bsReady then r.taken = q.taken ++ [.bs x] else (r.out false).bs = some x ∧ r.taken = q.taken) ∧
    (∀ x, (q.out false).sy = some x →
      if i.syReady then r.taken = q.taken ++ [.sym x] else (r.out false).sy = some x ∧ r.taken = q.taken) ∧
    (∀ x, (q.out false).rsp = some x →
      if i.rspReady then r.taken = q.taken ++ [.rsp x] else (r.out false).rsp = some x ∧ r.taken = q.taken) ∧
    ((q.out false).bs = none → (q.out false).sy = none → (q.out false).rsp = none → r.taken = q.taken)

/-- R267, R61: a host that takes no bitstream record while one is to come is never offered the response, however long
it waits, and cmd_ready stays 0 (R83). That no edge of this wait changes the command-level state is the model's
choice (log entry 7, DESIGN CHOICE). -/
def Obligations.NonDrainingHostGetsNoResponse : Prop :=
  ∀ (q r : Port) (x : BsRecord) (rest : List Output) (is : List PortIn), q.offered = .bs x :: rest →
    (∀ i ∈ is, i.rst = false ∧ i.bsReady = false) → Port.clockAll is q = .next r →
    (r.out false).rsp = none ∧ (r.out false).cmdReady = false ∧ r.block = q.block

/-- R261, R260: during reset nothing is offered and no command is taken; after it the block is at its reset values and
what was offered is gone, received by nobody. -/
def Obligations.ResetWithdrawsWhatIsOffered : Prop :=
  ∀ (q : Port) (i : PortIn), i.rst = true →
    q.out i.rst = ⟨false, none, none, none⟩ ∧
    ∃ r, q.clock i = .next r ∧ r.offered = [] ∧ r.taken = q.taken ∧
      r.block = { State.resetWith q.block.params with inputs := q.block.inputs, outputs := q.taken }

/-! ### Text forms -/

/-- R80: the line of each command spells the command's word. A symbol operand is an integer or a quoted character
that means its ASCII code (R6; log entry 11, PRESUMED as the spec itself marks it). -/
def Obligations.AssembledLinesAreTheCommands : Prop :=
  ∀ p : Params, p.legal →
    (∀ (sym : Nat) (s : AsmOperand), sym < p.nsym →
      (s = .int sym ∨ ∃ c : Char, s = .chr c ∧ c.toNat = sym ∧ sym < 128) →
      assemble "FREQ_COUNT" [s] = some (encode (.freqCount sym)) ∧
      (∀ c, c < 2 ^ p.cntW → assemble "FREQ_SET" [s, .int c] = some (encode (.freqSet sym c))) ∧
      assemble "FREQ_READ" [s] = some (encode (.freqRead sym)) ∧
      (∀ k, k < 2 ^ 32 → assemble "CODE_READ" [s, .int k] = some (encode (.codeRead sym k))) ∧
      assemble "ENC_SYM" [s] = some (encode (.encSym sym))) ∧
    assemble "NOP" [] = some (encode .nop) ∧
    assemble "FREQ_CLEAR" [] = some (encode .freqClear) ∧
    assemble "BUILD" [] = some (encode .build) ∧
    (∀ i, i < p.nnode → assemble "NODE_READ" [.int i, .int 0] = some (encode (.nodeRead i .shape)) ∧
      assemble "NODE_READ" [.int i, .int 1] = some (encode (.nodeRead i .weight))) ∧
    (∀ v : View, assemble "STATUS_READ" [.int v.toField] = some (encode (.statusRead v))) ∧
    assemble "ENC_START" [] = some (encode .encStart) ∧
    assemble "ENC_END" [] = some (encode .encEnd) ∧
    assemble "DEC_START" [] = some (encode .decStart) ∧
    (∀ (n : Nat) (v : Word32), 1 ≤ n → n ≤ 32 → assemble "DEC_BITS" [.int n, .int v.toNat] = some (encode (.decBits n v))) ∧
    (∀ bs : Bits, 1 ≤ bs.length → bs.length ≤ 32 → ∃ v : Word32,
      assemble "DEC_BITS" [.bits bs] = some (encode (.decBits bs.length v)) ∧
        ∀ j, j < 32 → v.getLsbD (31 - j) = bs.getD j false) ∧
    assemble "DEC_END" [] = some (encode .decEnd)

/-- R81, R55: the DEC_BITS commands of DECODE "bits" are well formed and carry exactly those bits, in order. -/
def Obligations.DecodeMacroCarriesItsBits : Prop :=
  ∀ bits : Bits, ∃ cmds : List (Nat × Word32),
    pseudoDecode bits = .decStart :: cmds.map (fun c => .decBits c.1 c.2) ++ [.decEnd] ∧
    (∀ c ∈ cmds, 1 ≤ c.1 ∧ c.1 ≤ 32) ∧ cmds.flatMap (fun c => msbBits c.1 c.2) = bits
end

