-- ==== Sys2Proof/Laws/Bits.lean ====
section
/-! SUPPORT. The bit-level operations: writing one bit, MSB-first sequences and chunks, fields of a response. -/

namespace Sys2Proof.Machine

theorem setBit_getLsbD (x : Word32) (i j : Nat) (b : Bool) (hi : i < 32) :
    (setBit x i b).getLsbD j = if i = j then b else x.getLsbD j := by
  by_cases hij : i = j
  · subst hij
    cases b <;> simp [setBit, hi]
  · rcases Nat.lt_or_gt_of_ne hij with h | h
    · by_cases hj : j < 32
      · have h1 : j - i ≠ 0 := by omega
        cases b <;> simp [setBit, hij, hj, h1]
      · simp [hij, BitVec.getLsbD_of_ge _ _ (Nat.le_of_not_lt hj)]
    · have hj : j < 32 := by omega
      simp [setBit, hij, hj, show j < i by omega]

@[simp] theorem msbBits_zero (v : Word32) : msbBits 0 v = [] := rfl

@[simp] theorem msbBits_length (n : Nat) (v : Word32) : (msbBits n v).length = n := by simp [msbBits]

theorem msbBits_getElem (n : Nat) (v : Word32) (j : Nat) (h : j < (msbBits n v).length) :
    (msbBits n v)[j] = v.getLsbD (31 - j) := by simp [msbBits]

/-- Writing the next bit of a word in MSB-first order appends it (R54, R160). -/
theorem msbBits_setBit (n : Nat) (v : Word32) (b : Bool) (hn : n < 32) :
    msbBits (n + 1) (setBit v (31 - n) b) = msbBits n v ++ [b] := by
  rw [msbBits, List.range_succ, List.map_append]
  congr 1
  · refine List.map_congr_left fun j hj => ?_
    rw [setBit_getLsbD _ _ _ _ (by omega), if_neg (by have := List.mem_range.mp hj; omega)]
  · simp [setBit_getLsbD _ _ _ _ (show 31 - n < 32 by omega)]

theorem msbChunk_fold_getLsbD (bits : Bits) (k m : Nat) (hm : m ≤ 32) (j : Nat) (hj : j < 32) :
    ((List.range m).foldl
      (fun chunk j => if 32 * k + j < bits.length then setBit chunk (31 - j) (bits.getD (32 * k + j) false) else chunk)
      (0 : Word32)).getLsbD (31 - j) = (decide (j < m) && bits.getD (32 * k + j) false) := by
  induction m with
  | zero => simp
  | succ m ih =>
    rw [List.range_succ, List.foldl_append]
    simp only [List.foldl_cons, List.foldl_nil]
    by_cases hmj : m = j
    · subst hmj
      split
      · rw [setBit_getLsbD _ _ _ _ (by omega)]; simp
      next h =>
        rw [ih (by omega)]
        simp [List.getD_eq_getElem?_getD, List.getElem?_eq_none (Nat.le_of_not_lt h)]
    · have : (decide (j < m + 1)) = decide (j < m) := by
        rw [decide_eq_decide]; omega
      rw [this, ← ih (by omega)]
      split
      · rw [setBit_getLsbD _ _ _ _ (by omega), if_neg (by omega)]
      · rfl

/-- R56: sequence bit `32*k + j` is chunk bit `31 - j`; past the end the chunk is 0. -/
theorem msbChunk_getLsbD (bits : Bits) (k j : Nat) (hj : j < 32) :
    (msbChunk bits k).getLsbD (31 - j) = bits.getD (32 * k + j) false := by
  rw [msbChunk, msbChunk_fold_getLsbD bits k 32 (Nat.le_refl _) j hj]; simp [hj]

/-- The bits DEC_BITS reads from an assembled chunk are the chunk's (R80, R55). -/
theorem msbBits_msbChunk (c : Bits) (h : c.length ≤ 32) : msbBits c.length (msbChunk c 0) = c := by
  refine List.ext_getElem (by simp) fun j h1 h2 => ?_
  rw [msbBits_getElem, msbChunk_getLsbD _ _ _ (by omega)]
  simp [h2]

theorem field_toNat (lo w v : Nat) (h : lo + w ≤ 56) : (field lo w v).toNat = v % 2 ^ w * 2 ^ lo := by
  have hlt : v % 2 ^ w < 2 ^ w := Nat.mod_lt _ (Nat.two_pow_pos w)
  have hle : 2 ^ (lo + w) ≤ 2 ^ 56 := Nat.pow_le_pow_right (by omega) h
  have hw : v % 2 ^ w < 2 ^ 56 := Nat.lt_of_lt_of_le hlt (Nat.pow_le_pow_right (by omega) (by omega))
  have hm : v % 2 ^ w * 2 ^ lo < 2 ^ 56 := by
    refine Nat.lt_of_lt_of_le ?_ hle
    rw [Nat.pow_add, Nat.mul_comm]
    exact Nat.mul_lt_mul_of_pos_left hlt (Nat.two_pow_pos lo)
  simp only [field, BitVec.toNat_shiftLeft, BitVec.toNat_setWidth, BitVec.toNat_ofNat, Nat.shiftLeft_eq]
  rw [Nat.mod_eq_of_lt hw, Nat.mod_eq_of_lt hm]

theorem field_getLsbD (lo w v j : Nat) (h : lo + w ≤ 56) :
    (field lo w v).getLsbD j = (decide (lo ≤ j) && decide (j < lo + w) && v.testBit (j - lo)) := by
  by_cases hj : j < 56
  · by_cases h1 : lo ≤ j
    · by_cases h2 : j < lo + w
      · simp [field, hj, h1, h2, show ¬ j < lo by omega, show j - lo < w by omega,
          - BitVec.getLsbD_eq_getElem, BitVec.getLsbD_ofNat]
        omega
      · simp [field, hj, h1, h2, show ¬ j < lo by omega, BitVec.getLsbD_of_ge _ _ (show w ≤ j - lo by omega)]
    · simp [field, hj, h1, show j < lo by omega]
  · rw [BitVec.getLsbD_of_ge _ _ (by omega)]
    simp [show ¬ j < lo + w by omega]

/-- The field a response was given, read back. -/
theorem field_extract_self (lo w v : Nat) (h : lo + w ≤ 56) :
    (field lo w v).extractLsb' lo w = BitVec.ofNat w v := by
  ext j hj
  simp [field_getLsbD _ _ _ _ h, hj, ← BitVec.getLsbD_eq_getElem, BitVec.getLsbD_ofNat]

/-- A field elsewhere leaves these bits 0. -/
theorem field_extract_ne (lo w v lo' w' : Nat) (h : lo + w ≤ 56) (hd : lo + w ≤ lo' ∨ lo' + w' ≤ lo) :
    (field lo w v).extractLsb' lo' w' = 0 := by
  ext j hj
  simp only [BitVec.getElem_extractLsb', field_getLsbD _ _ _ _ h]
  rcases hd with hd | hd
  · simp [show ¬ lo' + j < lo + w by omega]
  · simp [show ¬ lo ≤ lo' + j by omega]

theorem extract_or (x y : Data56) (lo w : Nat) :
    (x ||| y).extractLsb' lo w = x.extractLsb' lo w ||| y.extractLsb' lo w := by
  ext j hj; simp

@[simp] theorem responseWord_status (st : Status) (d : Data56) :
    (responseWord st d).extractLsb' 56 8 = st.bits := by
  ext j hj
  have : (st.bits ++ d : BitVec (8 + 56)).getLsbD (56 + j) = st.bits.getLsbD j := by
    rw [BitVec.getLsbD_append]; simp
  simpa [responseWord, hj] using this

@[simp] theorem responseWord_data (st : Status) (d : Data56) : (responseWord st d).extractLsb' 0 56 = d := by
  ext j hj
  have : (st.bits ++ d : BitVec (8 + 56)).getLsbD j = d.getLsbD j := by
    rw [BitVec.getLsbD_append]; simp [hj]
  simpa [responseWord, hj] using this

/-- Fields laid from the highest down do not overlap, so their values add. -/
theorem or_field_toNat (x : Data56) (lo w v : Nat) (h : lo + w ≤ 56) (hx : x.toNat % 2 ^ (lo + w) = 0) :
    (x ||| field lo w v).toNat = x.toNat + v % 2 ^ w * 2 ^ lo := by
  have hlt : v % 2 ^ w * 2 ^ lo < 2 ^ (lo + w) := by
    rw [Nat.pow_add, Nat.mul_comm]
    exact Nat.mul_lt_mul_of_pos_left (Nat.mod_lt _ (Nat.two_pow_pos w)) (Nat.two_pow_pos lo)
  rw [BitVec.toNat_or, field_toNat _ _ _ h]
  obtain ⟨k, hk⟩ := Nat.dvd_of_mod_eq_zero hx
  rw [hk, Nat.two_pow_add_eq_or_of_lt hlt]

theorem responseWord_ok (d : Data56) : responseWord .ok d = BitVec.ofNat 64 d.toNat := by
  apply BitVec.eq_of_toNat_eq
  have hd := d.isLt
  have : (Status.ok.bits ++ d : BitVec (8 + 56)).toNat = d.toNat := by
    rw [BitVec.toNat_append]; simp [Status.bits]
  simp only [responseWord, BitVec.toNat_ofNat]
  rw [Nat.mod_eq_of_lt (by omega)]
  exact this

/-- An error response as its four fields (R73). -/
theorem responseWord_err (e : Status) (op : BitVec 8) (sym pos : Nat) :
    responseWord e (errData op sym pos) = e.bits ++ op ++ BitVec.ofNat 16 sym ++ BitVec.ofNat 32 pos := by
  have hd : errData op sym pos = (op ++ BitVec.ofNat 16 sym ++ BitVec.ofNat 32 pos : BitVec (8 + 16 + 32)) := by
    apply BitVec.eq_of_toNat_eq
    have ho := op.isLt
    rw [errData, or_field_toNat _ _ _ _ (by omega), or_field_toNat _ _ _ _ (by omega), field_toNat _ _ _ (by omega)]
    · rw [BitVec.toNat_append, BitVec.toNat_append, ← Nat.shiftLeft_add_eq_or_of_lt, ← Nat.shiftLeft_add_eq_or_of_lt]
      · simp only [BitVec.toNat_ofNat, Nat.shiftLeft_eq]; omega
      · exact (BitVec.ofNat 16 sym).isLt
      · exact (BitVec.ofNat 32 pos).isLt
    · rw [field_toNat _ _ _ (by omega)]; omega
    · rw [or_field_toNat _ _ _ _ (by omega), field_toNat _ _ _ (by omega)]
      · omega
      · rw [field_toNat _ _ _ (by omega)]; omega
  rw [responseWord, hd]
  apply BitVec.eq_of_toNat_eq
  have h1 : (e.bits ++ (op ++ BitVec.ofNat 16 sym ++ BitVec.ofNat 32 pos : BitVec (8 + 16 + 32)) : BitVec (8 + (8 + 16 + 32))).toNat
      = (e.bits ++ op ++ BitVec.ofNat 16 sym ++ BitVec.ofNat 32 pos : BitVec (8 + 8 + 16 + 32)).toNat := by
    simp only [BitVec.toNat_append, Nat.shiftLeft_or_distrib, ← Nat.shiftLeft_add, Nat.or_assoc]
  exact h1

theorem Status.bits_injective {a b : Status} (h : a.bits = b.bits) : a = b := by
  cases a <;> cases b <;> first | rfl | (exact absurd h (by decide))

end Sys2Proof.Machine
end

