-- ==== Sys2Proof/Laws/Table.lean ====
section
/-! SUPPORT. The laws of the index spaces: a read after a write, and that a write keeps the canonical form. -/

namespace Sys2Proof.Machine

variable {α : Type} {d : α}

@[simp] theorem Table.read_nil (i : Nat) : Table.read d [] i = d := rfl

theorem Table.read_cons (k : Nat) (x : α) (t : Table α) (i : Nat) :
    Table.read d ((k, x) :: t) i = if k = i then x else Table.read d t i := rfl

theorem Table.read_erase (t : Table α) (i j : Nat) :
    Table.read d (t.erase i) j = if i = j then d else Table.read d t j := by
  induction t with
  | nil => simp [Table.erase]
  | cons e t ih =>
    obtain ⟨k, x⟩ := e
    simp only [Table.erase] at ih
    by_cases hk : k = i
    · subst hk
      simp only [Table.erase, List.filter_cons, bne_self_eq_false, Bool.false_eq_true, if_false, ih, Table.read_cons]
      split <;> rfl
    · simp only [Table.erase, List.filter_cons, bne_iff_ne, ne_eq, hk, not_false_eq_true, if_true, Table.read_cons, ih]
      by_cases hj : k = j
      · simp [hj, show ¬ i = j by omega]
      · simp [hj]

theorem Table.read_insert (t : Table α) (i j : Nat) (v : α) (hne : ∀ e ∈ t, e.1 ≠ i) :
    Table.read d (t.insert i v) j = if i = j then v else Table.read d t j := by
  induction t with
  | nil => simp [Table.insert, Table.read_cons]
  | cons e t ih =>
    obtain ⟨k, x⟩ := e
    have hk : k ≠ i := hne (k, x) (by simp)
    have ih' := ih fun e he => hne e (by simp [he])
    simp only [Table.insert]
    split
    · simp [Table.read_cons]
    · simp only [Table.read_cons, ih']
      by_cases hj : k = j
      · simp [hj, show ¬ i = j by omega]
      · simp [hj]

theorem Table.mem_erase {t : Table α} {i : Nat} {e : Nat × α} : e ∈ t.erase i ↔ e ∈ t ∧ e.1 ≠ i := by
  simp [Table.erase]

/-- A read after a write (R50: an entry is written and read whole). -/
theorem Table.read_write [DecidableEq α] (t : Table α) (i j : Nat) (v : α) :
    Table.read d (Table.write d t i v) j = if i = j then v else Table.read d t j := by
  unfold Table.write
  split
  · subst v; exact Table.read_erase t i j
  · rw [Table.read_insert _ _ _ _ (fun e he => (Table.mem_erase.mp he).2), Table.read_erase]
    by_cases hj : i = j <;> simp [hj]

@[simp] theorem Table.read_write_self [DecidableEq α] (t : Table α) (i : Nat) (v : α) :
    Table.read d (Table.write d t i v) i = v := by simp [Table.read_write]

theorem Table.read_write_ne [DecidableEq α] (t : Table α) {i j : Nat} (v : α) (h : i ≠ j) :
    Table.read d (Table.write d t i v) j = Table.read d t j := by simp [Table.read_write, h]

theorem Table.mem_insert {t : Table α} {i : Nat} {v : α} {e : Nat × α} :
    e ∈ t.insert i v ↔ e = (i, v) ∨ e ∈ t := by
  induction t with
  | nil => simp [Table.insert]
  | cons e' t ih =>
    obtain ⟨k, x⟩ := e'
    simp only [Table.insert]
    split
    · simp
    · simp [ih]; tauto

theorem Table.pairwise_insert {t : Table α} {i : Nat} {v : α} (ht : t.Pairwise fun a b => a.1 < b.1)
    (hne : ∀ e ∈ t, e.1 ≠ i) : (t.insert i v).Pairwise fun a b => a.1 < b.1 := by
  induction t with
  | nil => simp [Table.insert]
  | cons e t ih =>
    obtain ⟨k, x⟩ := e
    have hk : k ≠ i := hne (k, x) (by simp)
    rw [List.pairwise_cons] at ht
    simp only [Table.insert]
    split
    next h =>
      refine List.pairwise_cons.mpr ⟨?_, List.pairwise_cons.mpr ht⟩
      intro e he
      rcases List.mem_cons.mp he with rfl | he
      · exact h
      · exact Nat.lt_trans h (ht.1 e he)
    next h =>
      refine List.pairwise_cons.mpr ⟨?_, ih ht.2 fun e he => hne e (by simp [he])⟩
      intro e he
      rcases Table.mem_insert.mp he with rfl | he
      · simp; omega
      · exact ht.1 e he

@[simp] theorem Table.wf_nil [DecidableEq α] (bound : Nat) : Table.wf d bound ([] : Table α) := by
  simp [Table.wf]

/-- A write within the range keeps the canonical form. -/
theorem Table.wf_write [DecidableEq α] {bound : Nat} {t : Table α} {i : Nat} {v : α} (ht : Table.wf d bound t)
    (hi : i < bound) : Table.wf d bound (Table.write d t i v) := by
  have he : Table.wf d bound (t.erase i) :=
    ⟨List.Pairwise.filter _ ht.1, fun e he => ht.2 e (Table.mem_erase.mp he).1⟩
  unfold Table.write
  split
  · exact he
  next hv =>
    refine ⟨Table.pairwise_insert he.1 fun e h => (Table.mem_erase.mp h).2, fun e h => ?_⟩
    rcases Table.mem_insert.mp h with rfl | h
    · exact ⟨hv, hi⟩
    · exact he.2 e h

/-- Past the range of a canonical table every entry reads as unlisted. -/
theorem Table.read_of_le [DecidableEq α] {bound : Nat} {t : Table α} {i : Nat} (ht : Table.wf d bound t)
    (hi : bound ≤ i) : Table.read d t i = d := by
  obtain ⟨-, h⟩ := ht
  induction t with
  | nil => rfl
  | cons e t ih =>
    obtain ⟨k, x⟩ := e
    have hk : k < bound := (h (k, x) (by simp)).2
    rw [Table.read_cons, if_neg (by omega), ih fun e he => h e (by simp [he])]

/-- Canonical tables that read alike are equal: equal contents are equal data. -/
theorem Table.ext_of_wf [DecidableEq α] {b₁ b₂ : Nat} {t₁ t₂ : Table α} (h₁ : Table.wf d b₁ t₁) (h₂ : Table.wf d b₂ t₂)
    (h : ∀ i, Table.read d t₁ i = Table.read d t₂ i) : t₁ = t₂ := by
  have low : ∀ {b : Nat} {t : Table α}, Table.wf d b t → ∀ i, (∀ e ∈ t, i < e.1) → Table.read d t i = d := by
    intro b t ht i hi
    obtain ⟨-, -⟩ := ht
    induction t with
    | nil => rfl
    | cons e t ih =>
      obtain ⟨k, x⟩ := e
      have : i < k := hi (k, x) (by simp)
      rw [Table.read_cons, if_neg (by omega), ih fun e he => hi e (by simp [he])]
  have tail : ∀ {b : Nat} {e : Nat × α} {t : Table α}, Table.wf d b (e :: t) → Table.wf d b t := by
    intro b e t ht
    exact ⟨(List.pairwise_cons.mp ht.1).2, fun e' he => ht.2 e' (by simp [he])⟩
  induction t₁ generalizing t₂ with
  | nil =>
    cases t₂ with
    | nil => rfl
    | cons e t₂ =>
      obtain ⟨k, x⟩ := e
      have := h k
      simp [Table.read_cons] at this
      exact absurd this.symm (h₂.2 (k, x) (by simp)).1
  | cons e t₁ ih =>
    obtain ⟨k, x⟩ := e
    cases t₂ with
    | nil =>
      have := h k
      simp [Table.read_cons] at this
      exact absurd this (h₁.2 (k, x) (by simp)).1
    | cons e' t₂ =>
      obtain ⟨k', x'⟩ := e'
      have p₁ := List.pairwise_cons.mp h₁.1
      have p₂ := List.pairwise_cons.mp h₂.1
      have hk : k = k' := by
        by_contra hne
        rcases Nat.lt_or_gt_of_ne hne with hlt | hlt
        · have e₁ := h k
          rw [Table.read_cons, if_pos rfl, Table.read_cons, if_neg (by omega),
            low (tail h₂) k fun e he => Nat.lt_trans hlt (p₂.1 e he)] at e₁
          exact (h₁.2 (k, x) (by simp)).1 e₁
        · have e₁ := h k'
          rw [Table.read_cons, if_neg (by omega), Table.read_cons, if_pos rfl,
            low (tail h₁) k' fun e he => Nat.lt_trans hlt (p₁.1 e he)] at e₁
          exact (h₂.2 (k', x') (by simp)).1 e₁.symm
      subst hk
      have hx := h k
      simp only [Table.read_cons, if_true] at hx
      subst hx
      congr 1
      refine ih (tail h₁) (tail h₂) fun i => ?_
      by_cases hi : k = i
      · subst hi
        rw [low (tail h₁) k fun e he => p₁.1 e he, low (tail h₂) k fun e he => p₂.1 e he]
      · simpa [Table.read_cons, hi] using h i

end Sys2Proof.Machine
end

