-- ==== Sys2Proof/Laws/Merge.lean ====
section
/-! SUPPORT. BUILD's queue and merge loop (spec/41_tree_builder.md R122 to R128): one invariant of the loop, kept
by a merge, and what it says of the finished tree. -/

namespace Sys2Proof.Machine

/-! ### The queue -/

theorem QEntry.before_iff {a b : QEntry} :
    a.before b = true ↔ a.weight < b.weight ∨ (a.weight = b.weight ∧ a.seq < b.seq) := by
  simp [QEntry.before]

theorem enqueue_perm (e : QEntry) (q : List QEntry) : (enqueue e q).Perm (e :: q) := by
  induction q with
  | nil => exact .refl _
  | cons x q ih =>
    simp only [enqueue]
    split
    · exact .refl _
    · exact (ih.cons x).trans (.swap e x q)

theorem mem_enqueue {e x : QEntry} {q : List QEntry} : x ∈ enqueue e q ↔ x = e ∨ x ∈ q := by
  rw [(enqueue_perm e q).mem_iff, List.mem_cons]

/-- Inserting an element of a new sequence number keeps the queue ascending (R123). -/
theorem enqueue_sorted {e : QEntry} {q : List QEntry} (hq : q.Pairwise fun a b => a.before b)
    (hne : ∀ x ∈ q, x.seq ≠ e.seq) : (enqueue e q).Pairwise fun a b => a.before b := by
  induction q with
  | nil => simp [enqueue]
  | cons x q ih =>
    have hx := hne x (by simp)
    rw [List.pairwise_cons] at hq
    simp only [enqueue]
    split
    next h =>
      refine List.pairwise_cons.mpr ⟨?_, List.pairwise_cons.mpr hq⟩
      intro y hy
      rcases List.mem_cons.mp hy with rfl | hy
      · exact h
      · have := hq.1 y hy
        rw [QEntry.before_iff] at *
        omega
    next h =>
      refine List.pairwise_cons.mpr ⟨?_, ih hq.2 fun y hy => hne y (by simp [hy])⟩
      intro y hy
      rcases mem_enqueue.mp hy with rfl | hy
      · rw [QEntry.before_iff] at *
        omega
      · exact hq.1 y hy

/-! ### The loop invariant -/

/-- The arena and the queue between two merges. -/
structure Forest (count : Nat → Nat) (lv : List Nat) (nsym seq newIdx : Nat) (q : List QEntry) (nodes : Table Node) :
    Prop where
  lv_lt : ∀ i ∈ lv, i < nsym
  idx_ge : nsym ≤ newIdx
  size : newIdx + q.length = nsym + lv.length
  fresh : ∀ i, newIdx ≤ i → Table.read .empty nodes i = .empty
  low : ∀ i, i < nsym → Table.read .empty nodes i = if i ∈ lv then .leaf (count i) else .empty
  mid : ∀ i, nsym ≤ i → i < newIdx → ∃ w l r, Table.read .empty nodes i = .internal w l r ∧ l < i ∧ r < i ∧
    Table.read .empty nodes l ≠ .empty ∧ Table.read .empty nodes r ≠ .empty ∧
    w = (Table.read .empty nodes l).weight + (Table.read .empty nodes r).weight
  q_node : ∀ e ∈ q, Table.read .empty nodes e.idx ≠ .empty ∧ e.weight = (Table.read .empty nodes e.idx).weight
  q_nodup : (q.map QEntry.idx).Nodup
  orphan : ∀ e ∈ q, ∀ j b, (Table.read .empty nodes j).isInternal → (Table.read .empty nodes j).child b ≠ e.idx
  parent : ∀ i, Table.read .empty nodes i ≠ .empty → i ∉ q.map QEntry.idx →
    ∃! e : Nat × Bool, (Table.read .empty nodes e.1).isInternal ∧ (Table.read .empty nodes e.1).child e.2 = i
  total : (q.map QEntry.weight).sum = (lv.map count).sum
  sorted : q.Pairwise fun a b => a.before b
  seq_lt : ∀ e ∈ q, e.seq < seq
  seq_idx : ∀ e ∈ q, ∀ e' ∈ q, e.seq < e'.seq ↔ e.idx < e'.idx
  greedy : ∀ i, nsym ≤ i → i < newIdx → MergedLeast (Table.read .empty nodes) i

theorem Node.isInternal_iff {n : Node} : n.isInternal ↔ ∃ w l r, n = .internal w l r := by
  cases n <;> simp [Node.isInternal, Node.kind]

/-- The trees that were there when node `i` was created depend on the nodes created before it alone. -/
theorem treeBefore_congr {rd rd' : Nat → Node} {i : Nat} (h : ∀ c, c < i → rd' c = rd c) (c : Nat) :
    TreeBefore rd' i c ↔ TreeBefore rd i c := by
  have hp : ParentBelow rd' i c ↔ ParentBelow rd i c :=
    exists_congr fun j => exists_congr fun b => and_congr_right fun hj => by rw [h j hj]
  rw [TreeBefore, TreeBefore, hp]
  exact and_congr_right fun hc => by rw [h c hc]

namespace Forest

variable {count : Nat → Nat} {lv : List Nat} {nsym seq newIdx : Nat} {q : List QEntry} {nodes : Table Node}

theorem lt_of_ne_empty (h : Forest count lv nsym seq newIdx q nodes) {i : Nat}
    (hi : Table.read .empty nodes i ≠ .empty) : i < newIdx := by
  by_contra hc
  exact hi (h.fresh i (by omega))

theorem internal_iff (h : Forest count lv nsym seq newIdx q nodes) (i : Nat) :
    (Table.read .empty nodes i).isInternal ↔ nsym ≤ i ∧ i < newIdx := by
  constructor
  · intro hi
    have hne : Table.read .empty nodes i ≠ .empty := by intro h0; simp [Node.isInternal, h0, Node.kind] at hi
    refine ⟨?_, h.lt_of_ne_empty hne⟩
    by_contra hc
    rw [h.low i (by omega)] at hi
    split at hi <;> simp [Node.isInternal, Node.kind] at hi
  · rintro ⟨h1, h2⟩
    obtain ⟨w, l, r, hr, -⟩ := h.mid i h1 h2
    simp [Node.isInternal, hr, Node.kind]

theorem mem_q_of_orphan (h : Forest count lv nsym seq newIdx q nodes) {i : Nat}
    (hi : Table.read .empty nodes i ≠ .empty) (hp : ¬ ParentBelow (Table.read .empty nodes) newIdx i) :
    ∃ e ∈ q, e.idx = i := by
  by_contra hc
  obtain ⟨e, ⟨he1, he2⟩, -⟩ := h.parent i hi (by simpa using hc)
  exact hp ⟨e.1, e.2, ((h.internal_iff e.1).mp he1).2, he1, he2⟩

/-- What the queue holds are the roots of the trees that are there (R123). -/
theorem treeBefore_of_mem (h : Forest count lv nsym seq newIdx q nodes) {e : QEntry} (he : e ∈ q) :
    TreeBefore (Table.read .empty nodes) newIdx e.idx := by
  have hn := (h.q_node e he).1
  refine ⟨h.lt_of_ne_empty hn, hn, ?_⟩
  rintro ⟨j, b, -, hj, hc⟩
  exact h.orphan e he j b hj hc

/-- One merge keeps the invariant (R124). -/
theorem merge {a b : QEntry} (h : Forest count lv nsym seq newIdx (a :: b :: q) nodes) :
    Forest count lv nsym (seq + 1) (newIdx + 1) (enqueue ⟨a.weight + b.weight, seq, newIdx⟩ q)
      (Table.write .empty nodes newIdx (.internal (a.weight + b.weight) a.idx b.idx)) := by
  have ha := h.q_node a (by simp)
  have hb := h.q_node b (by simp)
  have hal := h.lt_of_ne_empty ha.1
  have hbl := h.lt_of_ne_empty hb.1
  have hnd := h.q_nodup
  simp only [List.map_cons, List.nodup_cons, List.mem_cons, not_or] at hnd
  have hperm := enqueue_perm ⟨a.weight + b.weight, seq, newIdx⟩ q
  set nodes' := Table.write Node.empty nodes newIdx (.internal (a.weight + b.weight) a.idx b.idx) with hn'
  have hrd : ∀ i, i ≠ newIdx → Table.read .empty nodes' i = Table.read .empty nodes i := fun i hi =>
    Table.read_write_ne nodes _ (Ne.symm hi)
  have hnew : Table.read .empty nodes' newIdx = .internal (a.weight + b.weight) a.idx b.idx :=
    Table.read_write_self ..
  have hint : ∀ j, (Table.read .empty nodes' j).isInternal → j = newIdx ∨ (j ≠ newIdx ∧ (Table.read .empty nodes j).isInternal) := by
    intro j hj
    by_cases hjn : j = newIdx
    · exact .inl hjn
    · exact .inr ⟨hjn, by rwa [hrd j hjn] at hj⟩
  have hq_old : ∀ e ∈ q, e.idx ≠ newIdx := fun e he =>
    Nat.ne_of_lt (h.lt_of_ne_empty (h.q_node e (by simp [he])).1)
  have hmg : ∀ i, i < newIdx → MergedLeast (Table.read .empty nodes) i → nsym ≤ i →
      MergedLeast (Table.read .empty nodes') i := by
    intro i hi hm hge
    obtain ⟨w, l, r, hr, hl, hrr, -⟩ := h.mid i hge hi
    have e1 : Table.read .empty nodes' i = Table.read .empty nodes i := hrd i (by omega)
    have e2 : ∀ c, c < i → Table.read .empty nodes' c = Table.read .empty nodes c := fun c hc => hrd c (by omega)
    have e3 : ∀ c, TreeBefore (Table.read .empty nodes') i c ↔ TreeBefore (Table.read .empty nodes) i c := fun c =>
      treeBefore_congr e2 c
    have e4 : ∀ x y, x < i → y < i →
        (NodeBefore (Table.read .empty nodes') x y ↔ NodeBefore (Table.read .empty nodes) x y) := by
      intro x y hx hy
      simp only [NodeBefore, e2 x hx, e2 y hy]
    rw [MergedLeast, hr] at hm
    rw [MergedLeast, e1, hr]
    simp only [Node.left, Node.right, e3, e4 l r hl hrr] at hm ⊢
    exact ⟨hm.1, hm.2.1, hm.2.2.1, fun c hc h1 h2 => (e4 r c hrr hc.1).mpr (hm.2.2.2 c hc h1 h2)⟩
  constructor
  case lv_lt => exact h.lv_lt
  case idx_ge => have := h.idx_ge; omega
  case size =>
    have := h.size
    rw [hperm.length_eq]
    simp at this ⊢
    omega
  case fresh =>
    intro i hi
    rw [hrd i (by omega)]
    exact h.fresh i (by omega)
  case low =>
    intro i hi
    have := h.idx_ge
    rw [hrd i (by omega)]
    exact h.low i hi
  case mid =>
    intro i h1 h2
    by_cases hi : i = newIdx
    · subst hi
      refine ⟨_, _, _, hnew, hal, hbl, ?_, ?_, ?_⟩
      · rw [hrd _ (by omega)]; exact ha.1
      · rw [hrd _ (by omega)]; exact hb.1
      · rw [hrd _ (by omega), hrd _ (by omega), ← ha.2, ← hb.2]
    · obtain ⟨w, l, r, hr, hl, hrr, h3, h4, h5⟩ := h.mid i h1 (by omega)
      refine ⟨w, l, r, by rw [hrd i hi, hr], hl, hrr, ?_⟩
      rw [hrd l (by omega), hrd r (by omega)]
      exact ⟨h3, h4, h5⟩
  case q_node =>
    intro e he
    rcases mem_enqueue.mp he with rfl | he
    · simp [hnew, Node.weight]
    · rw [hrd _ (hq_old e he)]
      exact h.q_node e (by simp [he])
  case q_nodup =>
    rw [(hperm.map QEntry.idx).nodup_iff, List.map_cons, List.nodup_cons]
    refine ⟨?_, hnd.2.2⟩
    intro hc
    obtain ⟨e, he, hei⟩ := List.mem_map.mp hc
    exact hq_old e he hei
  case orphan =>
    intro e he j bit hj
    rcases mem_enqueue.mp he with rfl | heq
    · rcases hint j hj with rfl | ⟨hjn, hji⟩
      · rw [hnew]
        cases bit <;> simp [Node.child, Node.left, Node.right] <;> omega
      · rw [hrd j hjn]
        obtain ⟨h1, h2⟩ := (h.internal_iff j).mp hji
        obtain ⟨w, l, r, hr, hl, hrr, -⟩ := h.mid j h1 h2
        rw [hr]
        cases bit <;> simp [Node.child, Node.left, Node.right] <;> omega
    · rcases hint j hj with rfl | ⟨hjn, hji⟩
      · rw [hnew]
        have h1 : a.idx ≠ e.idx := fun hc => hnd.1.2 (hc ▸ List.mem_map_of_mem heq)
        have h2 : b.idx ≠ e.idx := fun hc => hnd.2.1 (hc ▸ List.mem_map_of_mem heq)
        cases bit <;> simp [Node.child, Node.left, Node.right, h1, h2]
      · rw [hrd j hjn]
        exact h.orphan e (by simp [heq]) j bit hji
  case parent =>
    intro i hi hq
    have hq' : i ≠ newIdx ∧ i ∉ q.map QEntry.idx := by
      constructor
      · rintro rfl
        exact hq (List.mem_map.mpr ⟨_, mem_enqueue.mpr (.inl rfl), rfl⟩)
      · intro hc
        obtain ⟨e, he, hei⟩ := List.mem_map.mp hc
        exact hq (List.mem_map.mpr ⟨e, mem_enqueue.mpr (.inr he), hei⟩)
    rw [hrd i hq'.1] at hi
    by_cases hab : i = a.idx ∨ i = b.idx
    · -- the two merged trees: their parent is the new node, and no other node was
      have hor : ∀ j bit, (Table.read .empty nodes j).isInternal → (Table.read .empty nodes j).child bit ≠ i := by
        intro j bit hj
        rcases hab with rfl | rfl
        · exact h.orphan a (by simp) j bit hj
        · exact h.orphan b (by simp) j bit hj
      have key : ∀ e : Nat × Bool, (Table.read .empty nodes' e.1).isInternal ∧ (Table.read .empty nodes' e.1).child e.2 = i →
          e.1 = newIdx ∧ (if e.2 then b.idx else a.idx) = i := by
        rintro ⟨j, bit⟩ ⟨h1, h2⟩
        rcases hint j h1 with rfl | ⟨hjn, hji⟩
        · rw [hnew] at h2
          exact ⟨rfl, by simpa [Node.child, Node.left, Node.right] using h2⟩
        · rw [hrd j hjn] at h2
          exact absurd h2 (hor j bit hji)
      rcases hab with rfl | rfl
      · refine ⟨(newIdx, false), ⟨by simp [Node.isInternal, hnew, Node.kind], by simp [hnew, Node.child, Node.left]⟩, ?_⟩
        rintro ⟨j, bit⟩ he
        obtain ⟨h1, h2⟩ := key _ he
        cases bit
        · simp at h1; simp [h1]
        · exact absurd h2.symm hnd.1.1
      · refine ⟨(newIdx, true), ⟨by simp [Node.isInternal, hnew, Node.kind], by simp [hnew, Node.child, Node.right]⟩, ?_⟩
        rintro ⟨j, bit⟩ he
        obtain ⟨h1, h2⟩ := key _ he
        cases bit
        · exact absurd h2 hnd.1.1
        · simp at h1; simp [h1]
    · have hold : i ∉ (a :: b :: q).map QEntry.idx := by
        simp only [List.map_cons, List.mem_cons, not_or]
        exact ⟨fun hc => hab (.inl hc), fun hc => hab (.inr hc), hq'.2⟩
      obtain ⟨⟨j, bit⟩, ⟨h1, h2⟩, huniq⟩ := h.parent i hi hold
      have hjn : j ≠ newIdx := Nat.ne_of_lt ((h.internal_iff j).mp h1).2
      refine ⟨(j, bit), ⟨by simpa [hrd j hjn] using h1, by simpa [hrd j hjn] using h2⟩, ?_⟩
      rintro ⟨j', bit'⟩ ⟨h1', h2'⟩
      rcases hint j' h1' with rfl | ⟨hjn', hji'⟩
      · simp only [hnew] at h2'
        cases bit' <;> simp [Node.child, Node.left, Node.right] at h2' <;> exact absurd h2'.symm (by tauto)
      · simp only [hrd j' hjn'] at h2'
        exact huniq (j', bit') ⟨hji', h2'⟩
  case total =>
    rw [(hperm.map QEntry.weight).sum_eq, ← h.total]
    simp; omega
  case sorted =>
    refine enqueue_sorted (List.pairwise_cons.mp (List.pairwise_cons.mp h.sorted).2).2 fun x hx => ?_
    exact Nat.ne_of_lt (h.seq_lt x (by simp [hx]))
  case seq_lt =>
    intro e he
    rcases mem_enqueue.mp he with rfl | he
    · simp
    · have := h.seq_lt e (by simp [he]); omega
  case seq_idx =>
    intro e he e' he'
    rcases mem_enqueue.mp he with rfl | he <;> rcases mem_enqueue.mp he' with rfl | he'
    · simp
    · have h1 := h.seq_lt e' (by simp [he'])
      have h2 := h.lt_of_ne_empty (h.q_node e' (by simp [he'])).1
      simp only; omega
    · have h1 := h.seq_lt e (by simp [he])
      have h2 := h.lt_of_ne_empty (h.q_node e (by simp [he])).1
      simp only; omega
    · exact h.seq_idx e (by simp [he]) e' (by simp [he'])
  case greedy =>
    intro i h1 h2
    by_cases hi : i = newIdx
    · subst hi
      have conv : ∀ x ∈ a :: b :: q, ∀ y ∈ a :: b :: q, x.before y →
          NodeBefore (Table.read .empty nodes') x.idx y.idx := by
        intro x hx y hy hxy
        have hx' := h.q_node x hx
        have hy' := h.q_node y hy
        have := h.seq_idx x hx y hy
        rw [QEntry.before_iff] at hxy
        simp only [NodeBefore]
        rw [hrd _ (Nat.ne_of_lt (h.lt_of_ne_empty hx'.1)), hrd _ (Nat.ne_of_lt (h.lt_of_ne_empty hy'.1)),
          ← hx'.2, ← hy'.2]
        omega
      have p1 := List.pairwise_cons.mp h.sorted
      have p2 := List.pairwise_cons.mp p1.2
      have same : ∀ c, TreeBefore (Table.read .empty nodes') i c ↔ TreeBefore (Table.read .empty nodes) i c := fun c =>
        treeBefore_congr (fun c hc => hrd c (Nat.ne_of_lt hc)) c
      rw [MergedLeast, hnew]
      simp only [Node.left, Node.right, same]
      refine ⟨h.treeBefore_of_mem (by simp), h.treeBefore_of_mem (by simp),
        conv a (by simp) b (by simp) (p1.1 b (by simp)), fun c hc hca hcb => ?_⟩
      obtain ⟨e, he, rfl⟩ := h.mem_q_of_orphan hc.2.1 hc.2.2
      have he' : e ∈ q := by
        rcases List.mem_cons.mp he with rfl | he
        · exact absurd rfl hca
        · rcases List.mem_cons.mp he with rfl | he
          · exact absurd rfl hcb
          · exact he
      exact conv b (by simp) e (by simp [he']) (p2.1 e he')
    · exact hmg i (by omega) (h.greedy i h1 (by omega)) h1

end Forest

/-- The merge loop ends with one tree (R125), and the invariant holds of it. -/
theorem mergeTrees_forest {count : Nat → Nat} {lv : List Nat} {nsym : Nat} (fuel seq newIdx : Nat) (q : List QEntry)
    (nodes : Table Node) (h : Forest count lv nsym seq newIdx q nodes) (hq : q ≠ []) (hf : q.length ≤ fuel + 1) :
    ∃ (r : QEntry) (seq' : Nat), (mergeTrees fuel seq newIdx q nodes).2 = r.idx ∧
      Forest count lv nsym seq' (nsym + lv.length - 1) [r] (mergeTrees fuel seq newIdx q nodes).1 := by
  induction fuel generalizing seq newIdx q nodes with
  | zero =>
    match q, hq, hf with
    | [r], _, _ =>
      have hs := h.size
      simp only [List.length_cons, List.length_nil] at hs
      refine ⟨r, seq, by simp [mergeTrees], ?_⟩
      rw [show nsym + lv.length - 1 = newIdx by omega]
      simpa [mergeTrees] using h
  | succ fuel ih =>
    match q, hq, hf with
    | [r], _, _ =>
      have hs := h.size
      simp only [List.length_cons, List.length_nil] at hs
      refine ⟨r, seq, by simp [mergeTrees], ?_⟩
      rw [show nsym + lv.length - 1 = newIdx by omega]
      simpa [mergeTrees] using h
    | a :: b :: q, _, hf =>
      have hm := h.merge
      simp only [mergeTrees]
      refine ih _ _ _ _ hm ?_ ?_
      · intro hc
        have := (enqueue_perm ⟨a.weight + b.weight, seq, newIdx⟩ q).length_eq
        simp [hc] at this
      · rw [(enqueue_perm _ q).length_eq]
        simp at hf ⊢
        omega

/-- Planting the leaves of an ascending alphabet establishes the invariant (R122). -/
theorem plantLeaves_forest (count : Nat → Nat) (nsym : Nat) (pre syms : List Nat) (q : List QEntry) (nodes : Table Node)
    (hasc : (pre ++ syms).Pairwise (· < ·)) (hlt : ∀ i ∈ pre ++ syms, i < nsym)
    (hrd : ∀ i, Table.read .empty nodes i = if i ∈ pre then .leaf (count i) else .empty)
    (hidx : (q.map QEntry.idx).Perm pre) (hw : ∀ e ∈ q, e.weight = count e.idx)
    (hsort : q.Pairwise fun a b => a.before b) (hseq : ∀ e ∈ q, e.seq < pre.length)
    (hsi : ∀ e ∈ q, ∀ e' ∈ q, e.seq < e'.seq ↔ e.idx < e'.idx) :
    Forest count (pre ++ syms) nsym (pre ++ syms).length nsym (plantLeaves count syms pre.length q nodes).1
      (plantLeaves count syms pre.length q nodes).2 := by
  induction syms generalizing pre q nodes with
  | nil =>
    simp only [List.append_nil] at *
    have hmem : ∀ e ∈ q, e.idx ∈ pre := fun e he => hidx.mem_iff.mp (List.mem_map_of_mem he)
    have hne : ∀ i, Table.read .empty nodes i ≠ .empty ↔ i ∈ pre := by
      intro i; rw [hrd i]; split <;> simp_all
    have hni : ∀ j, ¬ (Table.read .empty nodes j).isInternal := by
      intro j; rw [hrd j]; split <;> simp [Node.isInternal, Node.kind]
    simp only [plantLeaves]
    exact {
      lv_lt := hlt
      idx_ge := Nat.le_refl _
      size := by rw [← hidx.length_eq]; simp
      fresh := fun i hi => by rw [hrd i, if_neg fun hc => by have := hlt i hc; omega]
      low := fun i _ => hrd i
      mid := fun i h1 h2 => by omega
      q_node := fun e he => ⟨(hne e.idx).mpr (hmem e he), by rw [hw e he, hrd, if_pos (hmem e he)]; rfl⟩
      q_nodup := hidx.nodup_iff.mpr (hasc.imp Nat.ne_of_lt)
      orphan := fun e he j b hj => absurd hj (hni j)
      parent := fun i hi hq => absurd (hidx.mem_iff.mpr ((hne i).mp hi)) hq
      total := by
        have : q.map QEntry.weight = (q.map QEntry.idx).map count := by
          rw [List.map_map]; exact List.map_congr_left hw
        rw [this, (hidx.map count).sum_eq]
      sorted := hsort
      seq_lt := hseq
      seq_idx := hsi
      greedy := fun i h1 h2 => by omega }
  | cons sym syms ih =>
    have happ : pre ++ sym :: syms = (pre ++ [sym]) ++ syms := by simp
    have hless : ∀ i ∈ pre, i < sym := by
      intro i hi
      exact (List.pairwise_append.mp hasc).2.2 i hi sym (by simp)
    have hperm := enqueue_perm ⟨count sym, pre.length, sym⟩ q
    have hmem : ∀ e ∈ q, e.idx ∈ pre := fun e he => hidx.mem_iff.mp (List.mem_map_of_mem he)
    have hl : (pre ++ [sym]).length = pre.length + 1 := by simp
    simp only [plantLeaves]
    rw [happ] at hasc hlt ⊢
    rw [← hl]
    refine ih (pre ++ [sym]) _ _ hasc hlt ?_ ?_ ?_ ?_ ?_ ?_
    · intro i
      rw [Table.read_write, hrd i]
      by_cases hi : sym = i
      · subst hi; simp
      · simp [hi, Ne.symm hi]
    · exact ((hperm.map QEntry.idx).trans (hidx.cons sym)).trans (List.perm_append_singleton sym pre).symm
    · intro e he
      rcases mem_enqueue.mp he with rfl | he
      · rfl
      · exact hw e he
    · exact enqueue_sorted hsort fun x hx => Nat.ne_of_lt (hseq x hx)
    · intro e he
      rcases mem_enqueue.mp he with rfl | he
      · simp
      · have := hseq e he; simp; omega
    · intro e he e' he'
      rcases mem_enqueue.mp he with rfl | he <;> rcases mem_enqueue.mp he' with rfl | he'
      · simp
      · have h1 := hseq e' he'; have h2 := hless _ (hmem e' he'); simp only; omega
      · have h1 := hseq e he; have h2 := hless _ (hmem e he); simp only; omega
      · exact hsi e he e' he'

/-- The tree BUILD makes of a nonempty ascending alphabet. -/
theorem buildTree_forest (count : Nat → Nat) (nsym : Nat) (lv : List Nat) (hasc : lv.Pairwise (· < ·))
    (hlt : ∀ i ∈ lv, i < nsym) (hne : lv ≠ []) :
    ∃ (r : QEntry) (seq : Nat), (buildTree nsym count lv).2 = r.idx ∧
      Forest count lv nsym seq (nsym + lv.length - 1) [r] (buildTree nsym count lv).1 := by
  have hp := plantLeaves_forest count nsym [] lv [] [] (by simpa using hasc) (by simpa using hlt) (by simp) (by simp)
    (by simp) (by simp) (by simp) (by simp)
  simp only [List.nil_append, List.length_nil] at hp
  have hlen : (plantLeaves count lv 0 [] []).1.length = lv.length := by have := hp.size; omega
  refine mergeTrees_forest lv.length lv.length nsym _ _ hp ?_ (by omega)
  intro hc
  rw [hc] at hlen
  exact hne (List.length_eq_zero_iff.mp (by simpa using hlen.symm))

end Sys2Proof.Machine
end

