-- ==== Sys2Proof/Laws/State.lean ====
section
/-! SUPPORT. One lemma a field for each update of State, so that no proof unfolds a record update. -/

namespace Sys2Proof.Machine

section
variable (s : State)

/-! emit -/

@[simp] theorem emit_params (o : Output) : (emit o s).params = s.params := rfl
@[simp] theorem emit_freq (o : Output) : (emit o s).freq = s.freq := rfl
@[simp] theorem emit_node (o : Output) : (emit o s).node = s.node := rfl
@[simp] theorem emit_root (o : Output) : (emit o s).root = s.root := rfl
@[simp] theorem emit_nleaves (o : Output) : (emit o s).nleaves = s.nleaves := rfl
@[simp] theorem emit_treeValid (o : Output) : (emit o s).treeValid = s.treeValid := rfl
@[simp] theorem emit_code (o : Output) : (emit o s).code = s.code := rfl
@[simp] theorem emit_encOpen (o : Output) : (emit o s).encOpen = s.encOpen := rfl
@[simp] theorem emit_encNsym (o : Output) : (emit o s).encNsym = s.encNsym := rfl
@[simp] theorem emit_encNbits (o : Output) : (emit o s).encNbits = s.encNbits := rfl
@[simp] theorem emit_pkBuf (o : Output) : (emit o s).pkBuf = s.pkBuf := rfl
@[simp] theorem emit_pkCnt (o : Output) : (emit o s).pkCnt = s.pkCnt := rfl
@[simp] theorem emit_decOpen (o : Output) : (emit o s).decOpen = s.decOpen := rfl
@[simp] theorem emit_decCur (o : Output) : (emit o s).decCur = s.decCur := rfl
@[simp] theorem emit_decNbits (o : Output) : (emit o s).decNbits = s.decNbits := rfl
@[simp] theorem emit_decNsym (o : Output) : (emit o s).decNsym = s.decNsym := rfl
@[simp] theorem emit_lastErr (o : Output) : (emit o s).lastErr = s.lastErr := rfl
@[simp] theorem emit_inputs (o : Output) : (emit o s).inputs = s.inputs := rfl
@[simp] theorem emit_outputs (o : Output) : (emit o s).outputs = s.outputs ++ [o] := rfl
@[simp] theorem emit_count (o : Output) : (emit o s).count = s.count := rfl
@[simp] theorem emit_nodeAt (o : Output) : (emit o s).nodeAt = s.nodeAt := rfl
@[simp] theorem emit_codeAt (o : Output) : (emit o s).codeAt = s.codeAt := rfl

/-! emitBs -/

@[simp] theorem emitBs_params (data : Word32) (nbits : Nat) (last : Bool) : (emitBs data nbits last s).params = s.params := rfl
@[simp] theorem emitBs_freq (data : Word32) (nbits : Nat) (last : Bool) : (emitBs data nbits last s).freq = s.freq := rfl
@[simp] theorem emitBs_node (data : Word32) (nbits : Nat) (last : Bool) : (emitBs data nbits last s).node = s.node := rfl
@[simp] theorem emitBs_root (data : Word32) (nbits : Nat) (last : Bool) : (emitBs data nbits last s).root = s.root := rfl
@[simp] theorem emitBs_nleaves (data : Word32) (nbits : Nat) (last : Bool) : (emitBs data nbits last s).nleaves = s.nleaves := rfl
@[simp] theorem emitBs_treeValid (data : Word32) (nbits : Nat) (last : Bool) : (emitBs data nbits last s).treeValid = s.treeValid := rfl
@[simp] theorem emitBs_code (data : Word32) (nbits : Nat) (last : Bool) : (emitBs data nbits last s).code = s.code := rfl
@[simp] theorem emitBs_encOpen (data : Word32) (nbits : Nat) (last : Bool) : (emitBs data nbits last s).encOpen = s.encOpen := rfl
@[simp] theorem emitBs_encNsym (data : Word32) (nbits : Nat) (last : Bool) : (emitBs data nbits last s).encNsym = s.encNsym := rfl
@[simp] theorem emitBs_encNbits (data : Word32) (nbits : Nat) (last : Bool) : (emitBs data nbits last s).encNbits = s.encNbits := rfl
@[simp] theorem emitBs_pkBuf (data : Word32) (nbits : Nat) (last : Bool) : (emitBs data nbits last s).pkBuf = s.pkBuf := rfl
@[simp] theorem emitBs_pkCnt (data : Word32) (nbits : Nat) (last : Bool) : (emitBs data nbits last s).pkCnt = s.pkCnt := rfl
@[simp] theorem emitBs_decOpen (data : Word32) (nbits : Nat) (last : Bool) : (emitBs data nbits last s).decOpen = s.decOpen := rfl
@[simp] theorem emitBs_decCur (data : Word32) (nbits : Nat) (last : Bool) : (emitBs data nbits last s).decCur = s.decCur := rfl
@[simp] theorem emitBs_decNbits (data : Word32) (nbits : Nat) (last : Bool) : (emitBs data nbits last s).decNbits = s.decNbits := rfl
@[simp] theorem emitBs_decNsym (data : Word32) (nbits : Nat) (last : Bool) : (emitBs data nbits last s).decNsym = s.decNsym := rfl
@[simp] theorem emitBs_lastErr (data : Word32) (nbits : Nat) (last : Bool) : (emitBs data nbits last s).lastErr = s.lastErr := rfl
@[simp] theorem emitBs_inputs (data : Word32) (nbits : Nat) (last : Bool) : (emitBs data nbits last s).inputs = s.inputs := rfl
@[simp] theorem emitBs_outputs (data : Word32) (nbits : Nat) (last : Bool) : (emitBs data nbits last s).outputs = s.outputs ++ [.bs ⟨data, nbits, last⟩] := rfl
@[simp] theorem emitBs_count (data : Word32) (nbits : Nat) (last : Bool) : (emitBs data nbits last s).count = s.count := rfl
@[simp] theorem emitBs_nodeAt (data : Word32) (nbits : Nat) (last : Bool) : (emitBs data nbits last s).nodeAt = s.nodeAt := rfl
@[simp] theorem emitBs_codeAt (data : Word32) (nbits : Nat) (last : Bool) : (emitBs data nbits last s).codeAt = s.codeAt := rfl

/-! emitSym -/

@[simp] theorem emitSym_params (sym : Nat) : (emitSym sym s).params = s.params := rfl
@[simp] theorem emitSym_freq (sym : Nat) : (emitSym sym s).freq = s.freq := rfl
@[simp] theorem emitSym_node (sym : Nat) : (emitSym sym s).node = s.node := rfl
@[simp] theorem emitSym_root (sym : Nat) : (emitSym sym s).root = s.root := rfl
@[simp] theorem emitSym_nleaves (sym : Nat) : (emitSym sym s).nleaves = s.nleaves := rfl
@[simp] theorem emitSym_treeValid (sym : Nat) : (emitSym sym s).treeValid = s.treeValid := rfl
@[simp] theorem emitSym_code (sym : Nat) : (emitSym sym s).code = s.code := rfl
@[simp] theorem emitSym_encOpen (sym : Nat) : (emitSym sym s).encOpen = s.encOpen := rfl
@[simp] theorem emitSym_encNsym (sym : Nat) : (emitSym sym s).encNsym = s.encNsym := rfl
@[simp] theorem emitSym_encNbits (sym : Nat) : (emitSym sym s).encNbits = s.encNbits := rfl
@[simp] theorem emitSym_pkBuf (sym : Nat) : (emitSym sym s).pkBuf = s.pkBuf := rfl
@[simp] theorem emitSym_pkCnt (sym : Nat) : (emitSym sym s).pkCnt = s.pkCnt := rfl
@[simp] theorem emitSym_decOpen (sym : Nat) : (emitSym sym s).decOpen = s.decOpen := rfl
@[simp] theorem emitSym_decCur (sym : Nat) : (emitSym sym s).decCur = s.decCur := rfl
@[simp] theorem emitSym_decNbits (sym : Nat) : (emitSym sym s).decNbits = s.decNbits := rfl
@[simp] theorem emitSym_decNsym (sym : Nat) : (emitSym sym s).decNsym = s.decNsym := rfl
@[simp] theorem emitSym_lastErr (sym : Nat) : (emitSym sym s).lastErr = s.lastErr := rfl
@[simp] theorem emitSym_inputs (sym : Nat) : (emitSym sym s).inputs = s.inputs := rfl
@[simp] theorem emitSym_outputs (sym : Nat) : (emitSym sym s).outputs = s.outputs ++ [.sym (BitVec.ofNat 16 sym)] := rfl
@[simp] theorem emitSym_count (sym : Nat) : (emitSym sym s).count = s.count := rfl
@[simp] theorem emitSym_nodeAt (sym : Nat) : (emitSym sym s).nodeAt = s.nodeAt := rfl
@[simp] theorem emitSym_codeAt (sym : Nat) : (emitSym sym s).codeAt = s.codeAt := rfl

/-! respond -/

@[simp] theorem respond_params (st : Status) (d : Data56) : (respond st d s).params = s.params := rfl
@[simp] theorem respond_freq (st : Status) (d : Data56) : (respond st d s).freq = s.freq := rfl
@[simp] theorem respond_node (st : Status) (d : Data56) : (respond st d s).node = s.node := rfl
@[simp] theorem respond_root (st : Status) (d : Data56) : (respond st d s).root = s.root := rfl
@[simp] theorem respond_nleaves (st : Status) (d : Data56) : (respond st d s).nleaves = s.nleaves := rfl
@[simp] theorem respond_treeValid (st : Status) (d : Data56) : (respond st d s).treeValid = s.treeValid := rfl
@[simp] theorem respond_code (st : Status) (d : Data56) : (respond st d s).code = s.code := rfl
@[simp] theorem respond_encOpen (st : Status) (d : Data56) : (respond st d s).encOpen = s.encOpen := rfl
@[simp] theorem respond_encNsym (st : Status) (d : Data56) : (respond st d s).encNsym = s.encNsym := rfl
@[simp] theorem respond_encNbits (st : Status) (d : Data56) : (respond st d s).encNbits = s.encNbits := rfl
@[simp] theorem respond_pkBuf (st : Status) (d : Data56) : (respond st d s).pkBuf = s.pkBuf := rfl
@[simp] theorem respond_pkCnt (st : Status) (d : Data56) : (respond st d s).pkCnt = s.pkCnt := rfl
@[simp] theorem respond_decOpen (st : Status) (d : Data56) : (respond st d s).decOpen = s.decOpen := rfl
@[simp] theorem respond_decCur (st : Status) (d : Data56) : (respond st d s).decCur = s.decCur := rfl
@[simp] theorem respond_decNbits (st : Status) (d : Data56) : (respond st d s).decNbits = s.decNbits := rfl
@[simp] theorem respond_decNsym (st : Status) (d : Data56) : (respond st d s).decNsym = s.decNsym := rfl
@[simp] theorem respond_lastErr (st : Status) (d : Data56) : (respond st d s).lastErr = s.lastErr := rfl
@[simp] theorem respond_inputs (st : Status) (d : Data56) : (respond st d s).inputs = s.inputs := rfl
@[simp] theorem respond_outputs (st : Status) (d : Data56) : (respond st d s).outputs = s.outputs ++ [.rsp (responseWord st d)] := rfl
@[simp] theorem respond_count (st : Status) (d : Data56) : (respond st d s).count = s.count := rfl
@[simp] theorem respond_nodeAt (st : Status) (d : Data56) : (respond st d s).nodeAt = s.nodeAt := rfl
@[simp] theorem respond_codeAt (st : Status) (d : Data56) : (respond st d s).codeAt = s.codeAt := rfl

/-! raise -/

@[simp] theorem raise_params (e : Status) (op : BitVec 8) (sym pos : Nat) : (raise e op sym pos s).params = s.params := rfl
@[simp] theorem raise_freq (e : Status) (op : BitVec 8) (sym pos : Nat) : (raise e op sym pos s).freq = s.freq := rfl
@[simp] theorem raise_node (e : Status) (op : BitVec 8) (sym pos : Nat) : (raise e op sym pos s).node = s.node := rfl
@[simp] theorem raise_root (e : Status) (op : BitVec 8) (sym pos : Nat) : (raise e op sym pos s).root = s.root := rfl
@[simp] theorem raise_nleaves (e : Status) (op : BitVec 8) (sym pos : Nat) : (raise e op sym pos s).nleaves = s.nleaves := rfl
@[simp] theorem raise_treeValid (e : Status) (op : BitVec 8) (sym pos : Nat) : (raise e op sym pos s).treeValid = s.treeValid := rfl
@[simp] theorem raise_code (e : Status) (op : BitVec 8) (sym pos : Nat) : (raise e op sym pos s).code = s.code := rfl
@[simp] theorem raise_encOpen (e : Status) (op : BitVec 8) (sym pos : Nat) : (raise e op sym pos s).encOpen = s.encOpen := rfl
@[simp] theorem raise_encNsym (e : Status) (op : BitVec 8) (sym pos : Nat) : (raise e op sym pos s).encNsym = s.encNsym := rfl
@[simp] theorem raise_encNbits (e : Status) (op : BitVec 8) (sym pos : Nat) : (raise e op sym pos s).encNbits = s.encNbits := rfl
@[simp] theorem raise_pkBuf (e : Status) (op : BitVec 8) (sym pos : Nat) : (raise e op sym pos s).pkBuf = s.pkBuf := rfl
@[simp] theorem raise_pkCnt (e : Status) (op : BitVec 8) (sym pos : Nat) : (raise e op sym pos s).pkCnt = s.pkCnt := rfl
@[simp] theorem raise_decOpen (e : Status) (op : BitVec 8) (sym pos : Nat) : (raise e op sym pos s).decOpen = s.decOpen := rfl
@[simp] theorem raise_decCur (e : Status) (op : BitVec 8) (sym pos : Nat) : (raise e op sym pos s).decCur = s.decCur := rfl
@[simp] theorem raise_decNbits (e : Status) (op : BitVec 8) (sym pos : Nat) : (raise e op sym pos s).decNbits = s.decNbits := rfl
@[simp] theorem raise_decNsym (e : Status) (op : BitVec 8) (sym pos : Nat) : (raise e op sym pos s).decNsym = s.decNsym := rfl
@[simp] theorem raise_lastErr (e : Status) (op : BitVec 8) (sym pos : Nat) : (raise e op sym pos s).lastErr = ⟨e, op, BitVec.ofNat 16 sym, BitVec.ofNat 32 pos⟩ := rfl
@[simp] theorem raise_inputs (e : Status) (op : BitVec 8) (sym pos : Nat) : (raise e op sym pos s).inputs = s.inputs := rfl
@[simp] theorem raise_outputs (e : Status) (op : BitVec 8) (sym pos : Nat) : (raise e op sym pos s).outputs = s.outputs ++ [.rsp (responseWord e (errData op sym pos))] := rfl
@[simp] theorem raise_count (e : Status) (op : BitVec 8) (sym pos : Nat) : (raise e op sym pos s).count = s.count := rfl
@[simp] theorem raise_nodeAt (e : Status) (op : BitVec 8) (sym pos : Nat) : (raise e op sym pos s).nodeAt = s.nodeAt := rfl
@[simp] theorem raise_codeAt (e : Status) (op : BitVec 8) (sym pos : Nat) : (raise e op sym pos s).codeAt = s.codeAt := rfl

/-! setCount -/

@[simp] theorem setCount_params (sym c : Nat) : (s.setCount sym c).params = s.params := rfl
@[simp] theorem setCount_freq (sym c : Nat) : (s.setCount sym c).freq = Table.write 0 s.freq sym c := rfl
@[simp] theorem setCount_node (sym c : Nat) : (s.setCount sym c).node = s.node := rfl
@[simp] theorem setCount_root (sym c : Nat) : (s.setCount sym c).root = s.root := rfl
@[simp] theorem setCount_nleaves (sym c : Nat) : (s.setCount sym c).nleaves = s.nleaves := rfl
@[simp] theorem setCount_treeValid (sym c : Nat) : (s.setCount sym c).treeValid = s.treeValid := rfl
@[simp] theorem setCount_code (sym c : Nat) : (s.setCount sym c).code = s.code := rfl
@[simp] theorem setCount_encOpen (sym c : Nat) : (s.setCount sym c).encOpen = s.encOpen := rfl
@[simp] theorem setCount_encNsym (sym c : Nat) : (s.setCount sym c).encNsym = s.encNsym := rfl
@[simp] theorem setCount_encNbits (sym c : Nat) : (s.setCount sym c).encNbits = s.encNbits := rfl
@[simp] theorem setCount_pkBuf (sym c : Nat) : (s.setCount sym c).pkBuf = s.pkBuf := rfl
@[simp] theorem setCount_pkCnt (sym c : Nat) : (s.setCount sym c).pkCnt = s.pkCnt := rfl
@[simp] theorem setCount_decOpen (sym c : Nat) : (s.setCount sym c).decOpen = s.decOpen := rfl
@[simp] theorem setCount_decCur (sym c : Nat) : (s.setCount sym c).decCur = s.decCur := rfl
@[simp] theorem setCount_decNbits (sym c : Nat) : (s.setCount sym c).decNbits = s.decNbits := rfl
@[simp] theorem setCount_decNsym (sym c : Nat) : (s.setCount sym c).decNsym = s.decNsym := rfl
@[simp] theorem setCount_lastErr (sym c : Nat) : (s.setCount sym c).lastErr = s.lastErr := rfl
@[simp] theorem setCount_inputs (sym c : Nat) : (s.setCount sym c).inputs = s.inputs := rfl
@[simp] theorem setCount_outputs (sym c : Nat) : (s.setCount sym c).outputs = s.outputs := rfl
@[simp] theorem setCount_nodeAt (sym c : Nat) : (s.setCount sym c).nodeAt = s.nodeAt := rfl
@[simp] theorem setCount_codeAt (sym c : Nat) : (s.setCount sym c).codeAt = s.codeAt := rfl

/-! clearTree -/

@[simp] theorem clearTree_params : (clearTree s).params = s.params := rfl
@[simp] theorem clearTree_freq : (clearTree s).freq = s.freq := rfl
@[simp] theorem clearTree_node : (clearTree s).node = [] := rfl
@[simp] theorem clearTree_root : (clearTree s).root = 0 := rfl
@[simp] theorem clearTree_nleaves : (clearTree s).nleaves = 0 := rfl
@[simp] theorem clearTree_treeValid : (clearTree s).treeValid = false := rfl
@[simp] theorem clearTree_code : (clearTree s).code = [] := rfl
@[simp] theorem clearTree_encOpen : (clearTree s).encOpen = s.encOpen := rfl
@[simp] theorem clearTree_encNsym : (clearTree s).encNsym = s.encNsym := rfl
@[simp] theorem clearTree_encNbits : (clearTree s).encNbits = s.encNbits := rfl
@[simp] theorem clearTree_pkBuf : (clearTree s).pkBuf = s.pkBuf := rfl
@[simp] theorem clearTree_pkCnt : (clearTree s).pkCnt = s.pkCnt := rfl
@[simp] theorem clearTree_decOpen : (clearTree s).decOpen = s.decOpen := rfl
@[simp] theorem clearTree_decCur : (clearTree s).decCur = s.decCur := rfl
@[simp] theorem clearTree_decNbits : (clearTree s).decNbits = s.decNbits := rfl
@[simp] theorem clearTree_decNsym : (clearTree s).decNsym = s.decNsym := rfl
@[simp] theorem clearTree_lastErr : (clearTree s).lastErr = s.lastErr := rfl
@[simp] theorem clearTree_inputs : (clearTree s).inputs = s.inputs := rfl
@[simp] theorem clearTree_outputs : (clearTree s).outputs = s.outputs := rfl
@[simp] theorem clearTree_count : (clearTree s).count = s.count := rfl

/-! encAbort -/

@[simp] theorem encAbort_params : (encAbort s).params = s.params := rfl
@[simp] theorem encAbort_freq : (encAbort s).freq = s.freq := rfl
@[simp] theorem encAbort_node : (encAbort s).node = s.node := rfl
@[simp] theorem encAbort_root : (encAbort s).root = s.root := rfl
@[simp] theorem encAbort_nleaves : (encAbort s).nleaves = s.nleaves := rfl
@[simp] theorem encAbort_treeValid : (encAbort s).treeValid = s.treeValid := rfl
@[simp] theorem encAbort_code : (encAbort s).code = s.code := rfl
@[simp] theorem encAbort_encOpen : (encAbort s).encOpen = false := rfl
@[simp] theorem encAbort_encNsym : (encAbort s).encNsym = s.encNsym := rfl
@[simp] theorem encAbort_encNbits : (encAbort s).encNbits = s.encNbits := rfl
@[simp] theorem encAbort_pkBuf : (encAbort s).pkBuf = 0 := rfl
@[simp] theorem encAbort_pkCnt : (encAbort s).pkCnt = 0 := rfl
@[simp] theorem encAbort_decOpen : (encAbort s).decOpen = s.decOpen := rfl
@[simp] theorem encAbort_decCur : (encAbort s).decCur = s.decCur := rfl
@[simp] theorem encAbort_decNbits : (encAbort s).decNbits = s.decNbits := rfl
@[simp] theorem encAbort_decNsym : (encAbort s).decNsym = s.decNsym := rfl
@[simp] theorem encAbort_lastErr : (encAbort s).lastErr = s.lastErr := rfl
@[simp] theorem encAbort_inputs : (encAbort s).inputs = s.inputs := rfl
@[simp] theorem encAbort_outputs : (encAbort s).outputs = s.outputs := rfl
@[simp] theorem encAbort_count : (encAbort s).count = s.count := rfl
@[simp] theorem encAbort_nodeAt : (encAbort s).nodeAt = s.nodeAt := rfl
@[simp] theorem encAbort_codeAt : (encAbort s).codeAt = s.codeAt := rfl

/-! decAbort -/

@[simp] theorem decAbort_params : (decAbort s).params = s.params := rfl
@[simp] theorem decAbort_freq : (decAbort s).freq = s.freq := rfl
@[simp] theorem decAbort_node : (decAbort s).node = s.node := rfl
@[simp] theorem decAbort_root : (decAbort s).root = s.root := rfl
@[simp] theorem decAbort_nleaves : (decAbort s).nleaves = s.nleaves := rfl
@[simp] theorem decAbort_treeValid : (decAbort s).treeValid = s.treeValid := rfl
@[simp] theorem decAbort_code : (decAbort s).code = s.code := rfl
@[simp] theorem decAbort_encOpen : (decAbort s).encOpen = s.encOpen := rfl
@[simp] theorem decAbort_encNsym : (decAbort s).encNsym = s.encNsym := rfl
@[simp] theorem decAbort_encNbits : (decAbort s).encNbits = s.encNbits := rfl
@[simp] theorem decAbort_pkBuf : (decAbort s).pkBuf = s.pkBuf := rfl
@[simp] theorem decAbort_pkCnt : (decAbort s).pkCnt = s.pkCnt := rfl
@[simp] theorem decAbort_decOpen : (decAbort s).decOpen = false := rfl
@[simp] theorem decAbort_decCur : (decAbort s).decCur = s.decCur := rfl
@[simp] theorem decAbort_decNbits : (decAbort s).decNbits = s.decNbits := rfl
@[simp] theorem decAbort_decNsym : (decAbort s).decNsym = s.decNsym := rfl
@[simp] theorem decAbort_lastErr : (decAbort s).lastErr = s.lastErr := rfl
@[simp] theorem decAbort_inputs : (decAbort s).inputs = s.inputs := rfl
@[simp] theorem decAbort_outputs : (decAbort s).outputs = s.outputs := rfl
@[simp] theorem decAbort_count : (decAbort s).count = s.count := rfl
@[simp] theorem decAbort_nodeAt : (decAbort s).nodeAt = s.nodeAt := rfl
@[simp] theorem decAbort_codeAt : (decAbort s).codeAt = s.codeAt := rfl

/-! decodeEmit -/

@[simp] theorem decodeEmit_params (sym : Nat) : (decodeEmit sym s).params = s.params := rfl
@[simp] theorem decodeEmit_freq (sym : Nat) : (decodeEmit sym s).freq = s.freq := rfl
@[simp] theorem decodeEmit_node (sym : Nat) : (decodeEmit sym s).node = s.node := rfl
@[simp] theorem decodeEmit_root (sym : Nat) : (decodeEmit sym s).root = s.root := rfl
@[simp] theorem decodeEmit_nleaves (sym : Nat) : (decodeEmit sym s).nleaves = s.nleaves := rfl
@[simp] theorem decodeEmit_treeValid (sym : Nat) : (decodeEmit sym s).treeValid = s.treeValid := rfl
@[simp] theorem decodeEmit_code (sym : Nat) : (decodeEmit sym s).code = s.code := rfl
@[simp] theorem decodeEmit_encOpen (sym : Nat) : (decodeEmit sym s).encOpen = s.encOpen := rfl
@[simp] theorem decodeEmit_encNsym (sym : Nat) : (decodeEmit sym s).encNsym = s.encNsym := rfl
@[simp] theorem decodeEmit_encNbits (sym : Nat) : (decodeEmit sym s).encNbits = s.encNbits := rfl
@[simp] theorem decodeEmit_pkBuf (sym : Nat) : (decodeEmit sym s).pkBuf = s.pkBuf := rfl
@[simp] theorem decodeEmit_pkCnt (sym : Nat) : (decodeEmit sym s).pkCnt = s.pkCnt := rfl
@[simp] theorem decodeEmit_decOpen (sym : Nat) : (decodeEmit sym s).decOpen = s.decOpen := rfl
@[simp] theorem decodeEmit_decCur (sym : Nat) : (decodeEmit sym s).decCur = s.decCur := rfl
@[simp] theorem decodeEmit_decNbits (sym : Nat) : (decodeEmit sym s).decNbits = s.decNbits := rfl
@[simp] theorem decodeEmit_decNsym (sym : Nat) : (decodeEmit sym s).decNsym = s.decNsym + 1 := rfl
@[simp] theorem decodeEmit_lastErr (sym : Nat) : (decodeEmit sym s).lastErr = s.lastErr := rfl
@[simp] theorem decodeEmit_inputs (sym : Nat) : (decodeEmit sym s).inputs = s.inputs := rfl
@[simp] theorem decodeEmit_outputs (sym : Nat) : (decodeEmit sym s).outputs = s.outputs ++ [.sym (BitVec.ofNat 16 sym)] := rfl
@[simp] theorem decodeEmit_count (sym : Nat) : (decodeEmit sym s).count = s.count := rfl
@[simp] theorem decodeEmit_nodeAt (sym : Nat) : (decodeEmit sym s).nodeAt = s.nodeAt := rfl
@[simp] theorem decodeEmit_codeAt (sym : Nat) : (decodeEmit sym s).codeAt = s.codeAt := rfl

/-! rebuild -/

@[simp] theorem rebuild_params (lv : List Nat) : (rebuild lv s).params = s.params := rfl
@[simp] theorem rebuild_freq (lv : List Nat) : (rebuild lv s).freq = s.freq := rfl
@[simp] theorem rebuild_node (lv : List Nat) : (rebuild lv s).node = (buildTree s.params.nsym s.count lv).1 := rfl
@[simp] theorem rebuild_root (lv : List Nat) : (rebuild lv s).root = (buildTree s.params.nsym s.count lv).2 := rfl
@[simp] theorem rebuild_nleaves (lv : List Nat) : (rebuild lv s).nleaves = lv.length := rfl
@[simp] theorem rebuild_treeValid (lv : List Nat) : (rebuild lv s).treeValid = true := rfl
@[simp] theorem rebuild_code (lv : List Nat) : (rebuild lv s).code = generateCodes (buildTree s.params.nsym s.count lv).1 (buildTree s.params.nsym s.count lv).2 lv.length := rfl
@[simp] theorem rebuild_encOpen (lv : List Nat) : (rebuild lv s).encOpen = s.encOpen := rfl
@[simp] theorem rebuild_encNsym (lv : List Nat) : (rebuild lv s).encNsym = s.encNsym := rfl
@[simp] theorem rebuild_encNbits (lv : List Nat) : (rebuild lv s).encNbits = s.encNbits := rfl
@[simp] theorem rebuild_pkBuf (lv : List Nat) : (rebuild lv s).pkBuf = s.pkBuf := rfl
@[simp] theorem rebuild_pkCnt (lv : List Nat) : (rebuild lv s).pkCnt = s.pkCnt := rfl
@[simp] theorem rebuild_decOpen (lv : List Nat) : (rebuild lv s).decOpen = s.decOpen := rfl
@[simp] theorem rebuild_decCur (lv : List Nat) : (rebuild lv s).decCur = s.decCur := rfl
@[simp] theorem rebuild_decNbits (lv : List Nat) : (rebuild lv s).decNbits = s.decNbits := rfl
@[simp] theorem rebuild_decNsym (lv : List Nat) : (rebuild lv s).decNsym = s.decNsym := rfl
@[simp] theorem rebuild_lastErr (lv : List Nat) : (rebuild lv s).lastErr = s.lastErr := rfl
@[simp] theorem rebuild_inputs (lv : List Nat) : (rebuild lv s).inputs = s.inputs := rfl
@[simp] theorem rebuild_outputs (lv : List Nat) : (rebuild lv s).outputs = s.outputs := rfl
@[simp] theorem rebuild_count (lv : List Nat) : (rebuild lv s).count = s.count := rfl

/-! takeReset -/

@[simp] theorem takeReset_params : (takeReset s).params = s.params := rfl
@[simp] theorem takeReset_inputs : (takeReset s).inputs = s.inputs := rfl
@[simp] theorem takeReset_outputs : (takeReset s).outputs = s.outputs := rfl

/-! packBit and packBits: the packer's registers and the output sequence, nothing else -/

@[simp] theorem packBit_params (b : Bool) : (packBit b s).params = s.params := by unfold packBit; split <;> rfl
@[simp] theorem packBit_freq (b : Bool) : (packBit b s).freq = s.freq := by unfold packBit; split <;> rfl
@[simp] theorem packBit_node (b : Bool) : (packBit b s).node = s.node := by unfold packBit; split <;> rfl
@[simp] theorem packBit_root (b : Bool) : (packBit b s).root = s.root := by unfold packBit; split <;> rfl
@[simp] theorem packBit_nleaves (b : Bool) : (packBit b s).nleaves = s.nleaves := by unfold packBit; split <;> rfl
@[simp] theorem packBit_treeValid (b : Bool) : (packBit b s).treeValid = s.treeValid := by unfold packBit; split <;> rfl
@[simp] theorem packBit_code (b : Bool) : (packBit b s).code = s.code := by unfold packBit; split <;> rfl
@[simp] theorem packBit_encOpen (b : Bool) : (packBit b s).encOpen = s.encOpen := by unfold packBit; split <;> rfl
@[simp] theorem packBit_encNsym (b : Bool) : (packBit b s).encNsym = s.encNsym := by unfold packBit; split <;> rfl
@[simp] theorem packBit_encNbits (b : Bool) : (packBit b s).encNbits = s.encNbits := by unfold packBit; split <;> rfl
@[simp] theorem packBit_decOpen (b : Bool) : (packBit b s).decOpen = s.decOpen := by unfold packBit; split <;> rfl
@[simp] theorem packBit_decCur (b : Bool) : (packBit b s).decCur = s.decCur := by unfold packBit; split <;> rfl
@[simp] theorem packBit_decNbits (b : Bool) : (packBit b s).decNbits = s.decNbits := by unfold packBit; split <;> rfl
@[simp] theorem packBit_decNsym (b : Bool) : (packBit b s).decNsym = s.decNsym := by unfold packBit; split <;> rfl
@[simp] theorem packBit_lastErr (b : Bool) : (packBit b s).lastErr = s.lastErr := by unfold packBit; split <;> rfl
@[simp] theorem packBit_inputs (b : Bool) : (packBit b s).inputs = s.inputs := by unfold packBit; split <;> rfl

end

@[simp] theorem packBits_params (bs : Bits) (s : State) : (packBits bs s).params = s.params := by
  induction bs generalizing s with
  | nil => rfl
  | cons b bs ih => simp [packBits, ih]
@[simp] theorem packBits_freq (bs : Bits) (s : State) : (packBits bs s).freq = s.freq := by
  induction bs generalizing s with
  | nil => rfl
  | cons b bs ih => simp [packBits, ih]
@[simp] theorem packBits_node (bs : Bits) (s : State) : (packBits bs s).node = s.node := by
  induction bs generalizing s with
  | nil => rfl
  | cons b bs ih => simp [packBits, ih]
@[simp] theorem packBits_root (bs : Bits) (s : State) : (packBits bs s).root = s.root := by
  induction bs generalizing s with
  | nil => rfl
  | cons b bs ih => simp [packBits, ih]
@[simp] theorem packBits_nleaves (bs : Bits) (s : State) : (packBits bs s).nleaves = s.nleaves := by
  induction bs generalizing s with
  | nil => rfl
  | cons b bs ih => simp [packBits, ih]
@[simp] theorem packBits_treeValid (bs : Bits) (s : State) : (packBits bs s).treeValid = s.treeValid := by
  induction bs generalizing s with
  | nil => rfl
  | cons b bs ih => simp [packBits, ih]
@[simp] theorem packBits_code (bs : Bits) (s : State) : (packBits bs s).code = s.code := by
  induction bs generalizing s with
  | nil => rfl
  | cons b bs ih => simp [packBits, ih]
@[simp] theorem packBits_encOpen (bs : Bits) (s : State) : (packBits bs s).encOpen = s.encOpen := by
  induction bs generalizing s with
  | nil => rfl
  | cons b bs ih => simp [packBits, ih]
@[simp] theorem packBits_encNsym (bs : Bits) (s : State) : (packBits bs s).encNsym = s.encNsym := by
  induction bs generalizing s with
  | nil => rfl
  | cons b bs ih => simp [packBits, ih]
@[simp] theorem packBits_encNbits (bs : Bits) (s : State) : (packBits bs s).encNbits = s.encNbits := by
  induction bs generalizing s with
  | nil => rfl
  | cons b bs ih => simp [packBits, ih]
@[simp] theorem packBits_decOpen (bs : Bits) (s : State) : (packBits bs s).decOpen = s.decOpen := by
  induction bs generalizing s with
  | nil => rfl
  | cons b bs ih => simp [packBits, ih]
@[simp] theorem packBits_decCur (bs : Bits) (s : State) : (packBits bs s).decCur = s.decCur := by
  induction bs generalizing s with
  | nil => rfl
  | cons b bs ih => simp [packBits, ih]
@[simp] theorem packBits_decNbits (bs : Bits) (s : State) : (packBits bs s).decNbits = s.decNbits := by
  induction bs generalizing s with
  | nil => rfl
  | cons b bs ih => simp [packBits, ih]
@[simp] theorem packBits_decNsym (bs : Bits) (s : State) : (packBits bs s).decNsym = s.decNsym := by
  induction bs generalizing s with
  | nil => rfl
  | cons b bs ih => simp [packBits, ih]
@[simp] theorem packBits_lastErr (bs : Bits) (s : State) : (packBits bs s).lastErr = s.lastErr := by
  induction bs generalizing s with
  | nil => rfl
  | cons b bs ih => simp [packBits, ih]
@[simp] theorem packBits_inputs (bs : Bits) (s : State) : (packBits bs s).inputs = s.inputs := by
  induction bs generalizing s with
  | nil => rfl
  | cons b bs ih => simp [packBits, ih]

@[simp] theorem packBits_count (bs : Bits) (s : State) (i : Nat) : (packBits bs s).count i = s.count i := by simp [State.count]
@[simp] theorem packBits_nodeAt (bs : Bits) (s : State) (i : Nat) : (packBits bs s).nodeAt i = s.nodeAt i := by simp [State.nodeAt]
@[simp] theorem packBits_codeAt (bs : Bits) (s : State) (i : Nat) : (packBits bs s).codeAt i = s.codeAt i := by simp [State.codeAt]

@[simp] theorem setCount_count (s : State) (sym c i : Nat) :
    (s.setCount sym c).count i = if sym = i then c else s.count i := by
  simp [State.count, Table.read_write]

@[simp] theorem clearTree_nodeAt (s : State) (i : Nat) : (clearTree s).nodeAt i = .empty := rfl
@[simp] theorem clearTree_codeAt (s : State) (i : Nat) : (clearTree s).codeAt i = .none := rfl

end Sys2Proof.Machine
end

