-- ==== Sys2Proof/Laws/Tree.lean ====
section
/-! SUPPORT. Following a path in the tree, code generation, and that a built tree satisfies `TreeInv`
(spec/42_code_table.md R140 to R142, spec/10_state.md R27). -/

namespace Sys2Proof.Machine

/-! ### Paths -/

theorem descend_cons (nodes : Table Node) (b : Bool) (bs : Bits) (n : Nat) :
    descend nodes (b :: bs) n =
      if (Table.read .empty nodes n).isInternal then descend nodes bs ((Table.read .empty nodes n).child b) else none := by
  rw [descend]
  cases Table.read Node.empty nodes n <;> simp [Node.isInternal, Node.kind, Node.child, Node.left, Node.right]

theorem descend_append (nodes : Table Node) (p q : Bits) (n : Nat) :
    descend nodes (p ++ q) n = (descend nodes p n).bind (descend nodes q) := by
  induction p generalizing n with
  | nil => rfl
  | cons b p ih =>
    rw [List.cons_append, descend_cons, descend_cons]
    split
    · exact ih _
    · rfl

/-- Nothing lies below a leaf. -/
theorem descend_leaf {nodes : Table Node} {bs : Bits} {n m : Nat} (hl : (Table.read .empty nodes n).isLeaf = true)
    (h : descend nodes bs n = some m) : bs = [] := by
  cases bs with
  | nil => rfl
  | cons b bs =>
    rw [descend_cons, if_neg] at h
    · simp at h
    · cases hn : Table.read Node.empty nodes n <;> simp_all [Node.isInternal, Node.kind, Node.isLeaf]

/-- Two paths to leaves, one the beginning of the other, are one path to one leaf: the code is
prefix-free (R142). -/
theorem descend_prefix_free {nodes : Table Node} {p q : Bits} {n a b : Nat} (ha : descend nodes p n = some a)
    (hb : descend nodes q n = some b) (hl : (Table.read .empty nodes a).isLeaf = true) (hpq : p <+: q) :
    a = b ∧ p = q := by
  obtain ⟨t, rfl⟩ := hpq
  rw [descend_append, ha, Option.bind_some] at hb
  have := descend_leaf hl hb
  subst this
  simpa [descend] using hb

/-! ### Code generation -/

theorem walk_zero (nodes : Table Node) (n : Nat) (path : Bits) (code : Table CodeEntry) :
    walk nodes 0 n path code = code := rfl

/-- Every codeword that `walk` writes is the path to its leaf. -/
theorem walk_sound (nodes : Table Node) (fuel n : Nat) (path : Bits) (code : Table CodeEntry) (sym : Nat) :
    Table.read .none (walk nodes fuel n path code) sym = Table.read .none code sym ∨
      ∃ bits, descend nodes bits n = some sym ∧ (Table.read .empty nodes sym).isLeaf = true ∧
        Table.read .none (walk nodes fuel n path code) sym = ⟨true, path ++ bits⟩ := by
  induction fuel generalizing n path code with
  | zero => exact .inl rfl
  | succ fuel ih =>
    rw [walk]
    cases hn : Table.read Node.empty nodes n with
    | empty => exact .inl rfl
    | leaf w =>
      by_cases hs : n = sym
      · subst hs
        exact .inr ⟨[], rfl, by simp [hn, Node.isLeaf], by simp⟩
      · exact .inl (Table.read_write_ne _ _ hs)
    | internal w l r =>
      simp only
      rcases ih r (path ++ [true]) (walk nodes fuel l (path ++ [false]) code) with hr | ⟨bits, h1, h2, h3⟩
      · rcases ih l (path ++ [false]) code with hl | ⟨bits, h1, h2, h3⟩
        · exact .inl (hr.trans hl)
        · refine .inr ⟨false :: bits, ?_, h2, ?_⟩
          · rw [descend, hn]; simpa using h1
          · rw [hr, h3]; simp
      · refine .inr ⟨true :: bits, ?_, h2, ?_⟩
        · rw [descend, hn]; simpa using h1
        · rw [h3]; simp

/-- A valid codeword stays valid. -/
theorem walk_valid_mono (nodes : Table Node) (fuel n : Nat) (path : Bits) (code : Table CodeEntry) (sym : Nat)
    (h : (Table.read .none code sym).valid = true) :
    (Table.read .none (walk nodes fuel n path code) sym).valid = true := by
  rcases walk_sound nodes fuel n path code sym with h1 | ⟨_, -, -, h1⟩
  · rw [h1, h]
  · rw [h1]

/-- `walk` reaches every leaf less than `fuel` deep. -/
theorem walk_complete (nodes : Table Node) (fuel n : Nat) (path : Bits) (code : Table CodeEntry) (sym : Nat) (bits : Bits)
    (hd : descend nodes bits n = some sym) (hl : (Table.read .empty nodes sym).isLeaf = true) (hf : bits.length < fuel) :
    (Table.read .none (walk nodes fuel n path code) sym).valid = true := by
  induction fuel generalizing n path code bits with
  | zero => omega
  | succ fuel ih =>
    rw [walk]
    cases bits with
    | nil =>
      simp only [descend, Option.some.injEq] at hd
      subst hd
      cases hn : Table.read Node.empty nodes n <;> simp_all [Node.isLeaf]
    | cons b bits =>
      rw [descend] at hd
      cases hn : Table.read Node.empty nodes n with
      | empty => simp [hn] at hd
      | leaf w => simp [hn] at hd
      | internal w l r =>
        simp only [hn] at hd
        simp only [List.length_cons] at hf
        cases b with
        | true => exact ih r _ _ bits (by simpa using hd) (by omega)
        | false => exact walk_valid_mono _ _ _ _ _ _ (ih l _ _ bits (by simpa using hd) (by omega))

theorem walk_wf (nodes : Table Node) (bound fuel n : Nat) (path : Bits) (code : Table CodeEntry)
    (hleaf : ∀ i, (Table.read .empty nodes i).isLeaf = true → i < bound) (hc : Table.wf CodeEntry.none bound code) :
    Table.wf CodeEntry.none bound (walk nodes fuel n path code) := by
  induction fuel generalizing n path code with
  | zero => exact hc
  | succ fuel ih =>
    rw [walk]
    cases hn : Table.read Node.empty nodes n with
    | empty => exact hc
    | leaf w => exact Table.wf_write hc (hleaf n (by simp [hn, Node.isLeaf]))
    | internal w l r => exact ih r _ _ (ih l _ _ hc)

/-! ### The finished tree -/

namespace Forest

variable {count : Nat → Nat} {lv : List Nat} {nsym seq : Nat} {r : QEntry} {nodes : Table Node}

theorem leaf_iff {newIdx : Nat} {q : List QEntry} (h : Forest count lv nsym seq newIdx q nodes) (i : Nat) :
    (Table.read .empty nodes i).isLeaf = true ↔ i ∈ lv := by
  by_cases hi : i < nsym
  · rw [h.low i hi]
    split <;> simp_all [Node.isLeaf]
  · have hni : i ∉ lv := fun hc => hi (h.lv_lt i hc)
    by_cases hn : i < newIdx
    · obtain ⟨w, l, r, hr, -⟩ := h.mid i (by omega) hn
      simp [hr, Node.isLeaf, hni]
    · simp [h.fresh i (by omega), Node.isLeaf, hni]

theorem root_ne_empty (h : Forest count lv nsym seq (nsym + lv.length - 1) [r] nodes) :
    Table.read .empty nodes r.idx ≠ .empty := (h.q_node r (by simp)).1

/-- The sole leaf is the root of a one-leaf tree (R125). -/
theorem root_of_one (h : Forest count lv nsym seq (nsym + lv.length - 1) [r] nodes) (h1 : lv.length = 1) :
    lv = [r.idx] := by
  have hlt := h.lt_of_ne_empty h.root_ne_empty
  have hne := h.root_ne_empty
  rw [h.low r.idx (by omega)] at hne
  have hm : r.idx ∈ lv := by by_contra hc; simp [hc] at hne
  match lv, h1 with
  | [x], _ => rw [List.mem_singleton.mp hm]

/-- The last internal node is the root of every other tree (R127). -/
theorem root_of_two (h : Forest count lv nsym seq (nsym + lv.length - 1) [r] nodes) (h2 : 2 ≤ lv.length) :
    r.idx + 2 = nsym + lv.length := by
  have hn : Table.read .empty nodes (nsym + lv.length - 2) ≠ .empty := by
    obtain ⟨w, l, r, hr, -⟩ := h.mid (nsym + lv.length - 2) (by omega) (by omega)
    simp [hr]
  obtain ⟨e, he, hei⟩ := h.mem_q_of_orphan hn (by
    rintro ⟨j, b, hj, hji, hjc⟩
    obtain ⟨w, l, r, hr, hl, hrr, -⟩ := h.mid j ((h.internal_iff j).mp hji).1 hj
    rw [hr] at hjc
    cases b <;> simp [Node.child, Node.left, Node.right] at hjc <;> omega)
  rw [List.mem_singleton] at he
  subst he
  omega

theorem child_lt {newIdx : Nat} {q : List QEntry} (h : Forest count lv nsym seq newIdx q nodes) {i : Nat} (b : Bool)
    (hi : (Table.read .empty nodes i).isInternal) : nsym ≤ i ∧ (Table.read .empty nodes i).child b < i := by
  have hlt := (h.internal_iff i).mp hi
  obtain ⟨w, l, r, hr, hl, hrr, -⟩ := h.mid i hlt.1 hlt.2
  refine ⟨hlt.1, ?_⟩
  rw [hr]
  cases b <;> simpa [Node.child, Node.left, Node.right]

/-- Each merge adds at most one to a depth (R127). -/
theorem descend_length {newIdx : Nat} {q : List QEntry} (h : Forest count lv nsym seq newIdx q nodes) (bits : Bits)
    (n m : Nat) (hd : descend nodes bits n = some m) (hne : bits ≠ []) : bits.length + nsym ≤ n + 1 := by
  induction bits generalizing n with
  | nil => exact absurd rfl hne
  | cons b bits ih =>
    rw [descend_cons] at hd
    split at hd
    next hi =>
      have hc := h.child_lt b hi
      by_cases hb : bits = []
      · subst hb; simp; omega
      · have := ih _ hd hb
        simp; omega
    · simp at hd

/-- Every node is reached from the root. -/
theorem reach (h : Forest count lv nsym seq (nsym + lv.length - 1) [r] nodes) (i : Nat)
    (hi : Table.read .empty nodes i ≠ .empty) : ∃ bits, descend nodes bits r.idx = some i := by
  induction hk : (nsym + lv.length - 1) - i using Nat.strong_induction_on generalizing i with
  | _ k ih =>
    by_cases hr : i = r.idx
    · exact ⟨[], by simp [descend, hr]⟩
    · obtain ⟨⟨j, b⟩, ⟨h1, h2⟩, -⟩ := h.parent i hi (by simpa using hr)
      have hc := (h.child_lt b h1).2
      have hj := ((h.internal_iff j).mp h1).2
      have hij : i < j := by simpa [h2] using hc
      have hne : Table.read .empty nodes j ≠ .empty := by
        intro h0; simp [Node.isInternal, h0, Node.kind] at h1
      obtain ⟨bits, hb⟩ := ih (nsym + lv.length - 1 - j) (by omega) j hne rfl
      refine ⟨bits ++ [b], ?_⟩
      rw [descend_append, hb, Option.bind_some, descend_cons, if_pos h1, descend, h2]

end Forest

/-! ### BUILD -/

theorem alphabet_pairwise (s : State) : s.alphabet.Pairwise (· < ·) :=
  List.Pairwise.filter _ List.pairwise_lt_range

theorem mem_alphabet {s : State} {i : Nat} : i ∈ s.alphabet ↔ i < s.params.nsym ∧ s.count i ≠ 0 := by
  simp [State.alphabet]

theorem filter_range_eq_of_pairwise (n : Nat) (lv : List Nat) (hasc : lv.Pairwise (· < ·)) (hlt : ∀ i ∈ lv, i < n)
    (P : Nat → Bool) (hP : ∀ i, P i = true ↔ i ∈ lv) : (List.range n).filter P = lv := by
  refine List.Perm.eq_of_pairwise (le := fun a b => a < b) (fun a b _ _ h1 h2 => by omega)
    (List.Pairwise.filter _ List.pairwise_lt_range) hasc ?_
  refine (List.perm_ext_iff_of_nodup (List.Nodup.filter _ List.nodup_range) (hasc.imp Nat.ne_of_lt)).mpr fun i => ?_
  simp only [List.mem_filter, List.mem_range, hP]
  exact ⟨fun h => h.2, fun h => ⟨hlt i h, h⟩⟩

/-- The codes a finished tree gets: the path to each leaf, and "0" to a sole leaf (R140, R141). -/
theorem generateCodes_spec {count : Nat → Nat} {lv : List Nat} {nsym seq : Nat} {r : QEntry} {nodes : Table Node}
    (h : Forest count lv nsym seq (nsym + lv.length - 1) [r] nodes) (hne : lv ≠ []) (sym : Nat) :
    ((Table.read .none (generateCodes nodes r.idx lv.length) sym).valid = true ↔ sym ∈ lv) ∧
    ((Table.read .none (generateCodes nodes r.idx lv.length) sym).valid = false →
      Table.read .none (generateCodes nodes r.idx lv.length) sym = .none) ∧
    ((Table.read .none (generateCodes nodes r.idx lv.length) sym).valid = true →
      if (Table.read .empty nodes r.idx).isLeaf
      then sym = r.idx ∧ (Table.read .none (generateCodes nodes r.idx lv.length) sym).bits = [false]
      else descend nodes (Table.read .none (generateCodes nodes r.idx lv.length) sym).bits r.idx = some sym ∧
        1 ≤ (Table.read .none (generateCodes nodes r.idx lv.length) sym).bits.length ∧
        (Table.read .none (generateCodes nodes r.idx lv.length) sym).bits.length + 1 ≤ lv.length) := by
  have hL : 1 ≤ lv.length := by
    rcases lv with _ | ⟨x, lv⟩
    · exact absurd rfl hne
    · simp
  by_cases h1 : lv.length = 1
  · have hlv := h.root_of_one h1
    have hleaf : (Table.read .empty nodes r.idx).isLeaf = true := (h.leaf_iff r.idx).mpr (by rw [hlv]; simp)
    simp only [generateCodes, hleaf, if_true, Table.read_write, Table.read_nil]
    rw [hlv]
    by_cases hs : r.idx = sym
    · subst hs; simp
    · simp [hs, Ne.symm hs, CodeEntry.none]
  · have h2 : 2 ≤ lv.length := by omega
    have hroot := h.root_of_two h2
    have hleaf : (Table.read .empty nodes r.idx).isLeaf = false := by
      obtain ⟨w, l, r', hr, -⟩ := h.mid r.idx (by omega) (by omega)
      rw [hr]; rfl
    simp only [generateCodes, hleaf, Bool.false_eq_true, if_false]
    have hsound := walk_sound nodes lv.length r.idx [] [] sym
    simp only [Table.read_nil, List.nil_append] at hsound
    refine ⟨⟨fun hv => ?_, fun hm => ?_⟩, fun hv => ?_, fun hv => ?_⟩
    · rcases hsound with h0 | ⟨bits, -, hl, -⟩
      · rw [h0] at hv; simp [CodeEntry.none] at hv
      · exact (h.leaf_iff sym).mp hl
    · have hl := (h.leaf_iff sym).mpr hm
      have hne' : Table.read .empty nodes sym ≠ .empty := by intro h0; simp [h0, Node.isLeaf] at hl
      obtain ⟨bits, hb⟩ := h.reach sym hne'
      refine walk_complete _ _ _ _ _ _ bits hb hl ?_
      by_cases hbn : bits = []
      · subst hbn; simp; omega
      · have := h.descend_length bits _ _ hb hbn
        omega
    · rcases hsound with h0 | ⟨bits, -, -, h0⟩
      · exact h0
      · rw [h0] at hv; simp at hv
    · rcases hsound with h0 | ⟨bits, hb, hl, h0⟩
      · rw [h0] at hv; simp [CodeEntry.none] at hv
      · rw [h0]
        have hbn : bits ≠ [] := by
          rintro rfl
          simp only [descend, Option.some.injEq] at hb
          rw [hb] at hleaf
          rw [hleaf] at hl
          simp at hl
        have hlen := h.descend_length bits _ _ hb hbn
        refine ⟨hb, ?_, by simp only; omega⟩
        cases bits with
        | nil => exact absurd rfl hbn
        | cons _ _ => simp

theorem generateCodes_wf {count : Nat → Nat} {lv : List Nat} {nsym seq newIdx : Nat} {q : List QEntry} {nodes : Table Node}
    (h : Forest count lv nsym seq newIdx q nodes) (root : Nat) :
    Table.wf CodeEntry.none nsym (generateCodes nodes root lv.length) := by
  have hleaf : ∀ i, (Table.read .empty nodes i).isLeaf = true → i < nsym := fun i hi =>
    h.lv_lt i ((h.leaf_iff i).mp hi)
  unfold generateCodes
  split
  next hr => exact Table.wf_write (Table.wf_nil _) (hleaf root hr)
  · exact walk_wf _ _ _ _ _ _ hleaf (Table.wf_nil _)

theorem plantLeaves_wf (count : Nat → Nat) (bound : Nat) (syms : List Nat) (seq : Nat) (q : List QEntry) (nodes : Table Node)
    (hlt : ∀ i ∈ syms, i < bound) (hn : Table.wf Node.empty bound nodes) :
    Table.wf Node.empty bound (plantLeaves count syms seq q nodes).2 := by
  induction syms generalizing seq q nodes with
  | nil => exact hn
  | cons sym syms ih =>
    exact ih _ _ _ (fun i hi => hlt i (by simp [hi])) (Table.wf_write hn (hlt sym (by simp)))

theorem mergeTrees_wf (bound fuel seq newIdx : Nat) (q : List QEntry) (nodes : Table Node)
    (hb : newIdx + q.length ≤ bound + 1) (hn : Table.wf Node.empty bound nodes) :
    Table.wf Node.empty bound (mergeTrees fuel seq newIdx q nodes).1 := by
  induction fuel generalizing seq newIdx q nodes with
  | zero => rcases q with _ | ⟨a, q⟩ <;> simpa [mergeTrees] using hn
  | succ fuel ih =>
    match q with
    | [] => simpa [mergeTrees] using hn
    | [a] => simpa [mergeTrees] using hn
    | a :: b :: q =>
      simp only [List.length_cons] at hb
      refine ih _ _ _ _ ?_ (Table.wf_write hn (by omega))
      rw [(enqueue_perm _ q).length_eq]
      simp only [List.length_cons]
      omega

theorem alphabet_length_le (s : State) : s.alphabet.length ≤ s.params.nsym := by
  have := List.length_filter_le (fun sym => s.count sym != 0) (List.range s.params.nsym)
  simpa [State.alphabet] using this

theorem nsym_pos (p : Params) : 1 ≤ p.nsym := Nat.one_le_two_pow

theorem two_le_nsym {p : Params} (hp : p.legal) : 2 ≤ p.nsym := by
  have := Nat.pow_le_pow_right (n := 2) (by omega) hp.1
  simpa [Params.nsym] using this

/-- The finished arena is canonical (R52, R127: the merges never write past NNODE - 1). -/
theorem buildTree_wf (count : Nat → Nat) (nsym : Nat) (lv : List Nat) (hlt : ∀ i ∈ lv, i < nsym) (hlen : lv.length ≤ nsym)
    (hpos : 1 ≤ nsym) (hasc : lv.Pairwise (· < ·)) : Table.wf Node.empty (2 * nsym - 1) (buildTree nsym count lv).1 := by
  have hp := plantLeaves_forest count nsym [] lv [] [] (by simpa using hasc) (by simpa using hlt) (by simp) (by simp)
    (by simp) (by simp) (by simp) (by simp)
  simp only [List.nil_append, List.length_nil] at hp
  have hs := hp.size
  refine mergeTrees_wf _ _ _ _ _ _ (by omega) ?_
  exact plantLeaves_wf count _ lv 0 [] [] (fun i hi => by have := hlt i hi; omega) (Table.wf_nil _)

/-- What a successful BUILD leaves satisfies R27 with R26, R127, R128 and R142. -/
theorem rebuild_treeInv (s : State) (hp : s.params.legal) (hc : ∀ i, s.count i ≤ s.params.maxCount) (hne : s.alphabet ≠ []) :
    TreeInv (rebuild s.alphabet s) := by
  obtain ⟨r, seq, hr, hF⟩ := buildTree_forest s.count s.params.nsym s.alphabet (alphabet_pairwise s)
    (fun i hi => (mem_alphabet.mp hi).1) hne
  have hL : 1 ≤ s.alphabet.length := by
    rcases hs : s.alphabet with _ | ⟨x, l⟩
    · exact absurd hs hne
    · simp
  have hLn := alphabet_length_le s
  have hnode : ∀ i, (rebuild s.alphabet s).nodeAt i = Table.read .empty (buildTree s.params.nsym s.count s.alphabet).1 i :=
    fun _ => rfl
  have hcode : ∀ i, (rebuild s.alphabet s).codeAt i =
      Table.read .none (generateCodes (buildTree s.params.nsym s.count s.alphabet).1 r.idx s.alphabet.length) i := by
    intro i; rw [← hr]; rfl
  have hroot : (rebuild s.alphabet s).root = r.idx := hr
  have hG := fun i => generateCodes_spec hF hne i
  have hsum : (s.alphabet.map s.count).sum ≤ s.params.nsym * s.params.maxCount := by
    have := List.sum_le_card_nsmul (s.alphabet.map s.count) s.params.maxCount (by
      intro x hx; obtain ⟨i, -, rfl⟩ := List.mem_map.mp hx; exact hc i)
    simp at this
    exact Nat.le_trans this (Nat.mul_le_mul_right _ hLn)
  constructor
  case leaves => exact ⟨hL, hLn⟩
  case leaf_iff => intro i; rw [hnode, hcode, hF.leaf_iff, (hG i).1]
  case leaf_lt => intro i hi; rw [hnode, hF.leaf_iff] at hi; exact hF.lv_lt i hi
  case leaf_count =>
    simp only [hnode, rebuild_params, rebuild_nleaves]
    rw [filter_range_eq_of_pairwise s.params.nsym s.alphabet (alphabet_pairwise s) hF.lv_lt _ fun i => hF.leaf_iff i]
  case leaf_weight =>
    intro i w hi
    rw [hnode] at hi
    have hm : i ∈ s.alphabet := (hF.leaf_iff i).mp (by rw [hi]; rfl)
    rw [hF.low i (hF.lv_lt i hm), if_pos hm] at hi
    cases hi
    exact ⟨Nat.one_le_iff_ne_zero.mpr (mem_alphabet.mp hm).2, hc i⟩
  case internal_iff =>
    intro i
    rw [hnode, hF.internal_iff]
    simp only [rebuild_params, rebuild_nleaves]
    omega
  case root_leaf =>
    intro h1
    simp only [rebuild_nleaves] at h1
    rw [hnode, hroot, hF.leaf_iff, hF.root_of_one h1]; simp
  case root_internal => intro h2; rw [hroot]; exact hF.root_of_two h2
  case children =>
    intro i w l r' hi
    rw [hnode] at hi
    have hint := (hF.internal_iff i).mp (by rw [hi]; rfl)
    obtain ⟨w', l', r'', hr', h⟩ := hF.mid i hint.1 hint.2
    rw [hi] at hr'
    cases hr'
    exact h
  case one_parent =>
    intro i hi hir
    rw [hroot] at hir
    exact hF.parent i hi (by simpa using hir)
  case root_weight =>
    have ht := hF.total
    have hw := (hF.q_node r (by simp)).2
    rw [hnode, hroot, ← hw]
    simp only [List.map_cons, List.map_nil, List.sum_cons, List.sum_nil, Nat.add_zero] at ht
    rw [ht]
    refine Nat.lt_of_le_of_lt hsum ?_
    simp only [rebuild_params, Params.nsym, Params.maxCount, Params.wgtW]
    rw [Nat.pow_add, Nat.mul_comm (2 ^ s.params.cntW)]
    have h1 := Nat.two_pow_pos s.params.cntW
    exact Nat.mul_lt_mul_of_pos_left (by omega) (Nat.two_pow_pos _)
  case code_path =>
    intro i hi
    rw [hcode] at hi
    have := (hG i).2.2 hi
    rw [hcode, hnode, hroot]
    split
    next hl => simpa [hl] using this
    next hl => simp only [hl] at this; exact this.1
  case code_none => intro i hi; rw [hcode] at hi ⊢; exact (hG i).2.1 hi
  case code_len =>
    intro i hi
    rw [hcode] at hi
    have := (hG i).2.2 hi
    rw [hcode]
    simp only [CodeEntry.len, rebuild_params, Params.maxCode]
    split at this
    next hl =>
      have h2 := two_le_nsym hp
      rw [this.2]
      simp; omega
    · omega

end Sys2Proof.Machine
end

