-- ==== Sys2Proof/Laws/Decoding.lean ====
section
/-! SUPPORT. The decoder's traversal (spec/44_decoder.md R190 to R200): paths in a valid tree are unique, and what
DEC_BITS does with the bits it is given. -/

namespace Sys2Proof.Machine

namespace TreeInv

variable {s : State}

theorem child_lt (h : TreeInv s) {i : Nat} (b : Bool) (hi : (s.nodeAt i).isInternal) : (s.nodeAt i).child b < i := by
  obtain ⟨w, l, r, hr⟩ := Node.isInternal_iff.mp hi
  have := h.children i w l r hr
  rw [hr]
  cases b <;> simp [Node.child, Node.left, Node.right] <;> omega

theorem child_ne_empty (h : TreeInv s) {i : Nat} (b : Bool) (hi : (s.nodeAt i).isInternal) :
    s.nodeAt ((s.nodeAt i).child b) ≠ .empty := by
  obtain ⟨w, l, r, hr⟩ := Node.isInternal_iff.mp hi
  have := h.children i w l r hr
  rw [hr]
  cases b <;> simp [Node.child, Node.left, Node.right] <;> tauto

/-- Below an internal node lies a leaf or another internal node (R193: never EMPTY). -/
theorem child_cases (h : TreeInv s) {i : Nat} (b : Bool) (hi : (s.nodeAt i).isInternal) :
    (s.nodeAt ((s.nodeAt i).child b)).isLeaf = true ∨
      ((s.nodeAt ((s.nodeAt i).child b)).isLeaf = false ∧ (s.nodeAt ((s.nodeAt i).child b)).isInternal) := by
  have := h.child_ne_empty b hi
  cases hc : s.nodeAt ((s.nodeAt i).child b) <;> simp_all [Node.isLeaf, Node.isInternal, Node.kind]

theorem le_root (h : TreeInv s) {i : Nat} (hi : (s.nodeAt i).isInternal) : i ≤ s.root := by
  have h1 := (h.internal_iff i).mp hi
  have h2 := h.root_internal (by omega)
  omega

theorem descend_lt (h : TreeInv s) (bits : Bits) (n m : Nat) (hd : descend s.node bits n = some m) (hne : bits ≠ []) :
    m < n := by
  induction bits generalizing n with
  | nil => exact absurd rfl hne
  | cons b bits ih =>
    rw [descend_cons] at hd
    split at hd
    next hi =>
      have hc := h.child_lt b hi
      by_cases hb : bits = []
      · subst hb
        simp only [descend, Option.some.injEq] at hd
        exact hd ▸ hc
      · exact Nat.lt_trans (ih _ hd hb) hc
    · simp at hd

/-- There is one path from ROOT to a node (R27: exactly one parent). -/
theorem path_unique (h : TreeInv s) (p q : Bits) (m : Nat) (hp : descend s.node p s.root = some m)
    (hq : descend s.node q s.root = some m) : p = q := by
  induction p using List.reverseRecOn generalizing q m with
  | nil =>
    simp only [descend, Option.some.injEq] at hp
    by_contra hne
    exact absurd (h.descend_lt q _ _ hq (Ne.symm hne)) (by omega)
  | append_singleton p b ih =>
    induction q using List.reverseRecOn with
    | nil =>
      simp only [descend, Option.some.injEq] at hq
      exact absurd (h.descend_lt _ _ _ hp (by simp)) (by omega)
    | append_singleton q b' =>
      have hlt := h.descend_lt _ _ _ hp (by simp)
      have last : ∀ (t : Bits) (x : Bool), descend s.node (t ++ [x]) s.root = some m →
          ∃ n, descend s.node t s.root = some n ∧ (s.nodeAt n).isInternal ∧ (s.nodeAt n).child x = m := by
        intro t x ht
        rw [descend_append] at ht
        cases hn : descend s.node t s.root with
        | none => simp [hn] at ht
        | some n =>
          rw [hn, Option.bind_some, descend_cons] at ht
          split at ht
          next hi => exact ⟨n, rfl, hi, Option.some.inj ht⟩
          · simp at ht
      obtain ⟨n, h1, h2, h3⟩ := last p b hp
      obtain ⟨n', h1', h2', h3'⟩ := last q b' hq
      have hm : s.nodeAt m ≠ .empty := h3 ▸ h.child_ne_empty b h2
      obtain ⟨e, -, hu⟩ := h.one_parent m hm (by omega)
      have he := (hu (n, b) ⟨h2, h3⟩).trans (hu (n', b') ⟨h2', h3'⟩).symm
      simp only [Prod.mk.injEq] at he
      rw [he.1] at h1
      rw [ih q n' h1 h1', he.2]

/-- The codeword of a symbol is the path to its leaf, and nothing else is (R140). -/
theorem code_of_path (h : TreeInv s) (hr : (s.nodeAt s.root).isLeaf = false) {p : Bits} {c : Nat}
    (hp : descend s.node p s.root = some c) (hl : (s.nodeAt c).isLeaf = true) :
    (s.codeAt c).valid = true ∧ (s.codeAt c).bits = p := by
  have hv := (h.leaf_iff c).mp hl
  refine ⟨hv, ?_⟩
  have := h.code_path c hv
  rw [hr] at this
  exact h.path_unique _ _ c (by simpa using this) hp

end TreeInv

/-! ### One command's bits -/

/-- The state after `k` bits that emitted the symbols `syms` and left the traversal at `m`. -/
def decoded (s : State) (m k : Nat) (syms : List Nat) : State :=
  { s with decCur := m, decNbits := s.decNbits + k, decNsym := s.decNsym + syms.length,
           outputs := s.outputs ++ syms.map fun c => .sym (BitVec.ofNat 16 c) }

theorem decoded_zero (s : State) : decoded s s.decCur 0 [] = s := by simp [decoded]

theorem decoded_decoded (s : State) (m m' k k' : Nat) (a b : List Nat) :
    decoded (decoded s m k a) m' k' b = decoded s m' (k + k') (a ++ b) := by
  simp [decoded, Nat.add_assoc]

theorem decodeBit_leaf (s : State) (b : Bool) (hr : (s.nodeAt s.root).isLeaf = false)
    (hl : (s.nodeAt ((s.nodeAt s.decCur).child b)).isLeaf = true) :
    decodeBit b s = some (decoded s s.root 1 [(s.nodeAt s.decCur).child b], 1) := by
  simp [decodeBit, hr, hl, decodeEmit, emitSym, emit, decoded]

theorem decodeBit_internal (s : State) (b : Bool) (hr : (s.nodeAt s.root).isLeaf = false)
    (hl : (s.nodeAt ((s.nodeAt s.decCur).child b)).isLeaf = false) :
    decodeBit b s = some (decoded s ((s.nodeAt s.decCur).child b) 1 [], 0) := by
  simp [decodeBit, hr, hl, decoded]

theorem decodeBit_one_leaf_zero (s : State) (hr : (s.nodeAt s.root).isLeaf = true) :
    decodeBit false s = some (decoded s s.decCur 1 [s.root], 1) := by
  simp [decodeBit, hr, decodeEmit, emitSym, emit, decoded]

theorem decodeBit_one_leaf_one (s : State) (hr : (s.nodeAt s.root).isLeaf = true) : decodeBit true s = none := by
  simp [decodeBit, hr]

/-- DEC_BITS under an internal ROOT (R193): with `p` the part of a codeword already consumed, the bits complete
the codewords of the symbols emitted, and `rest` is the part of the next one that is left. -/
theorem decodeBits_internal (op : BitVec 8) (bits : Bits) (e : Nat) (s : State) (h : TreeInv s)
    (hr : (s.nodeAt s.root).isInternal) (hc : (s.nodeAt s.decCur).isInternal) (p : Bits)
    (hp : descend s.node p s.root = some s.decCur) :
    ∃ (syms : List Nat) (rest : Bits) (m : Nat),
      p ++ bits = syms.flatMap (fun c => (s.codeAt c).bits) ++ rest ∧ (∀ c ∈ syms, (s.codeAt c).valid = true) ∧
      descend s.node rest s.root = some m ∧ (s.nodeAt m).isInternal ∧
      decodeBits op bits e s = respond .ok (field 0 56 (e + syms.length)) (decoded s m bits.length syms) := by
  have hrl : (s.nodeAt s.root).isLeaf = false := by
    cases hn : s.nodeAt s.root <;> simp_all [Node.isLeaf, Node.isInternal, Node.kind]
  induction bits generalizing s e p with
  | nil => exact ⟨[], p, s.decCur, by simp, by simp, hp, hc, by simp [decodeBits, decoded_zero]⟩
  | cons b bits ih =>
    have hstep : descend s.node (p ++ [b]) s.root = some ((s.nodeAt s.decCur).child b) := by
      rw [descend_append, hp, Option.bind_some, descend_cons]
      exact if_pos hc
    rcases h.child_cases b hc with hl | ⟨hl, hi⟩
    · set c := (s.nodeAt s.decCur).child b with hcdef
      obtain ⟨hv, hb⟩ := h.code_of_path hrl hstep hl
      obtain ⟨syms, rest, m, h1, h2, h3, h4, h5⟩ := ih (e + 1) (decoded s s.root 1 [c]) { h with } hr hr []
        (by simp [descend, decoded]) hrl
      refine ⟨c :: syms, rest, m, ?_, ?_, h3, h4, ?_⟩
      · have h1' : bits = syms.flatMap (fun c => (s.codeAt c).bits) ++ rest := h1
        rw [List.flatMap_cons, hb, List.append_assoc, ← h1']
        simp
      · intro c' hc'
        rcases List.mem_cons.mp hc' with rfl | hc'
        · exact hv
        · exact h2 c' hc'
      · rw [decodeBits, decodeBit_leaf s b hrl hl]
        simp only [List.length_cons]
        rw [h5, decoded_decoded, Nat.add_comm 1 bits.length, show e + 1 + syms.length = e + (syms.length + 1) by omega]
        rfl
    · obtain ⟨syms, rest, m, h1, h2, h3, h4, h5⟩ := ih e (decoded s ((s.nodeAt s.decCur).child b) 1 []) { h with } hr hi
        (p ++ [b]) hstep hrl
      refine ⟨syms, rest, m, (List.append_cons p b bits).trans h1, h2, h3, h4, ?_⟩
      rw [decodeBits, decodeBit_internal s b hrl hl]
      simp only [List.length_cons, Nat.add_zero]
      rw [h5, decoded_decoded, Nat.add_comm 1 bits.length]
      rfl

/-- DEC_BITS under a one-leaf tree, 0 bits only (R194). -/
theorem decodeBits_zeros (op : BitVec 8) (k e : Nat) (s : State) (hr : (s.nodeAt s.root).isLeaf = true) :
    decodeBits op (List.replicate k false) e s =
      respond .ok (field 0 56 (e + k)) (decoded s s.decCur k (List.replicate k s.root)) := by
  induction k generalizing e s with
  | zero => simp [decodeBits, decoded_zero]
  | succ k ih =>
    rw [List.replicate_succ, decodeBits, decodeBit_one_leaf_zero s hr]
    simp only
    rw [ih _ (decoded s s.decCur 1 [s.root]) hr]
    simp only [decoded, List.length_replicate, List.map_replicate]
    simp [List.replicate_succ, Nat.add_assoc, Nat.add_comm 1]

/-- DEC_BITS under a one-leaf tree with a 1 bit after `k` 0 bits (R194). -/
theorem decodeBits_one (op : BitVec 8) (k e : Nat) (bits : Bits) (s : State) (hr : (s.nodeAt s.root).isLeaf = true) :
    decodeBits op (List.replicate k false ++ true :: bits) e s =
      raise .malformedBitstream op 0 (s.decNbits + k) (decAbort (decoded s s.decCur k (List.replicate k s.root))) := by
  induction k generalizing e s with
  | zero => simp [decodeBits, decoded_zero, decodeBit_one_leaf_one s hr]
  | succ k ih =>
    rw [List.replicate_succ, List.cons_append, decodeBits, decodeBit_one_leaf_zero s hr]
    simp only
    rw [ih _ (decoded s s.decCur 1 [s.root]) hr]
    simp only [decoded, List.length_replicate, List.map_replicate]
    simp [List.replicate_succ, Nat.add_assoc, Nat.add_comm 1]

/-- A bit sequence splits in one way into codewords and the beginning of another (R142, R200). -/
theorem split_unique {s : State} (h : TreeInv s) (hr : (s.nodeAt s.root).isInternal) (a b : List Nat) (r r' : Bits) (m m' : Nat)
    (ha : ∀ c ∈ a, (s.codeAt c).valid = true) (hb : ∀ c ∈ b, (s.codeAt c).valid = true)
    (hm : descend s.node r s.root = some m) (hi : (s.nodeAt m).isInternal)
    (hm' : descend s.node r' s.root = some m') (hi' : (s.nodeAt m').isInternal)
    (he : a.flatMap (fun c => (s.codeAt c).bits) ++ r = b.flatMap (fun c => (s.codeAt c).bits) ++ r') : a = b ∧ r = r' := by
  have hrl : (s.nodeAt s.root).isLeaf = false := by
    cases hn : s.nodeAt s.root <;> simp_all [Node.isLeaf, Node.isInternal, Node.kind]
  have path : ∀ c, (s.codeAt c).valid = true →
      descend s.node (s.codeAt c).bits s.root = some c ∧ (s.nodeAt c).isLeaf = true := by
    intro c hc
    have := h.code_path c hc
    rw [hrl] at this
    exact ⟨by simpa using this, (h.leaf_iff c).mpr hc⟩
  have nocode : ∀ (c : Nat) (x y : Bits) (k : Nat), (s.codeAt c).valid = true → descend s.node x s.root = some k →
      (s.nodeAt k).isInternal → (s.codeAt c).bits ++ y = x → False := by
    intro c x y k hc hx hk hxy
    obtain ⟨hd, hl⟩ := path c hc
    have := (descend_prefix_free hd hx hl ⟨y, hxy⟩).1
    subst this
    cases hn : s.nodeAt c <;> simp_all [Node.isLeaf, Node.isInternal, Node.kind]
  induction a generalizing b with
  | nil =>
    cases b with
    | nil => exact ⟨rfl, by simpa using he⟩
    | cons c b =>
      refine (nocode c r (b.flatMap (fun c => (s.codeAt c).bits) ++ r') m (hb c (by simp)) hm hi ?_).elim
      simpa using he.symm
  | cons c a ih =>
    cases b with
    | nil =>
      refine (nocode c r' (a.flatMap (fun c => (s.codeAt c).bits) ++ r) m' (ha c (by simp)) hm' hi' ?_).elim
      simpa using he
    | cons c' b =>
      simp only [List.flatMap_cons, List.append_assoc] at he
      obtain ⟨hd, hl⟩ := path c (ha c (by simp))
      obtain ⟨hd', hl'⟩ := path c' (hb c' (by simp))
      have hcc : c = c' := by
        rcases List.append_eq_append_iff.mp he with ⟨t, ht, -⟩ | ⟨t, ht, -⟩
        · exact (descend_prefix_free hd hd' hl ⟨t, ht.symm⟩).1
        · exact (descend_prefix_free hd' hd hl' ⟨t, ht.symm⟩).1.symm
      subst hcc
      have := ih b (fun x hx => ha x (by simp [hx])) (fun x hx => hb x (by simp [hx])) (List.append_cancel_left he)
      exact ⟨by rw [this.1], this.2⟩

end Sys2Proof.Machine
end

