-- ==== Sys2Proof/Laws/Encoding.lean ====
section
/-! SUPPORT. The fields of a command word (spec/30_encoding.md R70, R71), and what `decode` accepts (R76, R78). -/

namespace Sys2Proof

theorem commandWord_toNat (op : BitVec 8) (n sym imm : Nat) :
    (commandWord op n sym imm).toNat = op.toNat * 2 ^ 56 + n % 2 ^ 8 * 2 ^ 48 + sym % 2 ^ 16 * 2 ^ 32 + imm % 2 ^ 32 := by
  have h : (op ++ BitVec.ofNat 8 n ++ BitVec.ofNat 16 sym ++ BitVec.ofNat 32 imm : BitVec (8 + 8 + 16 + 32)).toNat =
      op.toNat * 2 ^ 56 + n % 2 ^ 8 * 2 ^ 48 + sym % 2 ^ 16 * 2 ^ 32 + imm % 2 ^ 32 := by
    rw [BitVec.toNat_append, BitVec.toNat_append, BitVec.toNat_append,
      ← Nat.shiftLeft_add_eq_or_of_lt (BitVec.ofNat 8 n).isLt, ← Nat.shiftLeft_add_eq_or_of_lt (BitVec.ofNat 16 sym).isLt,
      ← Nat.shiftLeft_add_eq_or_of_lt (BitVec.ofNat 32 imm).isLt]
    simp only [BitVec.toNat_ofNat, Nat.shiftLeft_eq]
    omega
  exact h

theorem opField_toNat (w : Word64) : (opField w).toNat = w.toNat / 2 ^ 56 := by
  have := w.isLt
  simp only [opField, BitVec.extractLsb'_toNat, Nat.shiftRight_eq_div_pow]
  omega

theorem nField_toNat (w : Word64) : (nField w).toNat = w.toNat / 2 ^ 48 % 2 ^ 8 := by
  simp only [nField, BitVec.extractLsb'_toNat, Nat.shiftRight_eq_div_pow]

theorem symField_toNat (w : Word64) : (symField w).toNat = w.toNat / 2 ^ 32 % 2 ^ 16 := by
  simp only [symField, BitVec.extractLsb'_toNat, Nat.shiftRight_eq_div_pow]

theorem immField_toNat (w : Word64) : (immField w).toNat = w.toNat % 2 ^ 32 := by
  simp only [immField, BitVec.extractLsb'_toNat, Nat.shiftRight_zero]

theorem opField_commandWord (op : BitVec 8) (n sym imm : Nat) : opField (commandWord op n sym imm) = op := by
  apply BitVec.eq_of_toNat_eq
  have := op.isLt
  rw [opField_toNat, commandWord_toNat]
  omega

theorem nField_commandWord (op : BitVec 8) (n sym imm : Nat) : (nField (commandWord op n sym imm)).toNat = n % 2 ^ 8 := by
  have := op.isLt
  rw [nField_toNat, commandWord_toNat]
  omega

theorem symField_commandWord (op : BitVec 8) (n sym imm : Nat) :
    (symField (commandWord op n sym imm)).toNat = sym % 2 ^ 16 := by
  have := op.isLt
  rw [symField_toNat, commandWord_toNat]
  omega

theorem immField_commandWord (op : BitVec 8) (n sym imm : Nat) :
    (immField (commandWord op n sym imm)).toNat = imm % 2 ^ 32 := by
  have := op.isLt
  rw [immField_toNat, commandWord_toNat]
  omega

/-- A word is its four fields (R70: they cover all 64 bits). -/
theorem commandWord_fields (w : Word64) :
    commandWord (opField w) (nField w).toNat (symField w).toNat (immField w).toNat = w := by
  apply BitVec.eq_of_toNat_eq
  have := w.isLt
  rw [commandWord_toNat, opField_toNat, nField_toNat, symField_toNat, immField_toNat]
  omega

theorem accept_eq_ok {a b c : Bool} {i j : Instr} :
    accept a b c i = .ok j ↔ a = true ∧ b = true ∧ c = true ∧ i = j := by
  cases a <;> cases b <;> cases c <;> simp [accept]

theorem accept_ok (i : Instr) : accept true true true i = .ok i := rfl

@[simp] theorem NodeSel.ofField_toField (sel : NodeSel) : NodeSel.ofField sel.toField = sel := by cases sel <;> rfl

@[simp] theorem View.ofField_toField (v : View) : View.ofField v.toField = v := by cases v <;> rfl

/-- A selector R132 admits is the field of what it selects. -/
theorem NodeSel.toField_ofField : ∀ sel ≤ 1, (NodeSel.ofField sel).toField = sel := by decide

/-- A view number R211 admits is the field of its view. -/
theorem View.toField_ofField : ∀ v ≤ 8, (View.ofField v).toField = v := by decide

theorem View.toField_le (v : View) : v.toField ≤ 8 := by cases v <;> decide

theorem NodeSel.toField_le (sel : NodeSel) : sel.toField ≤ 1 := by cases sel <;> decide

/-- NSYM, NNODE and 2^CNT_W fit the SYM and IMM fields (R5). -/
theorem Params.legal_bounds {p : Params} (h : p.legal) :
    p.nsym ≤ 2 ^ 16 ∧ p.nnode < 2 ^ 17 ∧ 2 ^ p.cntW ≤ 2 ^ 32 ∧ 2 ^ p.posW ≤ 2 ^ 32 := by
  obtain ⟨-, h2, -, h4, -, h6⟩ := h
  have hn : p.nsym ≤ 2 ^ 16 := Nat.pow_le_pow_right (by omega) h2
  refine ⟨hn, ?_, Nat.pow_le_pow_right (by omega) h4, Nat.pow_le_pow_right (by omega) h6⟩
  unfold Params.nnode
  omega

end Sys2Proof
end

