-- ==== Sys2Proof/Laws/Packer.lean ====
section
/-! SUPPORT. What packing a sequence of bits can do (spec/43_encoder_packer.md R160, R164, R165). -/

namespace Sys2Proof.Machine

/-- The zeros below the packer's pending bits (R29). -/
abbrev PackerZeros (s : State) : Prop := ∀ j, j + s.pkCnt.val < 32 → s.pkBuf.getLsbD j = false

theorem packBit_not_full (b : Bool) (s : State) (h : s.pkCnt ≠ 31) :
    (packBit b s).outputs = s.outputs ∧ (packBit b s).pending = s.pending ++ [b] ∧
      (packBit b s).pkCnt.val = s.pkCnt.val + 1 := by
  have hlt : s.pkCnt.val < 31 := by
    have := s.pkCnt.isLt
    have : s.pkCnt.val ≠ 31 := fun hc => h (Fin.ext hc)
    omega
  have hv : (s.pkCnt + 1).val = s.pkCnt.val + 1 := by
    rw [Fin.val_add]; simp; omega
  simp only [packBit, if_neg h, State.pending, hv, msbBits_setBit _ _ _ s.pkCnt.isLt, and_self]

theorem packBit_full (b : Bool) (s : State) (h : s.pkCnt = 31) :
    ∃ r : BsRecord, r.nbits = 32 ∧ r.last = false ∧ (packBit b s).outputs = s.outputs ++ [.bs r] ∧
      r.bits = s.pending ++ [b] ∧ (packBit b s).pkCnt = 0 ∧ (packBit b s).pkBuf = 0 := by
  refine ⟨⟨setBit s.pkBuf (31 - s.pkCnt.val) b, 32, false⟩, rfl, rfl, ?_, ?_, ?_, ?_⟩
  · simp [packBit, h]
  · have := msbBits_setBit s.pkCnt.val s.pkBuf b s.pkCnt.isLt
    simp only [BsRecord.bits, State.pending]
    rw [← this]
    simp [h]
  · simp [packBit, h]
  · simp [packBit, h]

theorem packBit_zeros (b : Bool) (s : State) (hz : PackerZeros s) : PackerZeros (packBit b s) := by
  by_cases h : s.pkCnt = 31
  · obtain ⟨r, -, -, -, -, hc, hb⟩ := packBit_full b s h
    intro j _
    simp [hb]
  · intro j hj
    rw [(packBit_not_full b s h).2.2] at hj
    simp only [packBit, if_neg h]
    rw [setBit_getLsbD _ _ _ _ (by omega), if_neg (by omega)]
    exact hz j (by omega)

/-- What `packBits` does: full records go out, each as soon as its 32nd bit is packed, and their valid bits
with what stays pending are what was pending and the new bits, in order. -/
theorem packBits_spec (bs : Bits) (s : State) (hz : PackerZeros s) :
    ∃ rs : List BsRecord, (∀ r ∈ rs, r.nbits = 32 ∧ r.last = false) ∧
      (packBits bs s).outputs = s.outputs ++ rs.map .bs ∧
      rs.flatMap BsRecord.bits ++ (packBits bs s).pending = s.pending ++ bs ∧
      32 * rs.length + (packBits bs s).pkCnt.val = s.pkCnt.val + bs.length ∧
      PackerZeros (packBits bs s) := by
  induction bs generalizing s with
  | nil => exact ⟨[], by simp, by simp [packBits], by simp [packBits], by simp [packBits], hz⟩
  | cons b bs ih =>
    obtain ⟨rs, h1, h2, h3, h4, h5⟩ := ih (packBit b s) (packBit_zeros b s hz)
    by_cases h : s.pkCnt = 31
    · obtain ⟨r, r1, r2, ro, rb, rc, rp⟩ := packBit_full b s h
      have hp : (packBit b s).pending = [] := by simp [State.pending, rc]
      refine ⟨r :: rs, ?_, ?_, ?_, ?_, h5⟩
      · rintro r' hr'
        rcases List.mem_cons.mp hr' with rfl | hr'
        · exact ⟨r1, r2⟩
        · exact h1 r' hr'
      · simp [packBits, h2, ro]
      · rw [hp, List.nil_append] at h3
        simp [packBits, rb, List.append_assoc, h3]
      · rw [rc] at h4
        simp only [packBits, List.length_cons, h]
        simp at h4 ⊢
        omega
    · obtain ⟨ho, hp, hc⟩ := packBit_not_full b s h
      refine ⟨rs, h1, ?_, ?_, ?_, h5⟩
      · simp [packBits, h2, ho]
      · rw [hp] at h3
        simp [packBits, h3]
      · simp only [packBits, List.length_cons]
        omega

end Sys2Proof.Machine
end

