-- ==== Sys2Proof/Laws/Invariant.lean ====
section
/-! SUPPORT. Every operation and every command keeps the invariant of Sys2Proof/Safety.lean. -/

namespace Sys2Proof.Machine

/-- `TreeInv` reads the tree and the code table only. -/
theorem TreeInv.congr {s t : State} (h : TreeInv s) (hp : t.params = s.params) (hn : t.node = s.node)
    (hr : t.root = s.root) (hl : t.nleaves = s.nleaves) (hc : t.code = s.code) : TreeInv t := by
  obtain ⟨params, freq, node, root, nleaves, treeValid, code, _, _, _, _, _, _, _, _, _, _, _, _⟩ := t
  simp only at hp hn hr hl hc
  subst hp hn hr hl hc
  exact { h with }

/-! ### Outputs -/

theorem Output.wf_rsp (p : Params) (st : Status) (d : Data56) : Output.wf p (.rsp (responseWord st d)) := ⟨st, d, rfl⟩

theorem Output.wf_sym {p : Params} (hp : p.legal) {sym : Nat} (h : sym < p.nsym) :
    Output.wf p (.sym (BitVec.ofNat 16 sym)) := by
  have := Params.legal_bounds hp
  simp only [Output.wf, BitVec.toNat_ofNat]
  rw [Nat.mod_eq_of_lt (by omega)]
  exact h

theorem State.Inv.emit {s : State} (h : s.Inv) {o : Output} (ho : o.wf s.params) : (emit o s).Inv :=
  { h with
    tree := fun hv => (h.tree hv).congr rfl rfl rfl rfl rfl
    outputsOk := fun o' ho' => by
      rcases List.mem_append.mp ho' with ho' | ho'
      · exact h.outputsOk o' ho'
      · rw [List.mem_singleton.mp ho']; exact ho }

theorem State.Inv.respond {s : State} (h : s.Inv) (st : Status) (d : Data56) : (respond st d s).Inv :=
  h.emit (Output.wf_rsp s.params st d)

theorem State.Inv.raise {s : State} (h : s.Inv) (e : Status) (op : BitVec 8) (sym pos : Nat) : (raise e op sym pos s).Inv :=
  State.Inv.respond (s := { s with lastErr := ⟨e, op, BitVec.ofNat 16 sym, BitVec.ofNat 32 pos⟩ })
    { h with tree := fun hv => (h.tree hv).congr rfl rfl rfl rfl rfl } e _

/-! ### The registers -/

theorem State.Inv.encAbort {s : State} (h : s.Inv) : (encAbort s).Inv :=
  { h with
    tree := fun hv => (h.tree hv).congr rfl rfl rfl rfl rfl
    packer := fun ho => by simp at ho
    packerClosed := fun _ => ⟨rfl, rfl⟩
    packerZeros := fun j _ => by simp }

theorem State.Inv.decAbort {s : State} (h : s.Inv) : (decAbort s).Inv :=
  { h with
    tree := fun hv => (h.tree hv).congr rfl rfl rfl rfl rfl
    decCurOk := fun ho => by simp at ho }

theorem State.Inv.setCount {s : State} (h : s.Inv) {sym c : Nat} (hs : sym < s.params.nsym) (hc : c ≤ s.params.maxCount) :
    (s.setCount sym c).Inv :=
  { h with
    memory := ⟨Table.wf_write h.memory.1 hs, h.memory.2⟩
    tree := fun hv => (h.tree hv).congr rfl rfl rfl rfl rfl
    counts := fun i => by
      rw [setCount_count]
      split
      · exact hc
      · exact h.counts i }

/-- ROOT is a node index, in every state (R25). -/
theorem State.Inv.root_lt {s : State} (h : s.Inv) : s.root < s.params.nnode := by
  have h2 := two_le_nsym h.legal
  have hn : s.params.nnode = 2 * s.params.nsym - 1 := rfl
  cases hv : s.treeValid with
  | false => rw [(h.noTree hv).2.2.1]; omega
  | true =>
    have ht := h.tree hv
    have hl := ht.leaves
    by_cases h1 : s.nleaves = 1
    · have := ht.leaf_lt _ (ht.root_leaf h1); omega
    · have := ht.root_internal (by omega); omega

theorem State.Inv.node_lt {s : State} (h : s.Inv) {i : Nat} (hi : s.nodeAt i ≠ .empty) : i < s.params.nnode := by
  by_contra hc
  exact hi (Table.read_of_le h.memory.2.1 (by omega))

theorem resetWith_inv {p : Params} (hp : p.legal) : (State.resetWith p).Inv := by
  have h2 := two_le_nsym hp
  exact {
    legal := hp
    memory := ⟨Table.wf_nil _, Table.wf_nil _, Table.wf_nil _⟩
    counts := fun _ => Nat.zero_le _
    tree := fun h => by simp [State.resetWith] at h
    noTree := fun _ => ⟨rfl, rfl, rfl, rfl⟩
    encCounts := ⟨Nat.le_refl _, Nat.zero_le _⟩
    packer := fun h => by simp [State.resetWith] at h
    packerClosed := fun _ => ⟨rfl, rfl⟩
    packerZeros := fun j _ => by simp [State.resetWith]
    decCounts := ⟨Nat.le_refl _, Nat.zero_le _⟩
    decCurOk := fun h => by simp [State.resetWith] at h
    decCurLt := by
      show 0 < 2 * p.nsym - 1
      omega
    outputsOk := fun o ho => by simp [State.resetWith] at ho }

theorem State.Inv.takeReset {s : State} (h : s.Inv) : (takeReset s).Inv :=
  { resetWith_inv h.legal with
    tree := fun hv => by simp [Machine.takeReset, State.resetWith] at hv
    outputsOk := h.outputsOk }

theorem State.Inv.withInputs {s : State} (h : s.Inv) (is : List HostInput) : ({ s with inputs := is } : State).Inv :=
  { h with tree := fun hv => (h.tree hv).congr rfl rfl rfl rfl rfl }

/-! ### The commands -/

variable {s t : State}

theorem execNop_inv (h : s.Inv) (he : execNop s = .next t) : t.Inv := by
  cases he; exact h.respond _ _

theorem execStatusRead_inv (h : s.Inv) (v : View) (he : execStatusRead v s = .next t) : t.Inv := by
  cases he; exact h.respond _ _

theorem execFreqClear_inv (h : s.Inv) (he : execFreqClear s = .next t) : t.Inv := by
  cases he
  exact State.Inv.respond (s := { s with freq := [] })
    { h with
      memory := ⟨Table.wf_nil _, h.memory.2⟩
      counts := fun _ => Nat.zero_le _
      tree := fun hv => (h.tree hv).congr rfl rfl rfl rfl rfl } _ _

theorem execFreqCount_inv (h : s.Inv) {sym : Nat} (hs : sym < s.params.nsym) (he : execFreqCount sym s = .next t) :
    t.Inv := by
  unfold execFreqCount at he
  split at he
  · cases he; exact h.raise _ _ _ _
  next hne =>
    cases he
    have := h.counts sym
    exact (h.setCount hs (by omega)).respond _ _

theorem execFreqSet_inv (h : s.Inv) {sym c : Nat} (hs : sym < s.params.nsym) (hc : c < 2 ^ s.params.cntW)
    (he : execFreqSet sym c s = .next t) : t.Inv := by
  cases he
  exact (h.setCount hs (by unfold Params.maxCount; omega)).respond _ _

theorem execFreqRead_inv (h : s.Inv) {sym : Nat} (he : execFreqRead sym s = .next t) : t.Inv := by
  cases he; exact h.respond _ _

theorem execNodeRead_inv (h : s.Inv) {i : Nat} (sel : NodeSel) (he : execNodeRead i sel s = .next t) : t.Inv := by
  cases sel <;> cases he <;> exact h.respond _ _

theorem execCodeRead_inv (h : s.Inv) {sym k : Nat} (he : execCodeRead sym k s = .next t) : t.Inv := by
  cases he; exact h.respond _ _

theorem execEncStart_inv (h : s.Inv) (he : execEncStart s = .next t) : t.Inv := by
  unfold execEncStart at he
  split at he <;> cases he
  · exact h.raise _ _ _ _
  · exact State.Inv.respond (s := { s with encOpen := true, encNsym := 0, encNbits := 0, pkBuf := 0, pkCnt := 0 })
      { h with
        tree := fun hv => (h.tree hv).congr rfl rfl rfl rfl rfl
        encCounts := ⟨Nat.le_refl _, Nat.zero_le _⟩
        packer := fun _ => rfl
        packerClosed := fun hc => by simp at hc
        packerZeros := fun j _ => by simp } _ _

theorem execEncEnd_inv (h : s.Inv) (he : execEncEnd s = .next t) : t.Inv := by
  unfold execEncEnd at he
  split at he <;> cases he
  · exact h.raise _ _ _ _
  · have hrec : Output.wf s.params (.bs ⟨s.pkBuf, s.pkCnt.val, true⟩) := by
      refine ⟨by simp, fun _ => ?_, h.packerZeros⟩
      have := s.pkCnt.isLt
      simp only
      omega
    exact ((h.emit hrec).encAbort).respond _ _

/-- ENC_SYM of a symbol with a codeword, in an open message that it fits. -/
theorem encSym_inv (h : s.Inv) (ho : s.encOpen = true) {sym : Nat} (hv : (s.codeAt sym).valid = true)
    (hlen : s.encNbits + (s.codeAt sym).len ≤ s.params.maxLen) :
    ({ packBits (s.codeAt sym).bits s with
        encNbits := s.encNbits + (s.codeAt sym).len, encNsym := s.encNsym + 1 } : State).Inv := by
  obtain ⟨rs, h1, h2, h3, h4, h5⟩ := packBits_spec (s.codeAt sym).bits s h.packerZeros
  have htv : s.treeValid = true := by
    by_contra hc
    have := (h.noTree (by simpa using hc)).2.1
    simp [State.codeAt, this, CodeEntry.none] at hv
  have ht := h.tree htv
  have hl := (ht.code_len sym hv).1
  have hpk := h.packer ho
  refine { h with tree := ?_, memory := ?_, counts := ?_, noTree := ?_, encCounts := ?_, packer := ?_, packerClosed := ?_,
                  packerZeros := h5, decCurOk := ?_, legal := ?_, decCounts := ?_, decCurLt := ?_, outputsOk := ?_ }
  · simpa using h.legal
  · simpa [Memory.wf] using h.memory
  · simp only [packBits_params, State.count, packBits_freq]
    exact h.counts
  · intro _; exact ht.congr (by simp) (by simp) (by simp) (by simp) (by simp)
  · simpa using h.noTree
  · have := h.encCounts
    simp only [packBits_params]
    omega
  · intro _
    have hlt := (packBits (s.codeAt sym).bits s).pkCnt.isLt
    simp only
    have : (s.codeAt sym).len = (s.codeAt sym).bits.length := rfl
    omega
  · intro hc; simp [ho] at hc
  · simpa using h.decCounts
  · simp only [packBits_decOpen, packBits_decCur, packBits_root, State.nodeAt, packBits_node]
    exact h.decCurOk
  · simpa using h.decCurLt
  · intro o hm
    simp only [packBits_params]
    rw [h2] at hm
    rcases List.mem_append.mp hm with hm | hm
    · exact h.outputsOk o hm
    · obtain ⟨r, hr, rfl⟩ := List.mem_map.mp hm
      obtain ⟨hn, hl⟩ := h1 r hr
      exact ⟨fun _ => hn, fun hc => by simp [hl] at hc, fun j hj => by omega⟩

theorem execEncSym_inv (h : s.Inv) {sym : Nat} (he : execEncSym sym s = .next t) : t.Inv := by
  unfold execEncSym at he
  simp only at he
  split at he
  · cases he; exact h.raise _ _ _ _
  next ho =>
    split at he
    · cases he; exact h.encAbort.raise _ _ _ _
    next hv =>
      split at he
      · cases he; exact h.encAbort.raise _ _ _ _
      next hlen =>
        cases he
        refine State.Inv.respond ?_ _ _
        simpa using encSym_inv h (by simpa using ho) (by simpa using hv) (by omega)

theorem execDecStart_inv (h : s.Inv) (he : execDecStart s = .next t) : t.Inv := by
  unfold execDecStart at he
  split at he <;> cases he
  · exact h.raise _ _ _ _
  · refine State.Inv.respond (s := { s with decOpen := true, decCur := s.root, decNbits := 0, decNsym := 0 })
      { h with
        tree := fun hv => (h.tree hv).congr rfl rfl rfl rfl rfl
        decCounts := ⟨Nat.le_refl _, Nat.zero_le _⟩
        decCurOk := fun _ => ?_
        decCurLt := h.root_lt } _ _
    show if (s.nodeAt s.root).isInternal then (s.nodeAt s.root).isInternal else s.root = s.root
    split
    · assumption
    · rfl

theorem execDecEnd_inv (h : s.Inv) (he : execDecEnd s = .next t) : t.Inv := by
  unfold execDecEnd at he
  simp only at he
  split at he
  · cases he; exact h.raise _ _ _ _
  · split at he <;> cases he
    · exact h.decAbort.raise _ _ _ _
    · exact h.decAbort.respond _ _

/-- The decoder after `k` bits that emitted these symbols. -/
theorem State.Inv.decoded (h : s.Inv) {m k : Nat} {syms : List Nat} (hk : syms.length ≤ k)
    (hn : s.decNbits + k ≤ s.params.maxLen) (hs : ∀ c ∈ syms, c < s.params.nsym) (hm : m < s.params.nnode)
    (hcur : s.decOpen = true → if (s.nodeAt s.root).isInternal then (s.nodeAt m).isInternal else m = s.root) :
    (decoded s m k syms).Inv :=
  { h with
    tree := fun hv => (h.tree hv).congr rfl rfl rfl rfl rfl
    decCounts := by
      have := h.decCounts
      simp only [Machine.decoded]
      omega
    decCurOk := hcur
    decCurLt := hm
    outputsOk := fun o ho => by
      rcases List.mem_append.mp ho with ho | ho
      · exact h.outputsOk o ho
      · obtain ⟨c, hc, rfl⟩ := List.mem_map.mp ho
        exact Output.wf_sym h.legal (hs c hc) }

/-- Every path ends: a path to ROOT's node `decCur` is there in an open message. -/
theorem TreeInv.reach (h : TreeInv s) (i : Nat) (hi : s.nodeAt i ≠ .empty) :
    ∃ bits, descend s.node bits s.root = some i := by
  have hlt : ∀ j, (s.nodeAt j).isInternal → j < s.params.nsym + s.nleaves := fun j hj => by
    have := (h.internal_iff j).mp hj; omega
  induction hk : s.params.nsym + s.nleaves - i using Nat.strong_induction_on generalizing i with
  | _ k ih =>
    by_cases hr : i = s.root
    · exact ⟨[], by simp [descend, hr]⟩
    · obtain ⟨⟨j, b⟩, ⟨h1, h2⟩, -⟩ := h.one_parent i hi hr
      have hc := h.child_lt b h1
      simp only at h1 h2 hc
      rw [h2] at hc
      have hj := hlt j h1
      have hne : s.nodeAt j ≠ .empty := by intro h0; simp [Node.isInternal, h0, Node.kind] at h1
      obtain ⟨bits, hb⟩ := ih (s.params.nsym + s.nleaves - j) (by omega) j hne rfl
      refine ⟨bits ++ [b], ?_⟩
      rw [descend_append, hb, Option.bind_some, descend_cons]
      show (if (s.nodeAt j).isInternal then some ((s.nodeAt j).child b) else none) = some i
      rw [if_pos h1, h2]

/-- ROOT of a present tree is a leaf or an internal node. -/
theorem TreeInv.root_cases (h : TreeInv s) :
    ((s.nodeAt s.root).isLeaf = true ∧ ¬ (s.nodeAt s.root).isInternal) ∨ (s.nodeAt s.root).isInternal := by
  by_cases h1 : s.nleaves = 1
  · have := h.root_leaf h1
    refine .inl ⟨this, fun hc => ?_⟩
    cases hn : s.nodeAt s.root <;> simp_all [Node.isLeaf, Node.isInternal, Node.kind]
  · have hl := h.leaves
    have := h.root_internal (by omega)
    exact .inr ((h.internal_iff _).mpr (by omega))

theorem syms_length_le {s : State} (h : TreeInv s) (syms : List Nat) (p bits rest : Bits)
    (hv : ∀ c ∈ syms, (s.codeAt c).valid = true) :
    p ++ bits = syms.flatMap (fun c => (s.codeAt c).bits) ++ rest → syms.length ≤ p.length + bits.length := by
  intro he
  have h1 : syms.length ≤ (syms.flatMap fun c => (s.codeAt c).bits).length := by
    clear he
    induction syms with
    | nil => simp
    | cons c syms ih =>
      have := (h.code_len c (hv c (by simp))).1
      have h2 := ih fun c hc => hv c (by simp [hc])
      simp only [List.flatMap_cons, List.length_append, List.length_cons, CodeEntry.len] at *
      omega
  have h2 := congrArg List.length he
  simp only [List.length_append] at h2
  omega

/-- DEC_BITS in an open message, with a tree and room for its bits: the bits complete the codewords of `syms` and
leave `rest` of the next; or, under a one-leaf tree, they are 0s, or 0s and a 1 that ends the message. -/
theorem decodeBits_inv (h : s.Inv) (ho : s.decOpen = true) (htv : s.treeValid = true) (op : BitVec 8) (bits : Bits) (e : Nat)
    (hn : s.decNbits + bits.length ≤ s.params.maxLen) : (decodeBits op bits e s).Inv := by
  have ht := h.tree htv
  have hcur := h.decCurOk ho
  induction bits generalizing s e with
  | nil => exact h.respond _ _
  | cons b bits ih =>
    simp only [List.length_cons] at hn
    rw [decodeBits]
    rcases ht.root_cases with ⟨hl, hni⟩ | hi
    · cases b with
      | true =>
        rw [decodeBit_one_leaf_one s hl]
        exact h.decAbort.raise _ _ _ _
      | false =>
        rw [decodeBit_one_leaf_zero s hl]
        have hd : (Machine.decoded s s.decCur 1 [s.root]).Inv :=
          h.decoded (by simp) (by omega) (by simpa using ht.leaf_lt _ hl) h.decCurLt fun _ => hcur
        exact ih hd ho htv _ (by simp only [Machine.decoded]; omega) (hd.tree htv) (hd.decCurOk ho)
    · have hrl : (s.nodeAt s.root).isLeaf = false := by
        cases hn : s.nodeAt s.root <;> simp_all [Node.isLeaf, Node.isInternal, Node.kind]
      rw [if_pos hi] at hcur
      rcases ht.child_cases b hcur with hl | ⟨hl, hci⟩
      · rw [decodeBit_leaf s b hrl hl]
        have hd : (Machine.decoded s s.root 1 [(s.nodeAt s.decCur).child b]).Inv :=
          h.decoded (by simp) (by omega) (by simpa using ht.leaf_lt _ hl) h.root_lt fun _ => by
            rw [if_pos hi]; exact hi
        exact ih hd ho htv _ (by simp only [Machine.decoded]; omega) (hd.tree htv) (hd.decCurOk ho)
      · rw [decodeBit_internal s b hrl hl]
        have hne : s.nodeAt ((s.nodeAt s.decCur).child b) ≠ .empty := ht.child_ne_empty b hcur
        have hd : (Machine.decoded s ((s.nodeAt s.decCur).child b) 1 []).Inv :=
          h.decoded (by simp) (by omega) (by simp) (h.node_lt hne) fun _ => by
            rw [if_pos hi]; exact hci
        exact ih hd ho htv _ (by simp only [Machine.decoded]; omega) (hd.tree htv) (hd.decCurOk ho)

theorem execDecBits_inv (h : s.Inv) {n : Nat} {v : Word32} (he : execDecBits n v s = .next t) : t.Inv := by
  unfold execDecBits at he
  simp only at he
  split at he
  · cases he; exact h.raise _ _ _ _
  next ho =>
    split at he
    · cases he; exact h.decAbort.raise _ _ _ _
    next htv =>
      split at he
      · cases he; exact h.decAbort.raise _ _ _ _
      · cases he
        exact decodeBits_inv h (by simpa using ho) (by simpa using htv) _ _ _ (by simp; omega)

theorem State.Inv.clearTree (h : s.Inv) (hb : s.busy = false) : (clearTree s).Inv := by
  have hc : s.encOpen = false ∧ s.decOpen = false := by simpa [State.busy] using hb
  exact { h with
    memory := ⟨h.memory.1, Table.wf_nil _, Table.wf_nil _⟩
    tree := fun hv => by simp at hv
    noTree := fun _ => ⟨rfl, rfl, rfl, rfl⟩
    decCurOk := fun ho => by simp [hc.2] at ho }

theorem State.Inv.rebuild (h : s.Inv) (hb : s.busy = false) (hne : s.alphabet ≠ []) : (rebuild s.alphabet s).Inv := by
  have hc : s.encOpen = false ∧ s.decOpen = false := by simpa [State.busy] using hb
  have hlt : ∀ i ∈ s.alphabet, i < s.params.nsym := fun i hi => (mem_alphabet.mp hi).1
  obtain ⟨r, seq, hr, hF⟩ := buildTree_forest s.count s.params.nsym s.alphabet (alphabet_pairwise s) hlt hne
  have hw := buildTree_wf s.count s.params.nsym s.alphabet hlt (alphabet_length_le s) (nsym_pos _) (alphabet_pairwise s)
  exact { h with
    memory := ⟨h.memory.1, hw, generateCodes_wf hF _⟩
    tree := fun _ => rebuild_treeInv s h.legal h.counts hne
    noTree := fun hv => by simp at hv
    decCurOk := fun ho => by simp [hc.2] at ho }

theorem execBuild_inv (h : s.Inv) (he : execBuild s = .next t) : t.Inv := by
  unfold execBuild at he
  split at he
  · cases he; exact h.raise _ _ _ _
  next hb =>
    split at he <;> cases he
    · exact (h.clearTree (by simpa using hb)).raise _ _ _ _
    next hne => exact (h.rebuild (by simpa using hb) hne).respond _ _

/-- Every command keeps the invariant. -/
theorem exec_inv (i : Instr) (h : s.Inv) (hw : i.wellFormed s.params = true) (he : exec i s = .next t) : t.Inv := by
  cases i with
  | nop => exact execNop_inv h he
  | freqClear => exact execFreqClear_inv h he
  | freqCount sym => exact execFreqCount_inv h (by simpa [Instr.wellFormed] using hw) he
  | freqSet sym cnt =>
    simp only [Instr.wellFormed, Bool.and_eq_true, decide_eq_true_eq] at hw
    exact execFreqSet_inv h hw.1 hw.2 he
  | freqRead sym => exact execFreqRead_inv h he
  | build => exact execBuild_inv h he
  | nodeRead idx sel => exact execNodeRead_inv h sel he
  | codeRead sym chunk => exact execCodeRead_inv h he
  | statusRead view => exact execStatusRead_inv h view he
  | encStart => exact execEncStart_inv h he
  | encSym sym => exact execEncSym_inv h he
  | encEnd => exact execEncEnd_inv h he
  | decStart => exact execDecStart_inv h he
  | decBits n v => exact execDecBits_inv h he
  | decEnd => exact execDecEnd_inv h he

end Sys2Proof.Machine
end

