-- ==== Sys2Proof/Laws/PerInstr.lean ====
section
/-! SUPPORT. The family OperandsFit: a well-formed command's operands fit the N, SYM and IMM fields of its word
(spec/30_encoding.md R70, R78), one lemma a constructor. -/

namespace Sys2Proof.Laws.OperandsFit

/-- The operands of `i` fit their fields, for every legal choice of parameters. -/
def Statement (i : Instr) : Prop :=
  ∀ p : Params, p.legal → i.wellFormed p = true →
    i.nOperand < 2 ^ 8 ∧ i.symOperand < 2 ^ 16 ∧ i.immOperand < 2 ^ 32

theorem nop : Statement .nop := fun _ _ _ => by simp [Instr.nOperand, Instr.symOperand, Instr.immOperand]

theorem freqClear : Statement .freqClear := fun _ _ _ => by simp [Instr.nOperand, Instr.symOperand, Instr.immOperand]

theorem freqCount (sym : Nat) : Statement (.freqCount sym) := fun _ hp h => by
  have := Params.legal_bounds hp
  simp [Instr.nOperand, Instr.symOperand, Instr.immOperand, Instr.wellFormed] at *; omega

theorem freqSet (sym cnt : Nat) : Statement (.freqSet sym cnt) := fun _ hp h => by
  have := Params.legal_bounds hp
  simp [Instr.nOperand, Instr.symOperand, Instr.immOperand, Instr.wellFormed] at *; omega

theorem freqRead (sym : Nat) : Statement (.freqRead sym) := fun _ hp h => by
  have := Params.legal_bounds hp
  simp [Instr.nOperand, Instr.symOperand, Instr.immOperand, Instr.wellFormed] at *; omega

theorem build : Statement .build := fun _ _ _ => by simp [Instr.nOperand, Instr.symOperand, Instr.immOperand]

theorem nodeRead (idx : Nat) (sel : NodeSel) : Statement (.nodeRead idx sel) := fun _ hp h => by
  have := Params.legal_bounds hp
  have := NodeSel.toField_le sel
  simp [Instr.nOperand, Instr.symOperand, Instr.immOperand, Instr.wellFormed] at *; omega

theorem codeRead (sym chunk : Nat) : Statement (.codeRead sym chunk) := fun _ hp h => by
  have := Params.legal_bounds hp
  simp [Instr.nOperand, Instr.symOperand, Instr.immOperand, Instr.wellFormed] at *; omega

theorem statusRead (view : View) : Statement (.statusRead view) := fun _ _ _ => by
  have := View.toField_le view
  simp [Instr.nOperand, Instr.symOperand, Instr.immOperand]; omega

theorem encStart : Statement .encStart := fun _ _ _ => by simp [Instr.nOperand, Instr.symOperand, Instr.immOperand]

theorem encSym (sym : Nat) : Statement (.encSym sym) := fun _ hp h => by
  have := Params.legal_bounds hp
  simp [Instr.nOperand, Instr.symOperand, Instr.immOperand, Instr.wellFormed] at *; omega

theorem encEnd : Statement .encEnd := fun _ _ _ => by simp [Instr.nOperand, Instr.symOperand, Instr.immOperand]

theorem decStart : Statement .decStart := fun _ _ _ => by simp [Instr.nOperand, Instr.symOperand, Instr.immOperand]

theorem decBits (n : Nat) (v : Word32) : Statement (.decBits n v) := fun _ _ h => by
  have := v.isLt
  simp [Instr.nOperand, Instr.symOperand, Instr.immOperand, Instr.wellFormed] at *; omega

theorem decEnd : Statement .decEnd := fun _ _ _ => by simp [Instr.nOperand, Instr.symOperand, Instr.immOperand]

/-- All constructors. -/
theorem all (i : Instr) : Statement i := by
  cases i with
  | nop => exact nop
  | freqClear => exact freqClear
  | freqCount sym => exact freqCount sym
  | freqSet sym cnt => exact freqSet sym cnt
  | freqRead sym => exact freqRead sym
  | build => exact build
  | nodeRead idx sel => exact nodeRead idx sel
  | codeRead sym chunk => exact codeRead sym chunk
  | statusRead view => exact statusRead view
  | encStart => exact encStart
  | encSym sym => exact encSym sym
  | encEnd => exact encEnd
  | decStart => exact decStart
  | decBits n v => exact decBits n v
  | decEnd => exact decEnd

end Sys2Proof.Laws.OperandsFit
end

