-- ==== Sys2Proof/Laws/Answers.lean ====
section
/-! SUPPORT. What the shared operations `respond` and `raise` do, said in the terms of the statements
(`State.answered`, `State.errored`), and the number a command's word is. -/

namespace Sys2Proof.Machine

/-- A response OK appends one word to the outputs and nothing else. -/
theorem respond_ok_answered (s : State) {d : Data56} (n : Nat) (h : BitVec.ofNat 56 n = d) :
    respond .ok d s = s.answered [] n := by
  subst h
  simp [respond, emit, State.answered, responseWord, Status.bits]

/-- Raising an error writes LAST_ERR and appends one response, and nothing else (R234). -/
theorem raise_errored (e : Status) (op : BitVec 8) (sym pos : Nat) (s : State) :
    raise e op sym pos s = s.errored e op (BitVec.ofNat 16 sym) (BitVec.ofNat 32 pos) := by
  simp only [raise, respond, emit, State.errored, responseWord_err]

theorem field_zero_56 (n : Nat) : field 0 56 n = BitVec.ofNat 56 n := by
  apply BitVec.eq_of_toNat_eq
  rw [field_toNat _ _ _ (by omega)]
  simp

/-- The word of a command as a number: its four fields at their places (R70). -/
theorem encode_toNat (i : Instr) {p : Params} (hp : p.legal) (hw : i.wellFormed p = true) :
    (encode i).toNat = i.op.toNat * 2 ^ 56 + i.nOperand * 2 ^ 48 + i.symOperand * 2 ^ 32 + i.immOperand := by
  obtain ⟨h1, h2, h3⟩ := Laws.OperandsFit.all i p hp hw
  rw [encode, commandWord_toNat, Nat.mod_eq_of_lt h1, Nat.mod_eq_of_lt h2, Nat.mod_eq_of_lt h3]

theorem decodeBits_params (op : BitVec 8) (bits : Bits) (e : Nat) (s : State) : (decodeBits op bits e s).params = s.params := by
  induction bits generalizing e s with
  | nil => rfl
  | cons b bits ih =>
    rw [decodeBits]
    cases h : decodeBit b s with
    | none => rfl
    | some x =>
      obtain ⟨t, k⟩ := x
      simp only [ih]
      unfold decodeBit at h
      simp only at h
      repeat' split at h
      all_goals cases h
      all_goals rfl

theorem responseWord_inj {e e' : Status} {d d' : Data56} (h : responseWord e d = responseWord e' d') : e = e' ∧ d = d' := by
  constructor
  · have h1 := responseWord_status e d
    rw [h, responseWord_status] at h1
    exact Status.bits_injective h1.symm
  · have h1 := responseWord_data e d
    rw [h, responseWord_data] at h1
    exact h1.symm

/-- An output sequence ends with one response in one way. -/
theorem outputs_inj {os os' : List Output} {e e' : Status} {d d' : Data56}
    (h : os ++ [.rsp (responseWord e d)] = os' ++ [.rsp (responseWord e' d')]) : os = os' ∧ e = e' ∧ d = d' := by
  obtain ⟨h1, h2⟩ := List.append_inj' h (by simp only [List.length_cons, List.length_nil])
  simp only [List.cons.injEq, Output.rsp.injEq, and_true] at h2
  exact ⟨h1, responseWord_inj h2⟩

/-- A command answers a next state, which has the same parameters (R10, R22). -/
theorem exec_params (i : Instr) (s : State) : ∃ t, exec i s = .next t ∧ t.params = s.params := by
  cases i <;> unfold exec
  case freqCount sym => simp only [execFreqCount]; split <;> exact ⟨_, rfl, rfl⟩
  case build => simp only [execBuild]; (repeat' split) <;> exact ⟨_, rfl, rfl⟩
  case nodeRead idx sel => cases sel <;> exact ⟨_, rfl, rfl⟩
  case encStart => simp only [execEncStart]; split <;> exact ⟨_, rfl, rfl⟩
  case encSym sym => simp only [execEncSym]; (repeat' split) <;> refine ⟨_, rfl, ?_⟩ <;> simp
  case encEnd => simp only [execEncEnd]; split <;> exact ⟨_, rfl, rfl⟩
  case decStart => simp only [execDecStart]; split <;> exact ⟨_, rfl, rfl⟩
  case decBits n v => simp only [execDecBits]; (repeat' split) <;> refine ⟨_, rfl, ?_⟩ <;> simp [decodeBits_params]
  case decEnd => simp only [execDecEnd]; (repeat' split) <;> exact ⟨_, rfl, rfl⟩
  all_goals exact ⟨_, rfl, rfl⟩

/-- Well-formed commands, given one after another, keep the invariant. -/
theorem execAll_inv (is : List Instr) (s : State) (h : s.Inv) (hw : ∀ i ∈ is, i.wellFormed s.params = true) :
    ∃ t, execAll is s = .next t ∧ t.Inv ∧ t.params = s.params := by
  induction is generalizing s with
  | nil => exact ⟨s, rfl, h, rfl⟩
  | cons i is ih =>
    obtain ⟨t, he, hp⟩ := exec_params i s
    obtain ⟨u, hu, hi, hup⟩ := ih t (exec_inv i h (hw i (by simp)) he) fun j hj => by rw [hp]; exact hw j (by simp [hj])
    exact ⟨u, by simpa [execAll, he] using hu, hi, hup.trans hp⟩

end Sys2Proof.Machine
end

