-- ==== Sys2Proof/Laws/Messages.lean ====
section
/-! SUPPORT. What the commands inside one message do together: a sequence of ENC_SYM
(spec/43_encoder_packer.md R162, R164, R170) and a sequence of DEC_BITS (spec/44_decoder.md R192, R193). -/

namespace Sys2Proof.Machine

theorem execAll_append (is js : List Instr) (s : State) :
    execAll (is ++ js) s =
      match execAll is s with
      | .next t => execAll js t
      | .fault r => .fault r
      | .refused r => .refused r := by
  induction is generalizing s with
  | nil => rfl
  | cons i is ih =>
    simp only [List.cons_append, execAll]
    cases exec i s with
    | next t => exact ih t
    | fault r => rfl
    | refused r => rfl

theorem bsRecords_append (a b : List Output) : bsRecords (a ++ b) = bsRecords a ++ bsRecords b := by simp [bsRecords]

theorem symRecords_append (a b : List Output) : symRecords (a ++ b) = symRecords a ++ symRecords b := by simp [symRecords]

@[simp] theorem bsRecords_map_bs (rs : List BsRecord) : bsRecords (rs.map .bs) = rs := by
  induction rs with
  | nil => rfl
  | cons r rs ih => simp [bsRecords]

/-- ENC_SYM of a symbol with a codeword, in an open message that it fits (R162). -/
theorem exec_encSym_fits {s : State} (ho : s.encOpen = true) {sym : Nat} (hv : (s.codeAt sym).valid = true)
    (hlen : s.encNbits + (s.codeAt sym).len ≤ s.params.maxLen) :
    exec (.encSym sym) s = .next (respond .ok
      (field 32 16 (s.codeAt sym).len ||| field 0 32 (s.encNbits + (s.codeAt sym).len))
      { packBits (s.codeAt sym).bits s with
          encNbits := s.encNbits + (s.codeAt sym).len, encNsym := s.encNsym + 1 }) := by
  have hx : exec (.encSym sym) s = execEncSym sym s := rfl
  rw [hx]
  unfold execEncSym
  simp only [ho, hv, Bool.true_eq_false, if_false]
  rw [if_neg (by omega)]
  simp

/-- The ENC_SYM commands of an open message that has room for them all. -/
theorem encSyms_spec (t : List Nat) (s : State) (h : s.Inv) (ho : s.encOpen = true)
    (hv : ∀ c ∈ t, (s.codeAt c).valid = true)
    (hlen : s.encNbits + (t.flatMap fun c => (s.codeAt c).bits).length ≤ s.params.maxLen) :
    ∃ (u : State) (os : List Output), execAll (t.map .encSym) s = .next u ∧ u.Inv ∧ u.encOpen = true ∧
      u.outputs = s.outputs ++ os ∧ (∀ r ∈ bsRecords os, r.nbits = 32 ∧ r.last = false) ∧
      (bsRecords os).flatMap BsRecord.bits ++ u.pending = s.pending ++ t.flatMap (fun c => (s.codeAt c).bits) ∧
      32 * (bsRecords os).length + u.pkCnt.val = s.pkCnt.val + (t.flatMap fun c => (s.codeAt c).bits).length ∧
      u.encNbits = s.encNbits + (t.flatMap fun c => (s.codeAt c).bits).length ∧ u.encNsym = s.encNsym + t.length ∧
      u.params = s.params ∧ u.node = s.node ∧ u.root = s.root ∧ u.treeValid = s.treeValid ∧ u.code = s.code ∧
      u.decOpen = s.decOpen := by
  induction t generalizing s with
  | nil =>
    exact ⟨s, [], rfl, h, ho, by simp, by simp [bsRecords], by simp [bsRecords], by simp [bsRecords], by simp, by simp,
      rfl, rfl, rfl, rfl, rfl, rfl⟩
  | cons c t ih =>
    simp only [List.flatMap_cons, List.length_append] at hlen
    have hvc := hv c (by simp)
    have hl : s.encNbits + (s.codeAt c).len ≤ s.params.maxLen := by simp only [CodeEntry.len]; omega
    obtain ⟨rs, r1, r2, r3, r4, r5⟩ := packBits_spec (s.codeAt c).bits s h.packerZeros
    have hinv := (encSym_inv h ho hvc hl).respond .ok
      (field 32 16 (s.codeAt c).len ||| field 0 32 (s.encNbits + (s.codeAt c).len))
    have hstep := exec_encSym_fits ho hvc hl
    set s1 := respond .ok (field 32 16 (s.codeAt c).len ||| field 0 32 (s.encNbits + (s.codeAt c).len))
      { packBits (s.codeAt c).bits s with encNbits := s.encNbits + (s.codeAt c).len, encNsym := s.encNsym + 1 } with hs1
    have hcode : s1.codeAt = s.codeAt := by funext i; simp [hs1, State.codeAt]
    have hnb : s1.encNbits = s.encNbits + (s.codeAt c).bits.length := by simp [hs1, CodeEntry.len]
    have hpar : s1.params = s.params := by simp [hs1]
    obtain ⟨u, os, e1, e2, e3, e4, e5, e6, e7, e8, e9, e10, e11, e12, e13, e14, e15⟩ := ih s1 hinv (by simp [hs1, ho])
      (by rw [hcode]; exact fun x hx => hv x (by simp [hx])) (by rw [hcode, hnb, hpar]; omega)
    rw [hcode] at e6 e7 e8
    have hout : s1.outputs = s.outputs ++ (rs.map .bs ++ [.rsp (responseWord .ok
        (field 32 16 (s.codeAt c).len ||| field 0 32 (s.encNbits + (s.codeAt c).len)))]) := by simp [hs1, r2]
    have hpend : s1.pending = (packBits (s.codeAt c).bits s).pending := by simp [hs1, State.pending]
    have hcnt : s1.pkCnt.val = (packBits (s.codeAt c).bits s).pkCnt.val := by simp [hs1]
    have hbs : bsRecords (rs.map Output.bs ++ [.rsp (responseWord .ok
        (field 32 16 (s.codeAt c).len ||| field 0 32 (s.encNbits + (s.codeAt c).len)))] ++ os) = rs ++ bsRecords os := by
      rw [bsRecords_append, bsRecords_append, bsRecords_map_bs]; simp [bsRecords]
    refine ⟨u, rs.map .bs ++ [.rsp (responseWord .ok
        (field 32 16 (s.codeAt c).len ||| field 0 32 (s.encNbits + (s.codeAt c).len)))] ++ os, ?_, e2, e3, ?_, ?_, ?_, ?_,
      ?_, ?_, e10.trans hpar, ?_, ?_, ?_, ?_, ?_⟩
    · simp only [List.map_cons, execAll, hstep]; exact e1
    · rw [e4, hout]; simp
    · rw [hbs]
      intro r hr
      rcases List.mem_append.mp hr with hr | hr
      · exact r1 r hr
      · exact e5 r hr
    · rw [hbs, List.flatMap_append, List.append_assoc, e6, hpend, ← List.append_assoc, r3]
      simp
    · rw [hbs]
      simp only [List.length_append, List.flatMap_cons]
      omega
    · simp only [List.flatMap_cons, List.length_append]; omega
    · rw [e9]; simp [hs1]; omega
    · rw [e11]; simp [hs1]
    · rw [e12]; simp [hs1]
    · rw [e13]; simp [hs1]
    · rw [e14]; simp [hs1]
    · rw [e15]; simp [hs1]

/-- DEC_BITS in an open message with a tree: it ends the message, or its bits complete the codewords of the symbols
emitted and `rest` is the part of the next one that is left; under a one-leaf tree nothing is left. -/
theorem exec_decBits_open {s : State} (h : s.Inv) (ho : s.decOpen = true) (htv : s.treeValid = true) (n : Nat) (v : Word32)
    (p : Bits) (hp : descend s.node p s.root = some s.decCur) (hl : (s.nodeAt s.root).isLeaf = true → p = []) :
    ∃ t, exec (.decBits n v) s = .next t ∧
      ((t.decOpen = false ∧ (s.decNbits + n ≤ s.params.maxLen → (s.nodeAt s.root).isLeaf = true ∧ true ∈ msbBits n v)) ∨
        ∃ (syms : List Nat) (rest : Bits) (m : Nat),
          t = respond .ok (field 0 56 syms.length) (decoded s m n syms) ∧ s.decNbits + n ≤ s.params.maxLen ∧
          p ++ msbBits n v = syms.flatMap (fun c => (s.codeAt c).bits) ++ rest ∧
          (∀ c ∈ syms, (s.codeAt c).valid = true) ∧ descend s.node rest s.root = some m ∧
          ((s.nodeAt s.root).isLeaf = true → rest = []) ∧
          ((s.nodeAt s.root).isInternal → (s.nodeAt m).isInternal)) := by
  have ht := h.tree htv
  have hx : exec (.decBits n v) s = execDecBits n v s := rfl
  rw [hx, execDecBits]
  simp only [ho, htv, Bool.true_eq_false, if_false]
  by_cases hm : s.decNbits + n > s.params.maxLen
  · rw [if_pos hm]
    exact ⟨_, rfl, .inl ⟨rfl, fun hc => absurd hm (by omega)⟩⟩
  · rw [if_neg hm]
    refine ⟨_, rfl, ?_⟩
    rcases ht.root_cases with ⟨hr, hnr⟩ | hr
    · obtain rfl := hl hr
      have hcur : s.decCur = s.root := by simpa [descend] using hp.symm
      have hcode : s.codeAt s.root = ⟨true, [false]⟩ := by
        have hv := (ht.leaf_iff s.root).mp hr
        have := ht.code_path s.root hv
        rw [hr, if_pos rfl] at this
        cases hc : s.codeAt s.root
        simp_all
      by_cases hone : true ∈ msbBits n v
      · left
        obtain ⟨a, b, hab, hfirst⟩ : ∃ a b, msbBits n v = List.replicate a false ++ true :: b ∧ True := by
          generalize msbBits n v = bits at hone
          induction bits with
          | nil => simp at hone
          | cons x xs ih =>
            cases x with
            | true => exact ⟨0, xs, by simp, trivial⟩
            | false =>
              obtain ⟨a, b, hab, -⟩ := ih (by simpa using hone)
              exact ⟨a + 1, b, by simp [List.replicate_succ, hab], trivial⟩
        rw [hab, decodeBits_one _ _ _ _ _ hr]
        exact ⟨rfl, fun _ => ⟨hr, by simp⟩⟩
      · right
        have hz : msbBits n v = List.replicate n false := by
          refine List.eq_replicate_iff.mpr ⟨by simp, fun b hb => ?_⟩
          cases b with
          | false => rfl
          | true => exact absurd hb hone
        refine ⟨List.replicate n s.root, [], s.root, ?_, by omega, ?_, ?_, by simp [descend], fun _ => rfl,
          fun hc => absurd hc hnr⟩
        · rw [hz, decodeBits_zeros _ _ _ _ hr, hcur]; simp
        · rw [hz]; simp [List.flatMap_replicate, hcode]
        · intro c hc
          rw [List.eq_of_mem_replicate hc, hcode]
    · right
      have hrl : (s.nodeAt s.root).isLeaf = false := by
        cases hn : s.nodeAt s.root <;> simp_all [Node.isLeaf, Node.isInternal, Node.kind]
      have hcur := h.decCurOk ho
      rw [if_pos hr] at hcur
      obtain ⟨syms, rest, m, h1, h2, h3, h4, h5⟩ := decodeBits_internal (Instr.decBits n v).op (msbBits n v) 0 s ht hr hcur p hp
      refine ⟨syms, rest, m, ?_, by omega, h1, h2, h3, fun hc => by simp [hrl] at hc, fun _ => h4⟩
      rw [h5]; simp

/-- With no message open, DEC_BITS changes only LAST_ERR and puts out only its error. -/
theorem execAll_decBits_closed (cmds : List (Nat × Word32)) (s : State) (ho : s.decOpen = false) :
    ∃ u, execAll (cmds.map fun c => .decBits c.1 c.2) s = .next u ∧ u.decOpen = false := by
  induction cmds generalizing s with
  | nil => exact ⟨s, rfl, ho⟩
  | cons c cmds ih =>
    have hx : exec (.decBits c.1 c.2) s = .next (raise .sequence (Instr.op (.decBits c.1 c.2)) 0 c.2.toNat s) := by
      show execDecBits c.1 c.2 s = _
      simp only [execDecBits, ho, if_true]
    obtain ⟨u, hu, huo⟩ := ih _ (show (raise .sequence (Instr.op (.decBits c.1 c.2)) 0 c.2.toNat s).decOpen = false from ho)
    exact ⟨u, by simp only [List.map_cons, execAll, hx]; exact hu, huo⟩

theorem symRecords_map_sym {p : Params} (hp : p.legal) (syms : List Nat) (h : ∀ c ∈ syms, c < p.nsym) :
    symRecords (syms.map fun c => .sym (BitVec.ofNat 16 c)) = syms := by
  have := (Params.legal_bounds hp)
  induction syms with
  | nil => rfl
  | cons c syms ih =>
    have hc := h c (by simp)
    have hi := ih fun x hx => h x (by simp [hx])
    simp only [symRecords, List.map_cons, List.filterMap_cons, BitVec.toNat_ofNat] at hi ⊢
    rw [hi, Nat.mod_eq_of_lt (by omega)]

/-- The DEC_BITS commands of an open message with a tree: they end it, or they complete the codewords of the symbols
put out. -/
theorem decBitsSeq_spec (cmds : List (Nat × Word32)) (s : State) (h : s.Inv) (ho : s.decOpen = true) (htv : s.treeValid = true)
    (p : Bits) (hp : descend s.node p s.root = some s.decCur) (hl : (s.nodeAt s.root).isLeaf = true → p = [])
    (hn : ∀ c ∈ cmds, 1 ≤ c.1 ∧ c.1 ≤ 32) :
    ∃ u, execAll (cmds.map fun c => .decBits c.1 c.2) s = .next u ∧
      ((u.decOpen = false ∧ (s.decNbits + (cmds.flatMap fun c => msbBits c.1 c.2).length ≤ s.params.maxLen →
          (s.nodeAt s.root).isLeaf = true ∧ true ∈ cmds.flatMap fun c => msbBits c.1 c.2)) ∨
        ∃ (os : List Output) (rest : Bits), u.decOpen = true ∧ u.root = s.root ∧ u.outputs = s.outputs ++ os ∧
          p ++ (cmds.flatMap fun c => msbBits c.1 c.2) = (symRecords os).flatMap (fun c => (s.codeAt c).bits) ++ rest ∧
          (∀ c ∈ symRecords os, (s.codeAt c).valid = true) ∧ descend s.node rest s.root = some u.decCur ∧
          u.decNsym = s.decNsym + (symRecords os).length ∧ ((s.nodeAt s.root).isLeaf = true → rest = []) ∧
          ((s.nodeAt s.root).isInternal → (s.nodeAt u.decCur).isInternal)) := by
  induction cmds generalizing s p with
  | nil => exact ⟨s, rfl, .inr ⟨[], p, ho, rfl, by simp, by simp [symRecords], by simp [symRecords], hp, by simp [symRecords], hl,
      fun hr => by have := h.decCurOk ho; rwa [if_pos hr] at this⟩⟩
  | cons c cmds ih =>
    have hc := hn c (by simp)
    obtain ⟨t, he, hcase⟩ := exec_decBits_open h ho htv c.1 c.2 p hp hl
    have hti : t.Inv := exec_inv _ h (by simp [Instr.wellFormed, hc]) he
    rcases hcase with ⟨hcl, hwhy⟩ | ⟨syms, rest, m, rfl, hroom, h1, h2, h3, h4, -⟩
    · obtain ⟨u, hu, huo⟩ := execAll_decBits_closed cmds t hcl
      refine ⟨u, by simp only [List.map_cons, execAll, he]; exact hu, .inl ⟨huo, fun hr => ?_⟩⟩
      simp only [List.flatMap_cons, List.length_append, msbBits_length] at hr
      obtain ⟨a, b⟩ := hwhy (by omega)
      exact ⟨a, by simp [b]⟩
    · obtain ⟨u, hu, hcase⟩ := ih (respond .ok (field 0 56 syms.length) (decoded s m c.1 syms)) hti ho htv rest h3 h4
        fun x hx => hn x (by simp [hx])
      refine ⟨u, by simp only [List.map_cons, execAll, he]; exact hu, ?_⟩
      have hsy : symRecords (syms.map fun c => Output.sym (BitVec.ofNat 16 c)) = syms :=
        symRecords_map_sym h.legal syms fun c hc => (h.tree htv).leaf_lt c (((h.tree htv).leaf_iff c).mpr (h2 c hc))
      rcases hcase with ⟨hcl, hwhy⟩ | ⟨os, rest', g1, gr, g2, g3, g4, g5, g6, g7, g8⟩
      · refine .inl ⟨hcl, fun hr => ?_⟩
        simp only [List.flatMap_cons, List.length_append, msbBits_length] at hr
        obtain ⟨a, b⟩ := hwhy (by simp only [respond_decNbits, decoded, respond_params]; omega)
        refine ⟨a, ?_⟩
        rw [List.flatMap_cons]
        exact List.mem_append_right _ b
      · refine .inr ⟨(syms.map fun c => Output.sym (BitVec.ofNat 16 c)) ++ [.rsp (responseWord .ok (field 0 56 syms.length))] ++ os, rest',
          g1, gr, ?_, ?_, ?_, g5, ?_, g7, g8⟩
        · rw [g2]; simp [decoded]
        · have g3' : rest ++ (cmds.flatMap fun c => msbBits c.1 c.2) = (symRecords os).flatMap (fun c => (s.codeAt c).bits) ++ rest' := g3
          rw [symRecords_append, symRecords_append, hsy, List.flatMap_cons, ← List.append_assoc, h1]
          simp [symRecords, List.append_assoc] at g3' ⊢
          exact g3'
        · intro x hx
          rw [symRecords_append, symRecords_append, hsy] at hx
          rcases List.mem_append.mp hx with hx | hx
          · exact h2 x (by simpa [symRecords] using hx)
          · exact g4 x hx
        · rw [g6, symRecords_append, symRecords_append, hsy]
          simp [decoded, symRecords]; omega

end Sys2Proof.Machine
end

