-- ==== Sys2Proof/Laws/Optimal.lean ====
section
/-! SUPPORT. The two halves of the optimality of the greedy merge (spec/41_tree_builder.md R129): the weighted length
of the built tree is the sum of the merged weights, and no lengths that satisfy Kraft's inequality, so no
prefix-free code, weigh less. -/

namespace Sys2Proof.Machine

/-! ### Kraft's inequality for prefix-free codes -/

/-- The Kraft sum of a list of lengths. -/
def kraft (ls : List Nat) : ℚ := (ls.map fun l => (1 / 2 : ℚ) ^ l).sum

theorem kraft_perm {a b : List Nat} (h : a.Perm b) : kraft a = kraft b := (h.map _).sum_eq

theorem kraft_cons (l : Nat) (ls : List Nat) : kraft (l :: ls) = (1 / 2 : ℚ) ^ l + kraft ls := by simp [kraft]

theorem kraft_nonneg (ls : List Nat) : 0 ≤ kraft ls := by
  refine List.sum_nonneg fun x hx => ?_
  obtain ⟨l, -, rfl⟩ := List.mem_map.mp hx
  positivity

/-- The words that begin with `b`, without it. -/
def tailsOf (b : Bool) (ws : List Bits) : List Bits :=
  ws.filterMap fun
    | [] => none
    | x :: xs => if x = b then some xs else none

theorem kraft_split (ws : List Bits) (h : [] ∉ ws) :
    kraft (ws.map List.length) =
      1 / 2 * kraft ((tailsOf false ws).map List.length) + 1 / 2 * kraft ((tailsOf true ws).map List.length) := by
  induction ws with
  | nil => simp [kraft, tailsOf]
  | cons w ws ih =>
    have ih := ih fun hc => h (by simp [hc])
    cases w with
    | nil => simp at h
    | cons x xs =>
      rw [List.map_cons, kraft_cons, ih]
      cases x <;> simp [tailsOf, kraft_cons, pow_succ] <;> ring

theorem mem_tailsOf {b : Bool} {ws : List Bits} {x : Bits} : x ∈ tailsOf b ws ↔ b :: x ∈ ws := by
  simp only [tailsOf, List.mem_filterMap]
  constructor
  · rintro ⟨w, hw, he⟩
    cases w with
    | nil => simp at he
    | cons y ys =>
      by_cases hy : y = b
      · subst hy; simp at he; subst he; exact hw
      · simp [hy] at he
  · intro h
    exact ⟨_, h, by simp⟩

theorem tailsOf_pairwise (b : Bool) (ws : List Bits) (h : ws.Pairwise fun x y => ¬ x <+: y ∧ ¬ y <+: x) :
    (tailsOf b ws).Pairwise fun x y => ¬ x <+: y ∧ ¬ y <+: x := by
  induction ws with
  | nil => simp [tailsOf]
  | cons w ws ih =>
    rw [List.pairwise_cons] at h
    cases w with
    | nil => simpa [tailsOf] using ih h.2
    | cons x xs =>
      by_cases hx : x = b
      · subst hx
        have ht : tailsOf x ((x :: xs) :: ws) = xs :: tailsOf x ws := by simp [tailsOf]
        rw [ht, List.pairwise_cons]
        refine ⟨fun y hy => ?_, ih h.2⟩
        have := h.1 _ (mem_tailsOf.mp hy)
        simpa using this
      · have ht : tailsOf b ((x :: xs) :: ws) = tailsOf b ws := by simp [tailsOf, hx]
        rw [ht]
        exact ih h.2

theorem kraft_le_of_bound (n : Nat) (ws : List Bits) (hn : ∀ w ∈ ws, w.length ≤ n)
    (h : ws.Pairwise fun x y => ¬ x <+: y ∧ ¬ y <+: x) : kraft (ws.map List.length) ≤ 1 := by
  by_cases hnil : [] ∈ ws
  · have : ws = [[]] := by
      obtain ⟨a, b, rfl⟩ := List.append_of_mem hnil
      rw [List.pairwise_append, List.pairwise_cons] at h
      have hb : b = [] := List.eq_nil_iff_forall_not_mem.mpr fun y hy => (h.2.1.1 y hy).1 List.nil_prefix
      have ha : a = [] := List.eq_nil_iff_forall_not_mem.mpr fun y hy => (h.2.2 y hy [] (by simp)).2 List.nil_prefix
      simp [ha, hb]
    simp [this, kraft]
  · induction n generalizing ws with
    | zero =>
      have : ws = [] := List.eq_nil_iff_forall_not_mem.mpr fun w hw =>
        hnil (by rwa [List.length_eq_zero_iff.mp (Nat.le_zero.mp (hn w hw))] at hw)
      simp [this, kraft]
    | succ n ih =>
      have key : ∀ b, kraft ((tailsOf b ws).map List.length) ≤ 1 := by
        intro b
        by_cases hb : [] ∈ tailsOf b ws
        · have hp := tailsOf_pairwise b ws h
          have : tailsOf b ws = [[]] := by
            obtain ⟨a, c, hac⟩ := List.append_of_mem hb
            rw [hac, List.pairwise_append, List.pairwise_cons] at hp
            have hc : c = [] := List.eq_nil_iff_forall_not_mem.mpr fun y hy => (hp.2.1.1 y hy).1 List.nil_prefix
            have ha : a = [] := List.eq_nil_iff_forall_not_mem.mpr fun y hy => (hp.2.2 y hy [] (by simp)).2 List.nil_prefix
            simp [hac, ha, hc]
          simp [this, kraft]
        · exact ih _ (fun w hw => by have := hn _ (mem_tailsOf.mp hw); simpa using this) (tailsOf_pairwise b ws h) hb
      rw [kraft_split ws hnil]
      have h0 := key false
      have h1 := key true
      linarith

/-- Kraft's inequality: the words of a prefix-free code are not too short. -/
theorem kraft_le_one (ws : List Bits) (h : ws.Pairwise fun x y => ¬ x <+: y ∧ ¬ y <+: x) :
    kraft (ws.map List.length) ≤ 1 := by
  refine kraft_le_of_bound ((ws.map List.length).sum) ws (fun w hw => ?_) h
  exact List.single_le_sum (by simp) _ (List.mem_map_of_mem hw)

/-! ### The lower bound -/

/-- What the greedy merge adds up: while two weights are left, the two least become one. -/
def mergeCost : Nat → List Nat → Nat
  | fuel + 1, a :: b :: q => a + b + mergeCost fuel (q.orderedInsert (· ≤ ·) (a + b))
  | _, _ => 0

/-- The weighted length of a list of (weight, length) pairs. -/
def weighted (l : List (Nat × Nat)) : Nat := (l.map fun x => x.1 * x.2).sum

theorem weighted_perm {a b : List (Nat × Nat)} (h : a.Perm b) : weighted a = weighted b := (h.map _).sum_eq

theorem weighted_cons (x : Nat × Nat) (l : List (Nat × Nat)) : weighted (x :: l) = x.1 * x.2 + weighted l := by
  simp [weighted]

/-- The least weight may have the greatest length. -/
theorem exchange (l : List (Nat × Nat)) (a : Nat) (q : List Nat) (hp : (l.map Prod.fst).Perm (a :: q))
    (ha : ∀ x ∈ q, a ≤ x) :
    ∃ (m : Nat) (l' : List (Nat × Nat)), (l'.map Prod.fst).Perm q ∧ (m :: l'.map Prod.snd).Perm (l.map Prod.snd) ∧
      a * m + weighted l' ≤ weighted l ∧ ∀ x ∈ l', x.2 ≤ m := by
  have hne : l ≠ [] := by rintro rfl; simpa using hp.length_eq
  obtain ⟨x, hx, hmax⟩ : ∃ x ∈ l, ∀ y ∈ l, y.2 ≤ x.2 := by
    clear hp
    induction l with
    | nil => simp at hne
    | cons y l ih =>
      by_cases hl : l = []
      · exact ⟨y, by simp, by simp [hl]⟩
      · obtain ⟨x, hx, hm⟩ := ih hl
        by_cases hc : y.2 ≤ x.2
        · exact ⟨x, by simp [hx], by simpa [hc] using fun a b h => hm (a, b) h⟩
        · refine ⟨y, by simp, fun z hz => ?_⟩
          rcases List.mem_cons.mp hz with rfl | hz
          · exact Nat.le_refl _
          · have := hm z hz; omega
  obtain ⟨l1, hl1⟩ : ∃ l1, l.Perm (x :: l1) := ⟨l.erase x, List.perm_cons_erase hx⟩
  have hp1 : (x.1 :: l1.map Prod.fst).Perm (a :: q) := by simpa using (hl1.map Prod.fst).symm.trans hp
  have hmem1 : ∀ y ∈ l1, y.2 ≤ x.2 := fun y hy => hmax y (hl1.mem_iff.mpr (by simp [hy]))
  have hw : weighted l = x.1 * x.2 + weighted l1 := by rw [weighted_perm hl1, weighted_cons]
  by_cases hxa : x.1 = a
  · subst hxa
    exact ⟨x.2, l1, List.Perm.cons_inv hp1, by simpa using (hl1.map Prod.snd).symm, by omega, hmem1⟩
  · have hax : a ≤ x.1 := by
      have : x.1 ∈ a :: q := hp1.mem_iff.mp (by simp)
      rcases List.mem_cons.mp this with h | h
      · omega
      · exact ha _ h
    have hal : a ∈ l1.map Prod.fst := by
      have : a ∈ x.1 :: l1.map Prod.fst := hp1.mem_iff.mpr (by simp)
      rcases List.mem_cons.mp this with h | h
      · exact absurd h.symm hxa
      · exact h
    obtain ⟨y, hy, rfl⟩ := List.mem_map.mp hal
    obtain ⟨l2, hl2⟩ : ∃ l2, l1.Perm (y :: l2) := ⟨l1.erase y, List.perm_cons_erase hy⟩
    refine ⟨x.2, (x.1, y.2) :: l2, ?_, ?_, ?_, ?_⟩
    · have h2 : (x.1 :: y.1 :: l2.map Prod.fst).Perm (y.1 :: q) :=
        (List.Perm.cons _ (by simpa using (hl2.map Prod.fst).symm)).trans hp1
      exact List.Perm.cons_inv ((List.Perm.swap _ _ _).trans h2)
    · have h2 : (l1.map Prod.snd).Perm (y.2 :: l2.map Prod.snd) := by simpa using hl2.map Prod.snd
      have h1 : (l.map Prod.snd).Perm (x.2 :: l1.map Prod.snd) := by simpa using hl1.map Prod.snd
      simpa using ((List.Perm.cons x.2 h2.symm).trans h1.symm)
    · rw [hw, weighted_perm hl2, weighted_cons, weighted_cons]
      have hy2 := hmem1 y hy
      simp only
      nlinarith [Nat.mul_le_mul hax hy2]
    · intro z hz
      rcases List.mem_cons.mp hz with rfl | hz
      · exact hmem1 y hy
      · exact hmem1 z (hl2.mem_iff.mpr (by simp [hz]))

/-- A lone longest length may be as short as the next. -/
theorem kraft_shorten (m₀ m : Nat) (ls : List Nat) (hls : ∀ l ∈ ls, l ≤ m)
    (hk : kraft (m₀ :: ls) ≤ 1) : kraft (m :: ls) ≤ 1 := by
  have hscale : ∀ ls : List Nat, (∀ l ∈ ls, l ≤ m) → ∃ k : Nat, kraft ls * 2 ^ m = k := by
    intro ls
    induction ls with
    | nil => exact fun _ => ⟨0, by simp [kraft]⟩
    | cons l ls ih =>
      intro h
      obtain ⟨k, hk⟩ := ih fun x hx => h x (by simp [hx])
      refine ⟨2 ^ (m - l) + k, ?_⟩
      rw [kraft_cons, add_mul, hk]
      have hl := h l (by simp)
      have : (2 : ℚ) ^ m = 2 ^ l * 2 ^ (m - l) := by rw [← pow_add]; congr 1; omega
      rw [this, ← mul_assoc, ← mul_pow]
      norm_num
  obtain ⟨k, hk'⟩ := hscale ls hls
  rw [kraft_cons] at hk ⊢
  have hpos : (0 : ℚ) < 2 ^ m := by positivity
  have hlt : (k : ℚ) < 2 ^ m := by
    have h0 : (0 : ℚ) < (1 / 2) ^ m₀ := by positivity
    rw [← hk']
    nlinarith
  have hle : k + 1 ≤ 2 ^ m := by
    have : k < 2 ^ m := by exact_mod_cast hlt
    omega
  have hle' : (k : ℚ) + 1 ≤ 2 ^ m := by exact_mod_cast hle
  have h1 : ((1 / 2 : ℚ) ^ m + kraft ls) * 2 ^ m ≤ 1 * 2 ^ m := by
    rw [add_mul, hk', ← mul_pow]
    norm_num
    linarith
  exact le_of_mul_le_mul_right h1 hpos

/-- No lengths that satisfy Kraft's inequality weigh less than the greedy merge adds up to. -/
theorem mergeCost_le (fuel : Nat) (ws : List Nat) (hs : ws.Pairwise (· ≤ ·)) (l : List (Nat × Nat))
    (hp : (l.map Prod.fst).Perm ws) (hk : kraft (l.map Prod.snd) ≤ 1) : mergeCost fuel ws ≤ weighted l := by
  induction fuel generalizing ws l with
  | zero => simp [mergeCost]
  | succ fuel ih =>
    match ws, hs with
    | [], _ => simp [mergeCost]
    | [_], _ => simp [mergeCost]
    | a :: b :: q, hs =>
      rw [List.pairwise_cons, List.pairwise_cons] at hs
      obtain ⟨m₀, l₁, hp₁, hl₁, hw₁, hm₁⟩ := exchange l a (b :: q) hp hs.1
      obtain ⟨m, l₂, hp₂, hl₂, hw₂, hm₂⟩ := exchange l₁ b q hp₁ hs.2.1
      have hmm : m ≤ m₀ := by
        have : m ∈ l₁.map Prod.snd := hl₂.mem_iff.mp (by simp)
        obtain ⟨x, hx, rfl⟩ := List.mem_map.mp this
        exact hm₁ x hx
      have hk₁ : kraft (m₀ :: m :: l₂.map Prod.snd) ≤ 1 := by
        rw [← kraft_perm hl₁, kraft_perm (List.Perm.cons m₀ hl₂.symm)] at hk
        exact hk
      have hk₂ : kraft (m :: m :: l₂.map Prod.snd) ≤ 1 := by
        refine kraft_shorten m₀ m _ ?_ hk₁
        intro x hx
        rcases List.mem_cons.mp hx with rfl | hx
        · exact Nat.le_refl _
        · obtain ⟨y, hy, rfl⟩ := List.mem_map.mp hx
          exact hm₂ y hy
      have hpos : 1 ≤ m := by
        by_contra hc
        have h0 : m = 0 := by omega
        subst h0
        have := kraft_nonneg (l₂.map Prod.snd)
        rw [kraft_cons, kraft_cons] at hk₂
        norm_num at hk₂
        linarith
      have hk₃ : kraft ((m - 1) :: l₂.map Prod.snd) ≤ 1 := by
        rw [kraft_cons, kraft_cons, ← add_assoc] at hk₂
        rw [kraft_cons]
        have : (1 / 2 : ℚ) ^ (m - 1) = (1 / 2) ^ m + (1 / 2) ^ m := by
          obtain ⟨k, rfl⟩ : ∃ k, m = k + 1 := ⟨m - 1, by omega⟩
          rw [Nat.add_sub_cancel, pow_succ]; ring
        rw [this]
        exact hk₂
      have hrec := ih (q.orderedInsert (· ≤ ·) (a + b)) (hs.2.2.orderedInsert _ _) ((a + b, m - 1) :: l₂) ?_ hk₃
      · rw [mergeCost]
        rw [weighted_cons] at hrec
        have h1 : (a + b) * (m - 1) + (a + b) = (a + b) * m := by
          obtain ⟨k, rfl⟩ : ∃ k, m = k + 1 := ⟨m - 1, by omega⟩
          rw [Nat.add_sub_cancel, Nat.mul_succ]
        have h2 : (a + b) * m = a * m + b * m := Nat.add_mul _ _ _
        have h3 : a * m ≤ a * m₀ := Nat.mul_le_mul_left a hmm
        simp only at hrec
        omega
      · exact (List.Perm.cons _ hp₂).trans (List.perm_orderedInsert _ _ _).symm

/-! ### The built tree reaches the bound -/

theorem descend_write_fresh {nodes : Table Node} {k : Nat} {v : Node} (hk : Table.read .empty nodes k = .empty)
    (bits : Bits) (n m : Nat) (h : descend nodes bits n = some m) :
    descend (Table.write .empty nodes k v) bits n = some m := by
  induction bits generalizing n with
  | nil => simpa [descend] using h
  | cons b bits ih =>
    rw [descend_cons] at h ⊢
    split at h
    next hi =>
      have hne : k ≠ n := by rintro rfl; simp [hk, Node.isInternal, Node.kind] at hi
      rw [Table.read_write_ne _ _ hne, if_pos hi]
      exact ih _ h
    · simp at h

theorem weights_sorted {q : List QEntry} (h : q.Pairwise fun a b => a.before b) :
    (q.map QEntry.weight).Pairwise (· ≤ ·) := by
  rw [List.pairwise_map]
  exact h.imp fun {a b} hab => by rw [QEntry.before_iff] at hab; omega

/-- The queue's weights after an insertion (R123). -/
theorem enqueue_weights {e : QEntry} {q : List QEntry} (h : q.Pairwise fun a b => a.before b)
    (hne : ∀ x ∈ q, x.seq ≠ e.seq) :
    (enqueue e q).map QEntry.weight = (q.map QEntry.weight).orderedInsert (· ≤ ·) e.weight := by
  refine List.Perm.eq_of_pairwise (le := fun a b => a ≤ b) (fun a b _ _ h1 h2 => by omega)
    (weights_sorted (enqueue_sorted h hne)) ((weights_sorted h).orderedInsert _ _) ?_
  exact ((enqueue_perm e q).map QEntry.weight).trans (List.perm_orderedInsert _ _ _).symm

/-- For every tree of the queue, its leaves with their paths. -/
structure Hung (count : Nat → Nat) (lv : List Nat) (q : List QEntry) (nodes : Table Node)
    (hung : List (QEntry × List (Nat × Bits))) : Prop where
  trees : (hung.map Prod.fst).Perm q
  syms : (hung.flatMap fun x => x.2.map Prod.fst).Perm lv
  path : ∀ x ∈ hung, ∀ y ∈ x.2, descend nodes y.2 x.1.idx = some y.1
  weight : ∀ x ∈ hung, (x.2.map fun y => count y.1).sum = x.1.weight

/-- The weighted length of the paths so far. -/
def pathCost (count : Nat → Nat) (l : List (Nat × Bits)) : Nat := (l.map fun y => count y.1 * y.2.length).sum

theorem pathCost_append (count : Nat → Nat) (a b : List (Nat × Bits)) :
    pathCost count (a ++ b) = pathCost count a + pathCost count b := by simp [pathCost]

theorem pathCost_below (count : Nat → Nat) (c : Bool) (l : List (Nat × Bits)) :
    pathCost count (l.map fun y => (y.1, c :: y.2)) = pathCost count l + (l.map fun y => count y.1).sum := by
  induction l with
  | nil => rfl
  | cons y l ih =>
    simp only [pathCost, List.map_cons, List.sum_cons, List.length_cons] at ih ⊢
    rw [ih, Nat.mul_succ]
    omega

theorem Hung.one {count : Nat → Nat} {lv : List Nat} {r : QEntry} {nodes : Table Node}
    {hung : List (QEntry × List (Nat × Bits))} (hh : Hung count lv [r] nodes hung) :
    ∃ l : List (Nat × Bits), (l.map Prod.fst).Perm lv ∧ (∀ y ∈ l, descend nodes y.2 r.idx = some y.1) ∧
      pathCost count l = pathCost count (hung.flatMap Prod.snd) := by
  obtain ⟨x, hx⟩ : ∃ x, hung = [x] := List.length_eq_one_iff.mp (by simpa using hh.trees.length_eq)
  subst hx
  have hxr : x.1 = r := by simpa using hh.trees
  refine ⟨x.2, by simpa using hh.syms, fun y hy => ?_, by simp⟩
  rw [← hxr]
  exact hh.path x (by simp) y hy

/-- The merge loop adds each merged weight once to the weighted length of the paths (R124). -/
theorem mergeTrees_cost {count : Nat → Nat} {lv : List Nat} {nsym : Nat} (fuel seq newIdx : Nat) (q : List QEntry)
    (nodes : Table Node) (h : Forest count lv nsym seq newIdx q nodes) (hq : q ≠ []) (hf : q.length ≤ fuel + 1)
    (hung : List (QEntry × List (Nat × Bits))) (hh : Hung count lv q nodes hung) :
    ∃ l : List (Nat × Bits), (l.map Prod.fst).Perm lv ∧
      (∀ y ∈ l, descend (mergeTrees fuel seq newIdx q nodes).1 y.2 (mergeTrees fuel seq newIdx q nodes).2 = some y.1) ∧
      pathCost count l = pathCost count (hung.flatMap Prod.snd) + mergeCost fuel (q.map QEntry.weight) := by
  induction fuel generalizing seq newIdx q nodes hung with
  | zero =>
    match q, hq, hf with
    | [r], _, _ =>
      obtain ⟨l, h1, h2, h3⟩ := hh.one
      exact ⟨l, h1, h2, by simpa [mergeCost] using h3⟩
  | succ fuel ih =>
    match q, hq, hf with
    | [r], _, _ =>
      obtain ⟨l, h1, h2, h3⟩ := hh.one
      exact ⟨l, h1, h2, by simpa [mergeCost] using h3⟩
    | a :: b :: q, _, hf =>
      obtain ⟨xa, h1, hxa, hp1⟩ : ∃ xa h1, xa.1 = a ∧ hung.Perm (xa :: h1) := by
        have : a ∈ hung.map Prod.fst := hh.trees.mem_iff.mpr (by simp)
        obtain ⟨x, hx, hxa⟩ := List.mem_map.mp this
        obtain ⟨s, t, rfl⟩ := List.append_of_mem hx
        exact ⟨x, s ++ t, hxa, List.perm_middle⟩
      have ht1 : (h1.map Prod.fst).Perm (b :: q) := by
        have := ((hp1.map Prod.fst).symm.trans hh.trees)
        rw [List.map_cons, hxa] at this
        exact List.Perm.cons_inv this
      obtain ⟨xb, h2, hxb, hp2⟩ : ∃ xb h2, xb.1 = b ∧ h1.Perm (xb :: h2) := by
        have : b ∈ h1.map Prod.fst := ht1.mem_iff.mpr (by simp)
        obtain ⟨x, hx, hxb⟩ := List.mem_map.mp this
        obtain ⟨s, t, rfl⟩ := List.append_of_mem hx
        exact ⟨x, s ++ t, hxb, List.perm_middle⟩
      have ht2 : (h2.map Prod.fst).Perm q := by
        have := ((hp2.map Prod.fst).symm.trans ht1)
        rw [List.map_cons, hxb] at this
        exact List.Perm.cons_inv this
      have hp : hung.Perm (xa :: xb :: h2) := hp1.trans (hp2.cons xa)
      set w := a.weight + b.weight with hw
      set e : QEntry := ⟨w, seq, newIdx⟩ with he
      set le := xa.2.map (fun y => (y.1, false :: y.2)) ++ xb.2.map (fun y => (y.1, true :: y.2)) with hle
      have hfresh := h.fresh newIdx (Nat.le_refl _)
      have hma : xa ∈ hung := hp.mem_iff.mpr (by simp)
      have hmb : xb ∈ hung := hp.mem_iff.mpr (by simp)
      have hm2 : ∀ x ∈ h2, x ∈ hung := fun x hx => hp.mem_iff.mpr (by simp [hx])
      have hwa := hh.weight xa hma
      have hwb := hh.weight xb hmb
      have hnew : Table.read .empty (Table.write .empty nodes newIdx (.internal w a.idx b.idx)) newIdx =
          .internal w a.idx b.idx := Table.read_write_self ..
      have hsorted := h.sorted
      rw [List.pairwise_cons, List.pairwise_cons] at hsorted
      have hq2 : enqueue e q ≠ [] := by
        intro hc
        have := (enqueue_perm e q).length_eq
        simp [hc] at this
      have hlen : (enqueue e q).length ≤ fuel + 1 := by
        rw [(enqueue_perm e q).length_eq]
        simp at hf ⊢
        omega
      have hh' : Hung count lv (enqueue e q) (Table.write .empty nodes newIdx (.internal w a.idx b.idx)) ((e, le) :: h2) := by
        refine ⟨?_, ?_, ?_, ?_⟩
        · rw [List.map_cons]
          exact (ht2.cons e).trans (enqueue_perm e q).symm
        · refine List.Perm.trans ?_ hh.syms
          refine List.Perm.trans ?_ (hp.flatMap_right _).symm
          simp [hle, List.map_map, Function.comp_def]
        · intro x hx y hy
          rcases List.mem_cons.mp hx with rfl | hx
          · simp only [hle, List.mem_append, List.mem_map] at hy
            rw [he]
            simp only
            rcases hy with ⟨z, hz, rfl⟩ | ⟨z, hz, rfl⟩
            · rw [descend, hnew]
              have := hh.path xa hma z hz
              rw [hxa] at this
              exact descend_write_fresh hfresh _ _ _ this
            · rw [descend, hnew]
              have := hh.path xb hmb z hz
              rw [hxb] at this
              exact descend_write_fresh hfresh _ _ _ this
          · exact descend_write_fresh hfresh _ _ _ (hh.path x (hm2 x hx) y hy)
        · intro x hx
          rcases List.mem_cons.mp hx with rfl | hx
          · simp only [hle, List.map_append, List.map_map, Function.comp_def, List.sum_append]
            rw [hwa, hwb, hxa, hxb]
          · exact hh.weight x (hm2 x hx)
      obtain ⟨l, g1, g2, g3⟩ := ih (seq + 1) (newIdx + 1) (enqueue e q) _ h.merge hq2 hlen ((e, le) :: h2) hh'
      · refine ⟨l, g1, g2, ?_⟩
        rw [g3, enqueue_weights hsorted.2.2 fun x hx => Nat.ne_of_lt (h.seq_lt x (by simp [hx]))]
        have hc : pathCost count (hung.flatMap Prod.snd) =
            pathCost count xa.2 + (pathCost count xb.2 + pathCost count (h2.flatMap Prod.snd)) := by
          have : (hung.flatMap Prod.snd).Perm (xa.2 ++ (xb.2 ++ h2.flatMap Prod.snd)) := by
            simpa using hp.flatMap_right Prod.snd
          rw [show pathCost count (hung.flatMap Prod.snd) = pathCost count (xa.2 ++ (xb.2 ++ h2.flatMap Prod.snd)) from
            (this.map _).sum_eq, pathCost_append, pathCost_append]
        rw [hc]
        simp only [List.flatMap_cons, List.map_cons, mergeCost]
        rw [pathCost_append, hle, pathCost_append, pathCost_below, pathCost_below, hwa, hwb, hxa, hxb]
        simp only [he, hw]
        omega

/-- The weighted length of the built tree is what the greedy merge of its counts adds up to. -/
theorem buildTree_cost (count : Nat → Nat) (nsym : Nat) (lv : List Nat) (hasc : lv.Pairwise (· < ·))
    (hlt : ∀ i ∈ lv, i < nsym) (hne : lv ≠ []) :
    ∃ (l : List (Nat × Bits)) (ws : List Nat), (l.map Prod.fst).Perm lv ∧
      (∀ y ∈ l, descend (buildTree nsym count lv).1 y.2 (buildTree nsym count lv).2 = some y.1) ∧
      ws.Pairwise (· ≤ ·) ∧ (lv.map count).Perm ws ∧ pathCost count l = mergeCost lv.length ws := by
  have hF := plantLeaves_forest count nsym [] lv [] [] (by simpa using hasc) (by simpa using hlt) (by simp) (by simp)
    (by simp) (by simp) (by simp) (by simp)
  simp only [List.nil_append, List.length_nil] at hF
  set q := (plantLeaves count lv 0 [] []).1 with hq
  set nodes := (plantLeaves count lv 0 [] []).2 with hn
  have hlen : q.length = lv.length := by have := hF.size; omega
  have hidx : ∀ e ∈ q, e.idx ∈ lv ∧ e.weight = count e.idx := by
    intro e he
    obtain ⟨h1, h2⟩ := hF.q_node e he
    have hl := hF.lt_of_ne_empty h1
    rw [hF.low e.idx hl] at h1 h2
    by_cases hm : e.idx ∈ lv
    · rw [if_pos hm] at h2
      exact ⟨hm, h2⟩
    · simp [hm] at h1
  have hperm : (q.map QEntry.idx).Perm lv := by
    refine (List.subperm_of_subset hF.q_nodup fun i hi => ?_).perm_of_length_le (by simp [hlen])
    obtain ⟨e, he, rfl⟩ := List.mem_map.mp hi
    exact (hidx e he).1
  have hh : Hung count lv q nodes (q.map fun e => (e, [(e.idx, [])])) := by
    refine ⟨by simp [List.map_map, Function.comp_def], ?_, ?_, ?_⟩
    · simpa [List.flatMap_map, ← List.map_eq_flatMap] using hperm
    · intro x hx y hy
      obtain ⟨e, -, rfl⟩ := List.mem_map.mp hx
      simp at hy
      subst hy
      rfl
    · intro x hx
      obtain ⟨e, he, rfl⟩ := List.mem_map.mp hx
      simpa using (hidx e he).2.symm
  have hq0 : q ≠ [] := by
    intro hc
    rw [hc] at hlen
    exact hne (List.length_eq_zero_iff.mp (by simpa using hlen.symm))
  obtain ⟨l, h1, h2, h3⟩ := mergeTrees_cost lv.length lv.length nsym q nodes hF hq0 (by omega) _ hh
  refine ⟨l, q.map QEntry.weight, h1, h2, weights_sorted hF.sorted, ?_, ?_⟩
  · have : q.map QEntry.weight = (q.map QEntry.idx).map count := by
      rw [List.map_map]
      exact List.map_congr_left fun e he => (hidx e he).2
    rw [this]
    exact (hperm.map count).symm
  · rw [h3]
    have : pathCost count ((q.map fun e => (e, [(e.idx, ([] : Bits))])).flatMap Prod.snd) = 0 := by
      rw [List.flatMap_map]
      induction q with
      | nil => rfl
      | cons e q ih => simpa [pathCost] using ih
    omega

end Sys2Proof.Machine
end

