-- ==== Sys2Proof/Tests/Slice0.lean ====
section
/-! SUPPORT. Tests, each about one command, with the expected words taken from spec/95_test_vectors.md (the vector
is named) or from the rule named; the smoke test of WellFormed; and for each obligation with hypotheses a
witness that meets them together. -/

namespace Sys2Proof.Tests

open Sys2Proof Sys2Proof.Machine

/-! ### Helpers -/

/-- What the commands put out, given one after another from a state. -/
def outs (is : List Instr) (s : State) : List Output :=
  match execAll is s with
  | .next t => t.outputs
  | .fault _ => []
  | .refused _ => []

/-- The state the commands leave. -/
def after (is : List Instr) (s : State) : State :=
  match execAll is s with
  | .next t => t
  | .fault _ => s
  | .refused _ => s

/-- What one command word puts out. -/
def wordOuts (w : Word64) (s : State) : List Output :=
  match execWord w s with
  | .next t => t.outputs
  | .fault _ => []
  | .refused _ => []

/-- LAST_ERR after one command word. -/
def wordErr (w : Word64) (s : State) : ErrRecord :=
  match execWord w s with
  | .next t => t.lastErr
  | .fault _ => .none
  | .refused _ => .none

/-- The reset state of a block with these SYM_W, CNT_W, POS_W. -/
def fresh (symW cntW posW : Nat) : State := State.resetWith ⟨symW, cntW, posW⟩

/-- The tree T_ab of spec/95_test_vectors.md, from its NODE and CODE listing there. -/
def tAb : State :=
  { State.reset with
    node := [(0x61, .leaf 5), (0x62, .leaf 2), (0x63, .leaf 1), (0x64, .leaf 1), (0x72, .leaf 2),
             (256, .internal 2 0x63 0x64), (257, .internal 4 0x62 0x72), (258, .internal 6 256 257),
             (259, .internal 11 0x61 258)]
    code := [(0x61, ⟨true, [false]⟩), (0x62, ⟨true, [true, true, false]⟩), (0x63, ⟨true, [true, false, false]⟩),
             (0x64, ⟨true, [true, false, true]⟩), (0x72, ⟨true, [true, true, true]⟩)]
    root := 259
    nleaves := 5
    treeValid := true }

/-- The tree B5, one leaf. -/
def oneLeaf : State :=
  { State.reset with node := [(0x61, .leaf 5)], code := [(0x61, ⟨true, [false]⟩)], root := 0x61, nleaves := 1, treeValid := true }

/-! ### WellFormed: an ill-formed term for each check (R78) -/

theorem test_illFormed_freqCount_symbol : Instr.wellFormed .default (.freqCount 256) = false := by decide
theorem test_illFormed_freqSet_symbol : Instr.wellFormed .default (.freqSet 256 0) = false := by decide
theorem test_illFormed_freqSet_count : Instr.wellFormed ⟨8, 2, 32⟩ (.freqSet 0x61 4) = false := by decide
theorem test_illFormed_freqRead_symbol : Instr.wellFormed ⟨2, 32, 32⟩ (.freqRead 4) = false := by decide
theorem test_illFormed_nodeRead_index : Instr.wellFormed .default (.nodeRead 511 .shape) = false := by decide
theorem test_illFormed_codeRead_symbol : Instr.wellFormed .default (.codeRead 256 0) = false := by decide
theorem test_illFormed_codeRead_chunk : Instr.wellFormed .default (.codeRead 0 (2 ^ 32)) = false := by decide
theorem test_illFormed_encSym_symbol : Instr.wellFormed .default (.encSym 256) = false := by decide
theorem test_illFormed_decBits_none : Instr.wellFormed .default (.decBits 0 0) = false := by decide
theorem test_illFormed_decBits_many : Instr.wellFormed .default (.decBits 33 0) = false := by decide
theorem test_wellFormed_bounds :
    Instr.wellFormed .default (.freqSet 255 (2 ^ 32 - 1)) = true ∧ Instr.wellFormed .default (.nodeRead 510 .weight) = true ∧
    Instr.wellFormed .default (.codeRead 255 (2 ^ 32 - 1)) = true ∧ Instr.wellFormed .default (.decBits 32 0) = true := by
  decide

/-! ### Decoding words written out from the rules' encodings: OP, N, SYM, IMM -/

theorem test_decode_nop : decode .default (0x00#8 ++ 0x00#8 ++ 0x0000#16 ++ 0x00000000#32) = .ok .nop := by decide
theorem test_decode_freqClear : decode .default (0x01#8 ++ 0x00#8 ++ 0x0000#16 ++ 0x00000000#32) = .ok .freqClear := by decide
theorem test_decode_freqCount : decode .default (0x02#8 ++ 0x00#8 ++ 0x00FF#16 ++ 0x00000000#32) = .ok (.freqCount 255) := by decide
theorem test_decode_freqSet : decode .default (0x03#8 ++ 0x00#8 ++ 0x0061#16 ++ 0xFFFFFFFF#32) = .ok (.freqSet 97 4294967295) := by decide
theorem test_decode_freqRead : decode .default (0x04#8 ++ 0x00#8 ++ 0x007A#16 ++ 0x00000000#32) = .ok (.freqRead 122) := by decide
theorem test_decode_build : decode .default (0x08#8 ++ 0x00#8 ++ 0x0000#16 ++ 0x00000000#32) = .ok .build := by decide
theorem test_decode_nodeRead : decode .default (0x09#8 ++ 0x01#8 ++ 0x0000#16 ++ 0x000001FE#32) = .ok (.nodeRead 510 .weight) := by decide
theorem test_decode_codeRead : decode .default (0x0A#8 ++ 0x00#8 ++ 0x0063#16 ++ 0x00000001#32) = .ok (.codeRead 99 1) := by decide
theorem test_decode_statusRead : decode .default (0x0F#8 ++ 0x00#8 ++ 0x0000#16 ++ 0x00000008#32) = .ok (.statusRead .pkBuf) := by decide
theorem test_decode_encStart : decode .default (0x10#8 ++ 0x00#8 ++ 0x0000#16 ++ 0x00000000#32) = .ok .encStart := by decide
theorem test_decode_encSym : decode .default (0x11#8 ++ 0x00#8 ++ 0x0061#16 ++ 0x00000000#32) = .ok (.encSym 97) := by decide
theorem test_decode_encEnd : decode .default (0x12#8 ++ 0x00#8 ++ 0x0000#16 ++ 0x00000000#32) = .ok .encEnd := by decide
theorem test_decode_decStart : decode .default (0x18#8 ++ 0x00#8 ++ 0x0000#16 ++ 0x00000000#32) = .ok .decStart := by decide
theorem test_decode_decBits : decode .default (0x19#8 ++ 0x20#8 ++ 0x0000#16 ++ 0x6E8ADCDD#32) = .ok (.decBits 32 0x6E8ADCDD) := by decide
theorem test_decode_decEnd : decode .default (0x1A#8 ++ 0x00#8 ++ 0x0000#16 ++ 0x00000000#32) = .ok .decEnd := by decide

/-! ### Illegal words: vectors X1 to X11, F8, F13 -/

theorem test_illegal_reserved : wordOuts 0x0500000000000000 .reset = [.rsp 0x1005000000000000] := by decide
theorem test_illegal_nop_imm : wordOuts 0x0000000000000001 .reset = [.rsp 0x1000000000000001] := by decide
theorem test_illegal_decBits_sym : wordErr 0x1901000100000000 .reset = ⟨.illegalCmd, 0x19, 1, 0⟩ := by decide
theorem test_illegal_encSym_sym : wordOuts 0x1100010000000000 .reset = [.rsp 0x1011010000000000] := by decide
theorem test_illegal_nodeRead_sel : wordOuts 0x0902000000000000 .reset = [.rsp 0x1009000000000000] := by decide
theorem test_illegal_statusRead_view : wordOuts 0x0F00000000000009 .reset = [.rsp 0x100F000000000009] := by decide
theorem test_illegal_ones : wordOuts 0xFFFFFFFFFFFFFFFF .reset = [.rsp 0x10FFFFFFFFFFFFFF] := by decide
theorem test_illegal_freqSet_count : wordOuts 0x0300006100000004 (fresh 8 2 32) = [.rsp 0x1003006100000004] := by decide
theorem test_illegal_freqSet_sym : wordOuts 0x0300000400000001 (fresh 2 32 32) = [.rsp 0x1003000400000001] := by decide

/-! ### Control: S2, S4, D2 -/

theorem test_nop : outs [.nop] .reset = [.rsp 0x0000000000000000] := by decide
theorem test_statusRead_params : outs [.statusRead .params] .reset = [.rsp 0x0000000020202008] := by decide
theorem test_statusRead_status : outs [.statusRead .status] tAb = [.rsp 0x0000020600050001] := by decide

/-! ### Frequency analyzer: F2, F4, F6, F7, F10 -/

theorem test_freqCount_increments :
    outs [.freqCount 0x61] { State.reset with freq := [(0x61, 4)] } = [.rsp 0x0000000000000005] := by decide
theorem test_freqCount_overflows :
    outs [.freqCount 0x61] { fresh 8 2 32 with freq := [(0x61, 3)] } = [.rsp 0x1202006100000000] := by decide
theorem test_freqSet : (after [.freqSet 0x61 0xFFFFFFFF] .reset).freq = [(0x61, 0xFFFFFFFF)] := by decide
theorem test_freqRead :
    outs [.freqRead 0x61] { State.reset with freq := [(0x61, 5), (0x62, 2)] } = [.rsp 0x0000000000000005] := by decide
theorem test_freqClear : (after [.freqClear] { State.reset with freq := [(0x61, 5)] }).freq = [] := by decide

/-! ### Tree builder and code table: B8, B7, B12, NODE_READ, K1, K2 -/

theorem test_build_full_alphabet :
    (after [.build] { fresh 2 32 32 with freq := [(0, 1), (1, 2), (2, 3), (3, 4)] }).node =
      [(0, .leaf 1), (1, .leaf 2), (2, .leaf 3), (3, .leaf 4), (4, .internal 3 0 1), (5, .internal 6 2 4),
       (6, .internal 10 3 5)] := by decide
theorem test_build_codes :
    (after [.build] { fresh 2 32 32 with freq := [(0, 1), (1, 2), (2, 3), (3, 4)] }).code =
      [(0, ⟨true, [true, true, false]⟩), (1, ⟨true, [true, true, true]⟩), (2, ⟨true, [true, false]⟩),
       (3, ⟨true, [false]⟩)] := by decide
theorem test_nodeRead_shape : outs [.nodeRead 259 .shape] tAb = [.rsp 0x0000000204006102] := by decide
theorem test_nodeRead_weight : outs [.nodeRead 259 .weight] tAb = [.rsp 0x000000000000000B] := by decide
theorem test_codeRead : outs [.codeRead 0x63 0] tAb = [.rsp 0x0080000380000000] := by decide
theorem test_codeRead_past_end : outs [.codeRead 0x63 1] tAb = [.rsp 0x0080000300000000] := by decide

/-! ### Encoder and packer: Q5, E9, R162's corner case (R165), E1's end, Q2 -/

theorem test_encStart_twice : outs [.encStart] { tAb with encOpen := true } = [.rsp 0x1110000000000000] := by decide
theorem test_encSym_unknown :
    outs [.encSym 0x7A] { tAb with encOpen := true, encNsym := 1, encNbits := 3, pkBuf := 0xC0000000, pkCnt := 3 } =
      [.rsp 0x0211007A00000001] := by decide
/-- E2: the 16th symbol 'c' ("100") fills bit 31 of the word and leaves two bits. -/
theorem test_encSym_fills_word :
    outs [.encSym 0x63] { tAb with encOpen := true, encNsym := 15, encNbits := 31, pkBuf := 0x6E8ADCDC, pkCnt := 31 } =
      [.bs ⟨0x6E8ADCDD, 32, false⟩, .rsp 0x0000000300000022] := by decide
theorem test_encEnd :
    outs [.encEnd] { tAb with encOpen := true, encNsym := 11, encNbits := 23, pkBuf := 0x6E8ADC00, pkCnt := 23 } =
      [.bs ⟨0x6E8ADC00, 23, true⟩, .rsp 0x0000000000000017] := by decide
theorem test_encEnd_closed : outs [.encEnd] tAb = [.rsp 0x1112000000000000] := by decide

/-! ### Decoder: Q6, D1, D6, D2's end, D4's end -/

theorem test_decStart_twice : outs [.decStart] { tAb with decOpen := true } = [.rsp 0x1118000000000000] := by decide
theorem test_decBits : outs [.decBits 4 0x60000000] { tAb with decOpen := true, decCur := 259 } =
    [.sym 0x61, .sym 0x62, .rsp 0x0000000000000002] := by decide
theorem test_decBits_one_leaf : outs [.decBits 3 0x20000000] { oneLeaf with decOpen := true, decCur := 0x61 } =
    [.sym 0x61, .sym 0x61, .rsp 0x0319000000000002] := by decide
theorem test_decEnd : outs [.decEnd] { tAb with decOpen := true, decCur := 259, decNbits := 7, decNsym := 3 } =
    [.rsp 0x0000000000000003] := by decide
theorem test_decEnd_inside : outs [.decEnd] { tAb with decOpen := true, decCur := 258, decNbits := 2, decNsym := 1 } =
    [.rsp 0x031A000000000002] := by decide

/-! ### Host interface -/

theorem test_table_word : decodeTableWord 64 0x0200006100000000 = some (.freqCount 0x61) := by decide
theorem test_reset_input : step { tAb with inputs := [.rst] } = .next .reset := by rfl

/-! ### Witnesses: states that commands reach from reset, under SYM_W = 2, CNT_W = 3, POS_W = 4 -/

theorem after_inv (is : List Instr) (s : State) (h : s.Inv) (hw : ∀ i ∈ is, i.wellFormed s.params = true) :
    (after is s).Inv := by
  obtain ⟨t, he, hi, -⟩ := execAll_inv is s h hw
  simpa [after, he] using hi

/-- NSYM = 4, the largest count is 7, MAXLEN = 15. -/
abbrev wp : Params := ⟨2, 3, 4⟩

def wReset : State := .resetWith wp
/-- Symbol 2 is at the largest count, symbol 3 is not in the alphabet. -/
def wCounted : State := after [.freqSet 0 1, .freqSet 1 2, .freqSet 2 7] wReset
/-- NODE[4] = 3 of 0 and 1, NODE[5] = 10 of 4 and 2, so the codes are 00, 01 and 1. -/
def wBuilt : State := after [.build] wCounted
def wEnc : State := after [.encStart] wBuilt
def wDec : State := after [.decStart] wBuilt
/-- Seven symbols of two bits: 14 bits, one short of MAXLEN. -/
def wEncFull : State := after (.encStart :: List.replicate 7 (.encSym 0)) wBuilt
def wDecFull : State := after [.decStart, .decBits 15 0xFFFFFFFF] wBuilt
def wOneCounted : State := after [.freqSet 3 1] wReset
def wOneBuilt : State := after [.build] wOneCounted
def wOneDec : State := after [.decStart] wOneBuilt

theorem wReset_inv : wReset.Inv := resetWith_inv (by decide)
theorem wCounted_inv : wCounted.Inv := after_inv _ _ wReset_inv (by decide)
theorem wBuilt_inv : wBuilt.Inv := after_inv _ _ wCounted_inv (by decide)
theorem wEnc_inv : wEnc.Inv := after_inv _ _ wBuilt_inv (by decide)
theorem wDec_inv : wDec.Inv := after_inv _ _ wBuilt_inv (by decide)
theorem wEncFull_inv : wEncFull.Inv := after_inv _ _ wBuilt_inv (by decide)
theorem wDecFull_inv : wDecFull.Inv := after_inv _ _ wBuilt_inv (by decide)
theorem wOneCounted_inv : wOneCounted.Inv := after_inv _ _ wReset_inv (by decide)
theorem wOneBuilt_inv : wOneBuilt.Inv := after_inv _ _ wOneCounted_inv (by decide)
theorem wOneDec_inv : wOneDec.Inv := after_inv _ _ wOneBuilt_inv (by decide)

theorem wCounted_buildable : Buildable wCounted := ⟨wCounted_inv, by decide, 0, by decide, by decide⟩
theorem wOneCounted_buildable : Buildable wOneCounted := ⟨wOneCounted_inv, by decide, 3, by decide, by decide⟩
theorem wBuilt_step : exec .build wCounted = .next wBuilt := rfl
theorem wOneBuilt_step : exec .build wOneCounted = .next wOneBuilt := rfl

/-! Words and steps -/

theorem witness_DecodeOfEncodeIsTheCommand :
    Params.legal ⟨16, 32, 32⟩ ∧ Instr.wellFormed ⟨16, 32, 32⟩ (.nodeRead 131070 .weight) = true := by decide
theorem witness_DecodedWordIsTheCommandsOnlyWord : decode wp 0x0900000000000006 = .ok (.nodeRead 6 .shape) := by decide
theorem witness_FixedBitsOfDecodedWords : decode wp 0x1920000080000001 = .ok (.decBits 32 0x80000001) := by decide
theorem witness_UnlistedOpcodesAreReserved :
    (opField 0x1B00000000000000).toNat ∉
      [0x00, 0x01, 0x02, 0x03, 0x04, 0x08, 0x09, 0x0A, 0x0F, 0x10, 0x11, 0x12, 0x18, 0x19, 0x1A] := by decide
theorem witness_StepRunsTheDecodedCommand_word :
    (wReset.withFetchWord 64 0x0200000300000000).inputs = .cmd 0x0200000300000000 :: [] ∧
      decode (wReset.withFetchWord 64 0x0200000300000000).params 0x0200000300000000 = .ok (.freqCount 3) := by decide
theorem witness_StepRunsTheDecodedCommand_encode :
    wReset.params.legal ∧ Instr.wellFormed wReset.params (.freqCount 3) = true := by decide
theorem witness_IllegalWordChangesOnlyLastErr :
    (wReset.withFetchWord 64 0x0500000000000000).inputs = .cmd 0x0500000000000000 :: [] ∧
      ∀ i : Instr, i.wellFormed wReset.params = true → encode i ≠ 0x0500000000000000 := by
  refine ⟨by decide, fun i _ h => ?_⟩
  have ho : opField (encode i) = 0x05 := by rw [h]; decide
  rw [encode, opField_commandWord] at ho
  cases i <;> exact absurd ho (by simp [Instr.op])
theorem witness_ResetPutsEveryItemAtItsResetValue :
    ({ wDec with inputs := [.rst, .cmd 0] } : State).inputs = .rst :: [.cmd 0] := by decide
theorem witness_StepIsTotal : wDec.inputs = [] := by decide
theorem witness_LastErrRecordsTheLatestError_ok : ∃ t, execWord 0x0000000000000000 wReset = .next t := ⟨_, rfl⟩
theorem witness_LastErrRecordsTheLatestError_error : ∃ t, execWord 0x0200000200000000 wCounted = .next t := ⟨_, rfl⟩
theorem witness_ResetSatisfiesTheInvariant : wp.legal := by decide
theorem witness_StepKeepsTheInvariant :
    ({ wEnc with inputs := [.cmd 0x1100000000000000] } : State).Inv ∧
      ∃ t, step { wEnc with inputs := [.cmd 0x1100000000000000] } = .next t :=
  ⟨wEnc_inv.withInputs _, _, rfl⟩
theorem witness_NopOnlyResponds : opField 0x0000000000000001 = 0x00 ∧ (0x0000000000000001 : Word64) ≠ 0 := by decide
theorem witness_StatusReadShowsTheView : wBuilt.Inv := wBuilt_inv

/-! Frequency analyzer -/

theorem witness_FreqCountAddsOneOrOverflows_overflow :
    wCounted.Inv ∧ 2 < wCounted.params.nsym ∧ wCounted.count 2 = 2 ^ wCounted.params.cntW - 1 :=
  ⟨wCounted_inv, by decide, by decide⟩
theorem witness_FreqCountAddsOneOrOverflows_adds :
    wCounted.Inv ∧ 3 < wCounted.params.nsym ∧ ¬ wCounted.count 3 = 2 ^ wCounted.params.cntW - 1 :=
  ⟨wCounted_inv, by decide, by decide⟩
theorem witness_FreqSetLoadsTheCount :
    wReset.params.legal ∧ 3 < wReset.params.nsym ∧ 7 < 2 ^ wReset.params.cntW := by decide
theorem witness_FreqReadRespondsWithTheCount : wCounted.params.legal ∧ 3 < wCounted.params.nsym := by decide
theorem witness_CountsNeverWrap :
    wCounted.Inv ∧ Instr.wellFormed wCounted.params (.freqSet 2 6) = true ∧
      ∃ t, exec (.freqSet 2 6) wCounted = .next t ∧ t.count 2 < wCounted.count 2 :=
  ⟨wCounted_inv, by decide, _, rfl, by decide⟩
theorem witness_AnalyzeCountsOccurrences :
    wReset.params.legal ∧ [3, 0, 3].Perm [0, 3, 3] ∧ (∀ sym ∈ [0, 3, 3], sym < wReset.params.nsym) ∧
      ∀ sym, [0, 3, 3].count sym ≤ 2 ^ wReset.params.cntW - 1 :=
  ⟨by decide, by decide, by decide, fun _ => Nat.le_trans List.count_le_length (by decide)⟩

/-! Tree builder and code table -/

theorem witness_BuildIsRefusedInsideAMessage_encode : wEnc.encOpen = true := by decide
theorem witness_BuildIsRefusedInsideAMessage_decode : wDec.decOpen = true := by decide
theorem witness_BuildOfAnEmptyAlphabetFails :
    wReset.encOpen = false ∧ wReset.decOpen = false ∧ ∀ sym, sym < wReset.params.nsym → wReset.count sym = 0 := by decide
theorem witness_BuildCompletes : Buildable wCounted := wCounted_buildable
theorem witness_BuildPlantsTheLeaves :
    Buildable wCounted ∧ exec .build wCounted = .next wBuilt ∧ 3 < wCounted.params.nsym :=
  ⟨wCounted_buildable, wBuilt_step, by decide⟩
theorem witness_BuildMergesTheTwoLeast :
    Buildable wCounted ∧ exec .build wCounted = .next wBuilt ∧ 1 + 1 < wBuilt.nleaves :=
  ⟨wCounted_buildable, wBuilt_step, by decide⟩
theorem witness_BuildShapeOfTheTree :
    Buildable wCounted ∧ exec .build wCounted = .next wBuilt ∧ 2 ≤ wBuilt.nleaves ∧
      descend wBuilt.node [false, true] wBuilt.root = some 1 ∧ (wBuilt.nodeAt 1).isLeaf = true :=
  ⟨wCounted_buildable, wBuilt_step, by decide, by decide, by decide⟩
theorem witness_BuildShapeOfTheTree_one_leaf :
    Buildable wOneCounted ∧ exec .build wOneCounted = .next wOneBuilt ∧ wOneBuilt.nleaves = 1 :=
  ⟨wOneCounted_buildable, wOneBuilt_step, by decide⟩
theorem witness_BuildWeightsAreExact : Buildable wCounted ∧ exec .build wCounted = .next wBuilt :=
  ⟨wCounted_buildable, wBuilt_step⟩
theorem witness_BuildOfOneSymbol :
    wOneCounted.encOpen = false ∧ wOneCounted.decOpen = false ∧ 3 < wOneCounted.params.nsym ∧ wOneCounted.count 3 ≠ 0 ∧
      ∀ i, i < wOneCounted.params.nsym → i ≠ 3 → wOneCounted.count i = 0 := by decide
theorem witness_BuildCodesAreThePaths :
    Buildable wCounted ∧ exec .build wCounted = .next wBuilt ∧ 2 ≤ wBuilt.nleaves ∧ (wBuilt.nodeAt 2).isLeaf = true ∧
      (wBuilt.nodeAt 3).isLeaf = false :=
  ⟨wCounted_buildable, wBuilt_step, by decide, by decide, by decide⟩
theorem witness_BuildDependsOnFreqAlone :
    wCounted.params = wBuilt.params ∧ (∀ sym, wCounted.count sym = wBuilt.count sym) ∧ wCounted.busy = false ∧
      wBuilt.busy = false ∧ exec .build wCounted = .next wBuilt ∧ ∃ t, exec .build wBuilt = .next t :=
  ⟨by decide, fun _ => rfl, by decide, by decide, wBuilt_step, _, rfl⟩
theorem witness_BuildCodeIsPrefixFree :
    Buildable wCounted ∧ exec .build wCounted = .next wBuilt ∧ (wBuilt.codeAt 0).valid = true ∧
      (wBuilt.codeAt 1).valid = true :=
  ⟨wCounted_buildable, wBuilt_step, by decide, by decide⟩
/-- A prefix-free code of the alphabet that is worse than BUILD's. -/
def wCode (a : Nat) : Bits := if a = 0 then [false] else if a = 1 then [true, false] else [true, true]
theorem witness_BuildCodeIsOptimal :
    Buildable wCounted ∧ exec .build wCounted = .next wBuilt ∧
      (∀ a, a < wCounted.params.nsym → wCounted.count a ≠ 0 → wCode a ≠ []) ∧
      ∀ a b, a < wCounted.params.nsym → b < wCounted.params.nsym → wCounted.count a ≠ 0 → wCounted.count b ≠ 0 →
        a ≠ b → ¬ wCode a <+: wCode b :=
  ⟨wCounted_buildable, wBuilt_step, by decide, fun a b ha hb ha0 hb0 hab hp =>
    absurd (List.isPrefixOf_iff_prefix.mpr hp)
      ((by decide : ∀ a < 4, ∀ b < 4, ¬ (wCounted.count a ≠ 0 ∧ wCounted.count b ≠ 0 ∧ a ≠ b ∧
        (wCode a).isPrefixOf (wCode b) = true)) a ha b hb ⟨ha0, hb0, hab, ·⟩)⟩
theorem witness_NodeReadRespondsWithTheNode : wBuilt.Inv ∧ 6 < wBuilt.params.nnode := ⟨wBuilt_inv, by decide⟩
theorem witness_CodeReadRespondsWithTheChunk :
    wBuilt.Inv ∧ 3 < wBuilt.params.nsym ∧ 2 ^ 32 - 1 < 2 ^ 32 ∧ (wBuilt.codeAt 3).valid = false :=
  ⟨wBuilt_inv, by decide, by decide, by decide⟩
theorem witness_CodeReadRespondsWithTheChunk_noTree : wReset.Inv ∧ wReset.treeValid = false := ⟨wReset_inv, by decide⟩

/-! Encoder and decoder -/

theorem witness_EncSymPacksTheCodeword_closed : wBuilt.Inv ∧ 0 < wBuilt.params.nsym ∧ wBuilt.encOpen = false :=
  ⟨wBuilt_inv, by decide, by decide⟩
theorem witness_EncSymPacksTheCodeword_unknown :
    wEnc.Inv ∧ 3 < wEnc.params.nsym ∧ ¬ wEnc.encOpen = false ∧ (wEnc.codeAt 3).valid = false :=
  ⟨wEnc_inv, by decide, by decide, by decide⟩
theorem witness_EncSymPacksTheCodeword_length :
    wEncFull.Inv ∧ 0 < wEncFull.params.nsym ∧ ¬ wEncFull.encOpen = false ∧ ¬ (wEncFull.codeAt 0).valid = false ∧
      wEncFull.encNbits + (wEncFull.codeAt 0).len > 2 ^ wEncFull.params.posW - 1 :=
  ⟨wEncFull_inv, by decide, by decide, by decide, by decide⟩
theorem witness_EncSymPacksTheCodeword_packs :
    wEncFull.Inv ∧ 2 < wEncFull.params.nsym ∧ ¬ wEncFull.encOpen = false ∧ ¬ (wEncFull.codeAt 2).valid = false ∧
      ¬ wEncFull.encNbits + (wEncFull.codeAt 2).len > 2 ^ wEncFull.params.posW - 1 :=
  ⟨wEncFull_inv, by decide, by decide, by decide, by decide⟩
theorem witness_EncEndFlushesThePacker : wEnc.Inv ∧ wEnc.encOpen = true ∧ wEnc.encNbits % 32 = 0 :=
  ⟨wEnc_inv, by decide, by decide⟩
theorem witness_EmptyMessageEncodesToNothing : wReset.encOpen = false := by decide
theorem witness_EncodedMessageIsTheCodewords :
    wBuilt.Inv ∧ wBuilt.encOpen = false ∧ (∀ c ∈ [0, 1, 0, 2], (wBuilt.codeAt c).valid = true) ∧
      ([0, 1, 0, 2].flatMap fun c => (wBuilt.codeAt c).bits).length ≤ 2 ^ wBuilt.params.posW - 1 :=
  ⟨wBuilt_inv, by decide, by decide, by decide⟩
theorem witness_DecBitsRefusals_closed : wBuilt.decOpen = false ∧ 1 ≤ 32 ∧ 32 ≤ 32 := by decide
theorem witness_DecBitsRefusals_noTree :
    (after [.decStart] wReset).decOpen = true ∧ (after [.decStart] wReset).treeValid = false := by decide
theorem witness_DecBitsRefusals_length :
    wDecFull.decOpen = true ∧ wDecFull.treeValid = true ∧ wDecFull.decNbits + 1 > 2 ^ wDecFull.params.posW - 1 := by decide
theorem witness_DecBitsTraversesTheTree :
    wDec.Inv ∧ wDec.decOpen = true ∧ wDec.treeValid = true ∧ (wDec.nodeAt wDec.root).isInternal ∧ 1 ≤ 15 ∧ 15 ≤ 32 ∧
      wDec.decNbits + 15 ≤ 2 ^ wDec.params.posW - 1 ∧ descend wDec.node [] wDec.root = some wDec.decCur :=
  ⟨wDec_inv, by decide, by decide, by decide, by decide, by decide, by decide, by decide⟩
theorem witness_DecBitsTraversesTheTree_inside :
    (after [.decBits 1 0] wDec).Inv ∧ (after [.decBits 1 0] wDec).decOpen = true ∧
      descend (after [.decBits 1 0] wDec).node [false] (after [.decBits 1 0] wDec).root =
        some (after [.decBits 1 0] wDec).decCur :=
  ⟨after_inv _ _ wDec_inv (by decide), by decide, by decide⟩
theorem witness_DecBitsUnderAOneLeafTree_zeros :
    wOneDec.Inv ∧ wOneDec.decOpen = true ∧ wOneDec.treeValid = true ∧ (wOneDec.nodeAt wOneDec.root).isLeaf = true ∧
      wOneDec.decNbits + 15 ≤ 2 ^ wOneDec.params.posW - 1 ∧ ∀ j, j < 15 → (0x0001FFFF : Word32).getLsbD (31 - j) = false :=
  ⟨wOneDec_inv, by decide, by decide, by decide, by decide, by decide⟩
theorem witness_DecBitsUnderAOneLeafTree_one :
    wOneDec.Inv ∧ wOneDec.decOpen = true ∧ wOneDec.treeValid = true ∧ (wOneDec.nodeAt wOneDec.root).isLeaf = true ∧
      wOneDec.decNbits + 3 ≤ 2 ^ wOneDec.params.posW - 1 ∧ 2 < 3 ∧
      (∀ i, i < 2 → (0x20000000 : Word32).getLsbD (31 - i) = false) ∧ (0x20000000 : Word32).getLsbD (31 - 2) = true :=
  ⟨wOneDec_inv, by decide, by decide, by decide, by decide, by decide, by decide, by decide⟩
theorem witness_DecEndChecksTheBoundary_one_leaf :
    wOneDec.Inv ∧ wOneDec.decOpen = true ∧ (wOneDec.nodeAt wOneDec.root).isLeaf = true :=
  ⟨wOneDec_inv, by decide, by decide⟩
theorem witness_DecEndChecksTheBoundary_empty : wReset.decOpen = false := by decide
theorem witness_DecodedMessageIsTheUniqueSplit :
    wBuilt.Inv ∧ wBuilt.treeValid = true ∧ wBuilt.decOpen = false ∧
      (∀ c ∈ [(2, (0x40000000 : Word32)), (1, 0x80000000)], 1 ≤ c.1 ∧ c.1 ≤ 32) ∧
      ∃ (u : State) (d : Data56) (os : List Output), execAll (.decStart :: [(2, (0x40000000 : Word32)), (1, 0x80000000)].map (fun c => .decBits c.1 c.2) ++ [.decEnd])
          wBuilt = .next u ∧ u.outputs = wBuilt.outputs ++ os ++ [.rsp (0x00#8 ++ d)] ∧ symRecords os = [1, 2] :=
  ⟨wBuilt_inv, by decide, by decide, by decide,
    _, 2#56, [.rsp 0, .sym 1, .rsp 1, .sym 2, .rsp 1], rfl, by decide, by decide⟩
theorem witness_DecodeOfEncodeIsTheMessage :
    wBuilt.Inv ∧ wBuilt.treeValid = true ∧ wBuilt.encOpen = false ∧ wBuilt.decOpen = false ∧
      (∀ c ∈ [1, 2], (wBuilt.codeAt c).valid = true) ∧
      ([1, 2].flatMap fun c => (wBuilt.codeAt c).bits).length ≤ 2 ^ wBuilt.params.posW - 1 ∧
      (∃ u, execAll (pseudoEncode [1, 2]) wBuilt = .next u ∧
        u.outputs = wBuilt.outputs ++ [.rsp 0, .rsp 0x0000000200000002, .rsp 0x0000000100000003, .bs ⟨0x60000000, 3, true⟩, .rsp 3]) ∧
      [(2, (0x40000000 : Word32)), (1, 0x80000000)].flatMap (fun c => msbBits c.1 c.2) =
        (bsRecords [.rsp 0, .rsp 0x0000000200000002, .rsp 0x0000000100000003, .bs ⟨0x60000000, 3, true⟩, .rsp 3]).flatMap
          BsRecord.bits :=
  ⟨wBuilt_inv, by decide, by decide, by decide, by decide, by decide, ⟨_, rfl, by decide⟩, by decide⟩

/-! Whole-machine rules -/

theorem witness_OnlyTheirCommandsWriteTheTables : ∃ t, exec (.freqCount 0) wCounted = .next t := ⟨_, rfl⟩
theorem witness_DirectionsAreIndependent : ∃ t, exec (.encSym 3) wEnc = .next t := ⟨_, rfl⟩
theorem witness_ErrorsChangeOnlyWhatTheirRuleSays_unknownSymbol :
    ∃ (t : State) (d : Data56) (os : List Output), execWord 0x1100000300000000 wEnc = .next t ∧ Status.unknownSymbol ≠ .ok ∧
      t.outputs = os ++ [.rsp (Status.unknownSymbol.bits ++ d)] :=
  ⟨_, 0x11000300000000#56, wEnc.outputs, rfl, by decide, by decide⟩
theorem witness_ErrorsChangeOnlyWhatTheirRuleSays_malformedBitstream :
    ∃ (t : State) (d : Data56) (os : List Output), execWord 0x1901000080000000 wOneDec = .next t ∧
      t.outputs = os ++ [.rsp (Status.malformedBitstream.bits ++ d)] :=
  ⟨_, 0x19000000000000#56, wOneDec.outputs, rfl, by decide⟩
theorem witness_ErrorsChangeOnlyWhatTheirRuleSays_length :
    ∃ (t : State) (d : Data56) (os : List Output), execWord 0x1901000000000000 wDecFull = .next t ∧ t.outputs = os ++ [.rsp (Status.length.bits ++ d)] :=
  ⟨_, 0x1900000000000F#56, wDecFull.outputs, rfl, by decide⟩
theorem witness_ReadsAreIdempotent : ∃ v, Instr.statusRead .lastErr = .statusRead v := ⟨_, rfl⟩
theorem witness_TreeIsFixedInsideAMessage : wEnc.encOpen = true ∧ ∃ t, exec .build wEnc = .next t := ⟨by decide, _, rfl⟩

/-! Ports -/

/-- Waiting for a word, which is ENC_END. -/
def pIdle : Port := ⟨wEnc, [], 0, 0, wEnc.outputs⟩
/-- With a bitstream record and a response produced and not taken. -/
def pOffer : Port := ⟨after [.encEnd] wEnc, [.bs ⟨0, 0, true⟩, .rsp 0], 0, 0, wEnc.outputs⟩
/-- The host drives a word and takes nothing. -/
def pWord : PortIn := ⟨false, some 0x1200000000000000, false, false, false⟩

theorem witness_PortsDeliverTheOutputsInOrder : pOffer.Ordered :=
  ⟨by decide, .inr ⟨[.bs ⟨0, 0, true⟩], 0, by decide, by simp⟩⟩
theorem witness_CommandsRunOneAtATime :
    (∃ r, pIdle.clock pWord = .next r) ∧ pWord.rst = false ∧ (pIdle.out pWord.rst).cmdReady = true ∧
      pWord.cmd = some 0x1200000000000000 := ⟨⟨_, rfl⟩, by decide, by decide, by decide⟩
theorem witness_CommandsRunOneAtATime_not_ready :
    (∃ r, pOffer.clock pWord = .next r) ∧ pWord.rst = false ∧ (pOffer.out pWord.rst).cmdReady = false :=
  ⟨⟨_, rfl⟩, by decide, by decide⟩
theorem witness_OffersAreHeldUntilTaken_bs :
    (∃ r, pOffer.clock pWord = .next r) ∧ pWord.rst = false ∧ (pOffer.out false).bs = some ⟨0, 0, true⟩ ∧
      pWord.bsReady = false := ⟨⟨_, rfl⟩, by decide, by decide, by decide⟩
theorem witness_OffersAreHeldUntilTaken_sy :
    (∃ r, ({ pOffer with offered := [.sym 3, .rsp 1] } : Port).clock pWord = .next r) ∧
      (({ pOffer with offered := [.sym 3, .rsp 1] } : Port).out false).sy = some 3 ∧ pWord.syReady = false :=
  ⟨⟨_, rfl⟩, by decide, by decide⟩
theorem witness_OffersAreHeldUntilTaken_rsp :
    (∃ r, ({ pOffer with offered := [.rsp 1] } : Port).clock pWord = .next r) ∧
      (({ pOffer with offered := [.rsp 1] } : Port).out false).rsp = some 1 ∧ pWord.rspReady = false :=
  ⟨⟨_, rfl⟩, by decide, by decide⟩
theorem witness_OffersAreHeldUntilTaken_ready :
    (∃ r, pOffer.clock { pWord with bsReady := true } = .next r) ∧ ({ pWord with bsReady := true } : PortIn).rst = false ∧
      (pOffer.out false).bs = some ⟨0, 0, true⟩ ∧ ({ pWord with bsReady := true } : PortIn).bsReady = true :=
  ⟨⟨_, rfl⟩, by decide, by decide, by decide⟩
theorem witness_OffersAreHeldUntilTaken_none :
    (∃ r, pIdle.clock pWord = .next r) ∧ (pIdle.out false).bs = none ∧ (pIdle.out false).sy = none ∧
      (pIdle.out false).rsp = none := ⟨⟨_, rfl⟩, by decide, by decide, by decide⟩
theorem witness_NonDrainingHostGetsNoResponse :
    pOffer.offered = .bs ⟨0, 0, true⟩ :: [.rsp 0] ∧ (∀ i ∈ [pWord, pWord], i.rst = false ∧ i.bsReady = false) ∧
      ∃ r, Port.clockAll [pWord, pWord] pOffer = .next r := ⟨by decide, by decide, _, rfl⟩
theorem witness_ResetWithdrawsWhatIsOffered : ({ pWord with rst := true } : PortIn).rst = true := by decide

/-! Text forms -/

theorem witness_AssembledLinesAreTheCommands :
    wp.legal ∧ 3 < wp.nsym ∧ 7 < 2 ^ wp.cntW ∧ 6 < wp.nnode ∧ ([true, false] : Bits).length ≤ 32 := by decide
theorem witness_AssembledLinesAreTheCommands_chr :
    Params.default.legal ∧ 0x61 < Params.default.nsym ∧ ∃ c : Char, AsmOperand.chr 'a' = .chr c ∧ c.toNat = 0x61 ∧ 0x61 < 128 :=
  ⟨by decide, by decide, 'a', rfl, rfl, by decide⟩

end Sys2Proof.Tests
end

/-! PROOFS. The family of spec/00_scope.md: a step and the command it runs (R10), the one response of a command word
(R10, R61, R72), the port level's edges (R83), and the lines of assembly text (R80). -/

namespace Sys2Proof

/-! ### What a command's word decodes to (R70, R76 to R78) -/

@[simp] theorem opField_encode (i : Instr) : opField (encode i) = i.op := opField_commandWord ..

/-- A well-formed command's operands stand whole in the fields of its word (R70). -/
theorem fields_encode {i : Instr} {p : Params} (hp : p.legal) (hw : i.wellFormed p = true) :
    (nField (encode i)).toNat = i.nOperand ∧ (symField (encode i)).toNat = i.symOperand ∧
      (immField (encode i)).toNat = i.immOperand := by
  obtain ⟨hn, hsym, himm⟩ := Laws.OperandsFit.all i p hp hw
  rw [encode, nField_commandWord, symField_commandWord, immField_commandWord]
  exact ⟨Nat.mod_eq_of_lt hn, Nat.mod_eq_of_lt hsym, Nat.mod_eq_of_lt himm⟩

/-- `accept` gets the operands themselves from `fields_encode`, and a well-formed command passes its checks (R78). -/
theorem decode_encode {i : Instr} {p : Params} (hp : p.legal) (hw : i.wellFormed p = true) :
    decode p (encode i) = .ok i := by
  obtain ⟨hn, hsym, himm⟩ := fields_encode hp hw
  rw [decode, opField_encode, hn, hsym, himm]
  cases i with
  | nop | freqClear | build | encStart | encEnd | decStart | decEnd => rfl
  | freqCount | freqSet | freqRead | codeRead | encSym =>
    simp_all [Instr.op, Instr.nOperand, Instr.symOperand, Instr.immOperand, Instr.wellFormed, accept_eq_ok]
  | nodeRead idx sel =>
    change accept (decide (sel.toField ≤ 1)) true (decide (idx < p.nnode)) (.nodeRead idx (.ofField sel.toField)) = _
    simpa [accept_eq_ok, NodeSel.toField_le, Instr.wellFormed] using hw
  | statusRead view =>
    change accept true true (decide (view.toField ≤ 8)) (.statusRead (.ofField view.toField)) = _
    simp [accept_eq_ok, View.toField_le]
  | decBits n v =>
    have hv : immField (encode (.decBits n v)) = v := BitVec.eq_of_toNat_eq himm
    change accept (decide (1 ≤ n) && decide (n ≤ 32)) true true (.decBits n (immField (encode (.decBits n v)))) = _
    simpa [accept_eq_ok, hv, Instr.wellFormed] using hw

end Sys2Proof

namespace Sys2Proof.Machine

/-! ### A step (R10) -/

theorem step_of_inputs_nil {s : State} (h : s.inputs = []) : step s = .next s := by rw [step, h]

theorem step_of_inputs_rst {s : State} {rest : List HostInput} (h : s.inputs = .rst :: rest) :
    step s = .next (takeReset { s with inputs := rest }) := by rw [step, h]

theorem step_of_inputs_cmd {s : State} {w : Word64} {rest : List HostInput} (h : s.inputs = .cmd w :: rest) :
    step s = execWord w { s with inputs := rest } := by rw [step, h]

theorem execWord_of_decode_ok {w : Word64} {s : State} {i : Instr} (h : decode s.params w = .ok i) :
    execWord w s = exec i s := by rw [execWord, h]

theorem execWord_of_decode_error {w : Word64} {s : State} {e : Reject} (h : decode s.params w = .error e) :
    execWord w s = .next (raiseIllegal w s) := by rw [execWord, h]

theorem execWord_encode {i : Instr} {s : State} (hp : s.params.legal) (hw : i.wellFormed s.params = true) :
    execWord (encode i) s = exec i s := execWord_of_decode_ok (decode_encode hp hw)

/-- `withFetchWord` delivers a whole word (R21): the step runs it where the block stands. -/
theorem step_withFetchWord (s : State) (w : Word64) : step (s.withFetchWord 64 w.toNat) = execWord w s := by
  have hw : BitVec.ofNat 64 (w.toNat % 2 ^ 64) = w := by
    rw [Nat.mod_eq_of_lt w.isLt, BitVec.ofNat_toNat, BitVec.setWidth_eq]
  rw [State.withFetchWord, hw, step_of_inputs_cmd rfl]

/-- Settles O6: a word runs the command it decodes to, and a well-formed command's word decodes to it (`decode_encode`). -/
theorem stepRunsTheDecodedCommand : Obligations.StepRunsTheDecodedCommand := by
  refine ⟨fun s w rest i hin hdec => ?_, fun s i hp hw => ?_⟩
  · exact (step_of_inputs_cmd hin).trans (execWord_of_decode_ok hdec)
  · rw [step_withFetchWord, execWord_encode hp hw]

/-! ### Records and the response of a command (R10, R61) -/

/-- From `s` to `t` the block has put out records only, no response. -/
def State.RecordsTo (s t : State) : Prop :=
  ∃ recs : List Output, t.outputs = s.outputs ++ recs ∧ ∀ o ∈ recs, ∀ r, o ≠ .rsp r

/-- From `s` to `t` the block has put out records and then one response (R10, R61). -/
def State.RespondsTo (s t : State) : Prop :=
  ∃ (m : State) (st : Status) (d : Data56), s.RecordsTo m ∧ t.outputs = m.outputs ++ [.rsp (responseWord st d)]

namespace State.RecordsTo

variable {s t u : State}

theorem of_outputs_eq (h : t.outputs = s.outputs) : s.RecordsTo t := ⟨[], by simp [h], by simp⟩

theorem of_record {o : Output} (h : t.outputs = s.outputs ++ [o]) (ho : ∀ r, o ≠ .rsp r) : s.RecordsTo t :=
  ⟨[o], h, by simpa using ho⟩

theorem trans (h : s.RecordsTo t) (h' : t.RecordsTo u) : s.RecordsTo u := by
  obtain ⟨recs, ht, hrecs⟩ := h
  obtain ⟨recs', hu, hrecs'⟩ := h'
  refine ⟨recs ++ recs', by rw [hu, ht, List.append_assoc], fun o ho => ?_⟩
  rcases List.mem_append.mp ho with ho | ho
  · exact hrecs o ho
  · exact hrecs' o ho

theorem trans_respondsTo (h : s.RecordsTo t) (h' : t.RespondsTo u) : s.RespondsTo u := by
  obtain ⟨m, st, d, hm, hu⟩ := h'
  exact ⟨m, st, d, h.trans hm, hu⟩

end State.RecordsTo

theorem State.RespondsTo.respond {s t : State} (h : s.RecordsTo t) (st : Status) (d : Data56) :
    s.RespondsTo (respond st d t) :=
  ⟨t, st, d, h, respond_outputs ..⟩

theorem State.RespondsTo.raise {s t : State} (h : s.RecordsTo t) (e : Status) (op : BitVec 8) (sym pos : Nat) :
    s.RespondsTo (raise e op sym pos t) :=
  ⟨t, e, errData op sym pos, h, raise_outputs ..⟩

theorem packBit_recordsTo (b : Bool) (s : State) : s.RecordsTo (packBit b s) := by
  by_cases h : s.pkCnt = 31
  · obtain ⟨r, -, -, ho, -⟩ := packBit_full b s h
    exact .of_record ho nofun
  · exact .of_outputs_eq (packBit_not_full b s h).1

theorem packBits_recordsTo (bs : Bits) (s : State) : s.RecordsTo (packBits bs s) := by
  induction bs generalizing s with
  | nil => exact .of_outputs_eq rfl
  | cons b bs ih => exact (packBit_recordsTo b s).trans (ih _)

theorem decodeBit_recordsTo {b : Bool} {s t : State} {e : Nat} (h : decodeBit b s = some (t, e)) : s.RecordsTo t := by
  cases hr : (s.nodeAt s.root).isLeaf with
  | true =>
    cases b with
    | true => rw [decodeBit_one_leaf_one s hr] at h; cases h
    | false =>
      rw [decodeBit_one_leaf_zero s hr] at h
      cases h
      exact .of_record (o := .sym (BitVec.ofNat 16 s.root)) rfl nofun
  | false =>
    cases hl : (s.nodeAt ((s.nodeAt s.decCur).child b)).isLeaf with
    | true =>
      rw [decodeBit_leaf s b hr hl] at h
      cases h
      exact .of_record (o := .sym (BitVec.ofNat 16 ((s.nodeAt s.decCur).child b))) rfl nofun
    | false =>
      rw [decodeBit_internal s b hr hl] at h
      cases h
      exact .of_outputs_eq (List.append_nil _)

theorem decodeBits_respondsTo (op : BitVec 8) (bits : Bits) (e : Nat) (s : State) :
    s.RespondsTo (decodeBits op bits e s) := by
  induction bits generalizing e s with
  | nil => exact .respond (.of_outputs_eq rfl) ..
  | cons b bits ih =>
    rw [decodeBits]
    split
    next t k h => exact (decodeBit_recordsTo h).trans_respondsTo (ih _ t)
    next => exact .raise (.of_outputs_eq rfl) ..

/-- Every command answers a next state, after its records and one response (R10, R61). -/
theorem exec_respondsTo (i : Instr) (s : State) : ∃ t, exec i s = .next t ∧ s.RespondsTo t := by
  have hs : s.RecordsTo s := .of_outputs_eq rfl
  cases i with
  | nop => exact ⟨_, rfl, .respond hs ..⟩
  | freqClear => exact ⟨_, rfl, .respond (.of_outputs_eq rfl) ..⟩
  | freqCount sym =>
    simp only [exec, execFreqCount]
    split
    · exact ⟨_, rfl, .raise hs ..⟩
    · exact ⟨_, rfl, .respond (.of_outputs_eq rfl) ..⟩
  | freqSet sym cnt => exact ⟨_, rfl, .respond (.of_outputs_eq rfl) ..⟩
  | freqRead sym => exact ⟨_, rfl, .respond hs ..⟩
  | build =>
    simp only [exec, execBuild]
    split_ifs
    · exact ⟨_, rfl, .raise hs ..⟩
    · exact ⟨_, rfl, .raise (.of_outputs_eq rfl) ..⟩
    · exact ⟨_, rfl, .respond (.of_outputs_eq rfl) ..⟩
  | nodeRead idx sel => cases sel <;> exact ⟨_, rfl, .respond hs ..⟩
  | codeRead sym chunk => exact ⟨_, rfl, .respond hs ..⟩
  | statusRead view => exact ⟨_, rfl, .respond hs ..⟩
  | encStart =>
    simp only [exec, execEncStart]
    split
    · exact ⟨_, rfl, .raise hs ..⟩
    · exact ⟨_, rfl, .respond (.of_outputs_eq rfl) ..⟩
  | encSym sym =>
    simp only [exec, execEncSym]
    split_ifs
    · exact ⟨_, rfl, .raise hs ..⟩
    · exact ⟨_, rfl, .raise (.of_outputs_eq rfl) ..⟩
    · exact ⟨_, rfl, .raise (.of_outputs_eq rfl) ..⟩
    · exact ⟨_, rfl, .respond ((packBits_recordsTo _ s).trans (.of_outputs_eq rfl)) ..⟩
  | encEnd =>
    simp only [exec, execEncEnd]
    split
    · exact ⟨_, rfl, .raise hs ..⟩
    · exact ⟨_, rfl, .respond (.of_record (emitBs_outputs s _ _ true) nofun) ..⟩
  | decStart =>
    simp only [exec, execDecStart]
    split
    · exact ⟨_, rfl, .raise hs ..⟩
    · exact ⟨_, rfl, .respond (.of_outputs_eq rfl) ..⟩
  | decBits n v =>
    simp only [exec, execDecBits]
    split_ifs
    · exact ⟨_, rfl, .raise hs ..⟩
    · exact ⟨_, rfl, .raise (.of_outputs_eq rfl) ..⟩
    · exact ⟨_, rfl, .raise (.of_outputs_eq rfl) ..⟩
    · exact ⟨_, rfl, decodeBits_respondsTo ..⟩
  | decEnd =>
    simp only [exec, execDecEnd]
    split_ifs
    · exact ⟨_, rfl, .raise hs ..⟩
    · exact ⟨_, rfl, .raise (.of_outputs_eq rfl) ..⟩
    · exact ⟨_, rfl, .respond (.of_outputs_eq rfl) ..⟩

/-- So does every command word, also one that spells no command (R76, R79). -/
theorem execWord_respondsTo (w : Word64) (s : State) : ∃ t, execWord w s = .next t ∧ s.RespondsTo t := by
  cases hdec : decode s.params w with
  | ok i => rw [execWord_of_decode_ok hdec]; exact exec_respondsTo i s
  | error e => rw [execWord_of_decode_error hdec]; exact ⟨_, rfl, .raise (.of_outputs_eq rfl) ..⟩

/-- Settles O10, from what one command word puts out. -/
theorem everyWordGetsOneResponseLast : Obligations.EveryWordGetsOneResponseLast := by
  intro w s
  obtain ⟨t, ht, m, st, d, ⟨recs, hm, hrecs⟩, hout⟩ := execWord_respondsTo w s
  exact ⟨t, recs, st, d, ht, by rw [hout, hm, responseWord], hrecs⟩

/-- Settles O9, by the three inputs a step can find. -/
theorem stepIsTotal : Obligations.StepIsTotal := by
  refine ⟨fun s => ?_, fun s => step_of_inputs_nil⟩
  match hin : s.inputs with
  | [] => exact ⟨_, step_of_inputs_nil hin⟩
  | .rst :: rest => exact ⟨_, step_of_inputs_rst hin⟩
  | .cmd w :: rest =>
    obtain ⟨t, ht, -⟩ := execWord_respondsTo w { s with inputs := rest }
    exact ⟨t, (step_of_inputs_cmd hin).trans ht⟩

/-! ### The ports (R82, R83) -/

/-- cmd_ready is 1 exactly when the block works on nothing and all it produced is transferred (R83, R262). -/
theorem Port.out_cmdReady_iff (q : Port) (rst : Bool) :
    (q.out rst).cmdReady = true ↔ rst = false ∧ q.wait = 0 ∧ q.offered = [] := by
  cases rst with
  | true => simp [Port.out, PortOut.idle]
  | false =>
    by_cases hwait : q.wait = 0
    · match hoff : q.offered with
      | [] | .bs _ :: _ | .sym _ :: _ | .rsp _ :: _ => simp [Port.out, PortOut.idle, hwait, hoff]
    · simp [Port.out, PortOut.idle, hwait]

/-- What one clock edge can do (R82, R83, R261), with what leads to it. -/
inductive Port.Edge (q : Port) (i : PortIn) : Port → Prop
  | reset (hrst : i.rst = true) : Edge q i q.reset
  | work (hrst : i.rst = false) (hwait : q.wait ≠ 0) : Edge q i q.hold
  | transfer (o : Output) (rest : List Output) (hrst : i.rst = false) (hwait : q.wait = 0)
      (hoff : q.offered = o :: rest) (htake : i.takes o = true) : Edge q i (q.transfer o rest)
  | keep (o : Output) (rest : List Output) (hrst : i.rst = false) (hwait : q.wait = 0)
      (hoff : q.offered = o :: rest) (htake : i.takes o = false) : Edge q i q.hold
  | idle (hrst : i.rst = false) (hwait : q.wait = 0) (hoff : q.offered = []) (hcmd : i.cmd = none) : Edge q i q.hold
  | accept (w : Word64) (t : State) (hrst : i.rst = false) (hwait : q.wait = 0) (hoff : q.offered = [])
      (hcmd : i.cmd = some w) (hrun : execWord w q.block = .next t) : Edge q i (q.accept t)

/-- `Port.Edge` is the clock's transition, case by case. -/
theorem Port.clock_eq_next_iff {q r : Port} {i : PortIn} : q.clock i = .next r ↔ q.Edge i r := by
  constructor
  · intro h
    unfold Port.clock at h
    split at h
    next hrst => cases h; exact .reset hrst
    next hrst =>
      rw [Bool.not_eq_true] at hrst
      split at h
      next hwait => cases h; exact .work hrst hwait
      next hwait =>
        rw [not_not] at hwait
        split at h
        next o rest hoff =>
          split at h
          next htake => cases h; exact .transfer o rest hrst hwait hoff htake
          next htake => cases h; exact .keep o rest hrst hwait hoff (by simpa using htake)
        next hoff =>
          split at h
          next hcmd => cases h; exact .idle hrst hwait hoff hcmd
          next w hcmd =>
            split at h
            next t hrun => cases h; exact .accept w t hrst hwait hoff hcmd hrun
            all_goals cases h
  · intro h
    cases h <;> simp_all [Port.clock]

/-- Settles O55, by what an edge can do: only `accept` runs a word, and it needs cmd_ready. -/
theorem commandsRunOneAtATime : Obligations.CommandsRunOneAtATime := by
  intro q r i hclock hrst
  have hedge := Port.clock_eq_next_iff.mp hclock
  simp only [← Bool.not_eq_true, Port.out_cmdReady_iff]
  refine ⟨fun ⟨_, _, hoff⟩ => hoff, fun w ⟨_, hwait, hoff⟩ hw => ?_, fun h => ?_⟩
  · cases hedge with
    | reset hrst' => simp [hrst] at hrst'
    | work _ hwait' => exact absurd hwait hwait'
    | transfer _ _ _ _ hoff' | keep _ _ _ _ hoff' => simp [hoff] at hoff'
    | idle _ _ _ hcmd => simp [hw] at hcmd
    | accept w' t _ _ _ hcmd hrun =>
      cases hw.symm.trans hcmd
      exact hrun
  · cases hedge with
    | reset hrst' => simp [hrst] at hrst'
    | work | transfer | keep | idle => rfl
    | accept w t _ hwait hoff hcmd =>
      rcases h with hready | hnone
      · exact absurd ⟨by simpa using hrst, hwait, hoff⟩ hready
      · simp [hnone] at hcmd

/-! ### Assembly text (R80) -/

/-- A well-formed command's operands fit, so its fields make its word. -/
theorem fieldsWord_operands {i : Instr} {p : Params} (hp : p.legal) (hw : i.wellFormed p = true) :
    fieldsWord i.op i.nOperand i.symOperand i.immOperand = some (encode i) :=
  if_pos (Laws.OperandsFit.all i p hp hw)

/-- Both ways to write a symbol operand name the symbol (R6, R80). -/
theorem AsmOperand.symbol_eq_some {s : AsmOperand} {sym : Nat}
    (h : s = .int sym ∨ ∃ c : Char, s = .chr c ∧ c.toNat = sym ∧ sym < 128) : s.symbol = some sym := by
  obtain rfl | ⟨c, rfl, rfl, hc⟩ := h
  · rfl
  · exact if_pos hc

/-- The five lines with a symbol operand, however it is written. -/
theorem assemble_symbol_lines {p : Params} (hp : p.legal) {s : AsmOperand} {sym : Nat} (hs : s.symbol = some sym)
    (hlt : sym < p.nsym) :
    assemble "FREQ_COUNT" [s] = some (encode (.freqCount sym)) ∧
      (∀ c, c < 2 ^ p.cntW → assemble "FREQ_SET" [s, .int c] = some (encode (.freqSet sym c))) ∧
      assemble "FREQ_READ" [s] = some (encode (.freqRead sym)) ∧
      (∀ k, k < 2 ^ 32 → assemble "CODE_READ" [s, .int k] = some (encode (.codeRead sym k))) ∧
      assemble "ENC_SYM" [s] = some (encode (.encSym sym)) := by
  simp only [assemble, hs, Option.bind_some]
  exact ⟨fieldsWord_operands (i := .freqCount sym) hp (by simpa [Instr.wellFormed]),
    fun c hc => fieldsWord_operands (i := .freqSet sym c) hp (by simp [Instr.wellFormed, hlt, hc]),
    fieldsWord_operands (i := .freqRead sym) hp (by simpa [Instr.wellFormed]),
    fun k hk => fieldsWord_operands (i := .codeRead sym k) hp (by simpa [Instr.wellFormed, hlt] using hk),
    fieldsWord_operands (i := .encSym sym) hp (by simpa [Instr.wellFormed])⟩

theorem assemble_decBits_string {p : Params} (hp : p.legal) {bs : Bits} (h1 : 1 ≤ bs.length) (h32 : bs.length ≤ 32) :
    assemble "DEC_BITS" [.bits bs] = some (encode (.decBits bs.length (msbChunk bs 0))) :=
  (if_pos ⟨h1, h32⟩).trans <|
    fieldsWord_operands (i := .decBits bs.length (msbChunk bs 0)) hp (by simp [Instr.wellFormed, h1, h32])

/-- Settles O59: each line puts the command's operands into the fields of its word. -/
theorem assembledLinesAreTheCommands : Obligations.AssembledLinesAreTheCommands := by
  intro p hp
  refine ⟨fun sym s hlt hs => assemble_symbol_lines hp (AsmOperand.symbol_eq_some hs) hlt, ?_⟩
  refine ⟨rfl, rfl, rfl, fun i hi => ⟨?_, ?_⟩, fun v => ?_, rfl, rfl, rfl, fun n v h1 h32 => ?_,
    fun bs h1 h32 => ?_, rfl⟩
  · exact fieldsWord_operands (i := .nodeRead i .shape) hp (by simpa [Instr.wellFormed])
  · exact fieldsWord_operands (i := .nodeRead i .weight) hp (by simpa [Instr.wellFormed])
  · exact fieldsWord_operands (i := .statusRead v) hp rfl
  · exact fieldsWord_operands (i := .decBits n v) hp (by simp [Instr.wellFormed, h1, h32])
  · refine ⟨msbChunk bs 0, assemble_decBits_string hp h1 h32, fun j hj => ?_⟩
    simpa using msbChunk_getLsbD bs 0 j hj

end Sys2Proof.Machine

/-! PROOFS. The family of spec/10_state.md: the invariant of every step (R25 to R30), LAST_ERR (R31), the leaves BUILD
plants (R24), and which command may write which item of R22. -/

namespace Sys2Proof

/-! ### The command a word spells (R76 to R78) -/

/-- A word that decodes to a command has the command's opcode and operands in its fields, and they are legal. Only
NODE_READ and STATUS_READ (rows 7 and 9 of `decode`) hold an operand in another form than its field. -/
theorem decode_ok_fields {p : Params} {w : Word64} {i : Instr} (h : decode p w = .ok i) :
    opField w = i.op ∧ (nField w).toNat = i.nOperand ∧ (symField w).toNat = i.symOperand ∧
      (immField w).toNat = i.immOperand ∧ i.wellFormed p = true := by
  unfold decode at h
  simp only at h
  split at h
  case h_16 => cases h
  case h_7 hop =>
    obtain ⟨hn, hsym, himm, rfl⟩ := accept_eq_ok.mp h
    refine ⟨BitVec.eq_of_toNat_eq hop, ?_, beq_iff_eq.mp hsym, rfl, himm⟩
    exact (NodeSel.toField_ofField _ (by simpa using hn)).symm
  case h_9 hop =>
    obtain ⟨hn, hsym, himm, rfl⟩ := accept_eq_ok.mp h
    refine ⟨BitVec.eq_of_toNat_eq hop, beq_iff_eq.mp hn, beq_iff_eq.mp hsym, ?_, rfl⟩
    exact (View.toField_ofField _ (by simpa using himm)).symm
  all_goals
    rename_i hop
    obtain ⟨hn, hsym, himm, rfl⟩ := accept_eq_ok.mp h
    refine ⟨BitVec.eq_of_toNat_eq hop, ?_⟩
    simp_all [Instr.nOperand, Instr.symOperand, Instr.immOperand, Instr.wellFormed, (immField w).isLt]

end Sys2Proof

namespace Sys2Proof.Machine

/-! ### Every step keeps the invariant -/

theorem execWord_inv {w : Word64} {s t : State} (h : s.Inv) (he : execWord w s = .next t) : t.Inv := by
  cases hdec : decode s.params w with
  | ok i =>
    obtain ⟨-, -, -, -, hw⟩ := decode_ok_fields hdec
    exact exec_inv i h hw (execWord_of_decode_ok hdec ▸ he)
  | error e =>
    rw [execWord_of_decode_error hdec] at he
    cases he
    exact h.raise ..

/-- Settles O14, by the three inputs a step can find; a command word is `execWord_inv`. -/
theorem stepKeepsTheInvariant : Obligations.StepKeepsTheInvariant := by
  intro s t h he
  match hin : s.inputs with
  | [] => cases (step_of_inputs_nil hin).symm.trans he; exact h
  | .rst :: rest =>
    cases (step_of_inputs_rst hin).symm.trans he
    exact (h.withInputs rest).takeReset
  | .cmd w :: rest => exact execWord_inv (h.withInputs rest) ((step_of_inputs_cmd hin).symm.trans he)

/-! ### The leaves of a built tree (R122) -/

theorem Buildable.alphabet_ne_nil {s : State} (h : Buildable s) : s.alphabet ≠ [] := by
  obtain ⟨sym, hsym⟩ := h.nonempty
  exact List.ne_nil_of_mem (mem_alphabet.mpr hsym)

/-- A buildable state's BUILD succeeds (R120). -/
theorem Buildable.exec_build {s : State} (h : Buildable s) :
    exec .build s = .next (respond .ok (field 24 17 (rebuild s.alphabet s).root ||| field 0 17 (rebuild s.alphabet s).nleaves)
      (rebuild s.alphabet s)) := by
  have hbusy : s.busy = false := by simp [State.busy, h.closed]
  simp [exec, execBuild, hbusy, h.alphabet_ne_nil]

/-- Below NSYM the arena of a built tree holds the leaves of the alphabet and nothing else (R24, R122). -/
theorem rebuild_nodeAt_of_lt_nsym {s : State} (hne : s.alphabet ≠ []) {sym : Nat} (hlt : sym < s.params.nsym) :
    (rebuild s.alphabet s).nodeAt sym = if sym ∈ s.alphabet then .leaf (s.count sym) else .empty := by
  obtain ⟨r, seq, -, hforest⟩ := buildTree_forest s.count s.params.nsym s.alphabet (alphabet_pairwise s)
    (fun i hi => (mem_alphabet.mp hi).1) hne
  exact hforest.low sym hlt

/-- Settles O26, from the leaves of the finished arena. -/
theorem buildPlantsTheLeaves : Obligations.BuildPlantsTheLeaves := by
  intro s t hb he sym hlt
  cases hb.exec_build.symm.trans he
  rw [respond_nodeAt, rebuild_nodeAt_of_lt_nsym hb.alphabet_ne_nil hlt]
  simp [mem_alphabet, hlt]

/-! ### What a command writes, and its answer (R51, R234, R236) -/

/-- What a command has written when it answers with this status, its records included: an upper bound, for a read or a
refused command nothing. When each of them arises is left to the command's own meaning. -/
inductive Effect (s : State) : Instr → Status → State → Prop
  | unchanged (i : Instr) {st : Status} (h : st = .ok ∨ st = .sequence ∨ st = .countOverflow) : Effect s i st s
  | freqClear : Effect s .freqClear .ok { s with freq := [] }
  | freqCount (sym : Nat) : Effect s (.freqCount sym) .ok (s.setCount sym (s.count sym + 1))
  | freqSet (sym cnt : Nat) : Effect s (.freqSet sym cnt) .ok (s.setCount sym cnt)
  | build : Effect s .build .ok (rebuild s.alphabet s)
  | buildEmpty : Effect s .build .emptyAlphabet (clearTree s)
  | encStart : Effect s .encStart .ok { s with encOpen := true, encNsym := 0, encNbits := 0, pkBuf := 0, pkCnt := 0 }
  | encSym (sym nbits nsym : Nat) :
      Effect s (.encSym sym) .ok { packBits (s.codeAt sym).bits s with encNbits := nbits, encNsym := nsym }
  | encSymAborts (sym : Nat) {e : Status} (he : e = .unknownSymbol ∨ e = .length) :
      Effect s (.encSym sym) e (encAbort s)
  | encEnd : Effect s .encEnd .ok (encAbort (emitBs s.pkBuf s.pkCnt.val true s))
  | decStart : Effect s .decStart .ok { s with decOpen := true, decCur := s.root, decNbits := 0, decNsym := 0 }
  | decBits (n : Nat) (v : Word32) (m k : Nat) (syms : List Nat) : Effect s (.decBits n v) .ok (decoded s m k syms)
  | decBitsMalformed (n : Nat) (v : Word32) (hroot : (s.nodeAt s.root).isLeaf = true) (k : Nat) (syms : List Nat) :
      Effect s (.decBits n v) .malformedBitstream (decAbort (decoded s s.decCur k syms))
  | decBitsAborts (n : Nat) (v : Word32) {e : Status} (he : e = .noTree ∨ e = .length) :
      Effect s (.decBits n v) e (decAbort s)
  | decEnd {st : Status} (h : st = .ok ∨ st = .malformedBitstream) : Effect s .decEnd st (decAbort s)

/-- A command of opcode `op` ends at `m` with its answer: the response OK, or an error recorded in LAST_ERR (R9, R234). -/
inductive Answer (op : BitVec 8) (m : State) : Status → State → Prop
  | ok (d : Data56) : Answer op m .ok (respond .ok d m)
  | error {e : Status} (he : e ≠ .ok) (sym pos : Nat) : Answer op m e (raise e op sym pos m)

/-- One bit moves the traversal and may put out a symbol; only under a one-leaf tree it can be malformed (R190, R194). -/
theorem decodeBit_cases (b : Bool) (s : State) :
    (∃ m syms, decodeBit b s = some (decoded s m 1 syms, syms.length) ∧
        ((s.nodeAt s.root).isLeaf = true → m = s.decCur)) ∨
      decodeBit b s = none ∧ (s.nodeAt s.root).isLeaf = true := by
  cases hr : (s.nodeAt s.root).isLeaf with
  | true =>
    cases b with
    | true => exact .inr ⟨decodeBit_one_leaf_one s hr, rfl⟩
    | false => exact .inl ⟨_, _, decodeBit_one_leaf_zero s hr, fun _ => rfl⟩
  | false =>
    cases hl : (s.nodeAt ((s.nodeAt s.decCur).child b)).isLeaf with
    | true => exact .inl ⟨_, _, decodeBit_leaf s b hr hl, nofun⟩
    | false => exact .inl ⟨_, _, decodeBit_internal s b hr hl, nofun⟩

/-- The bits of DEC_BITS, whatever the tree: all decoded, or up to the first malformed one (R190, R192, R194). -/
theorem decodeBits_cases (op : BitVec 8) (bits : Bits) (e : Nat) (s : State) :
    (∃ m k syms, decodeBits op bits e s = respond .ok (field 0 56 (e + syms.length)) (decoded s m k syms)) ∨
      (s.nodeAt s.root).isLeaf = true ∧ ∃ k syms, decodeBits op bits e s =
        raise .malformedBitstream op 0 (s.decNbits + k) (decAbort (decoded s s.decCur k syms)) := by
  induction bits generalizing e s with
  | nil => exact .inl ⟨s.decCur, 0, [], by rw [decoded_zero]; rfl⟩
  | cons b bits ih =>
    rw [decodeBits]
    rcases decodeBit_cases b s with ⟨m, syms, hbit, hcur⟩ | ⟨hbit, hroot⟩
    · simp only [hbit]
      rcases ih (e + syms.length) (decoded s m 1 syms) with ⟨m', k, syms', hrun⟩ | ⟨hroot, k, syms', hrun⟩
      · refine .inl ⟨m', 1 + k, syms ++ syms', ?_⟩
        rw [hrun, decoded_decoded, List.length_append, Nat.add_assoc]
      · refine .inr ⟨hroot, 1 + k, syms ++ syms', ?_⟩
        rw [hrun, decoded_decoded, ← hcur hroot, ← Nat.add_assoc]
        rfl
    · simp only [hbit]
      exact .inr ⟨hroot, 0, [], by rw [decoded_zero]; rfl⟩

/-- A command runs: it takes the block through one of its effects to its answer. -/
def Ran (i : Instr) (s t : State) : Prop := ∃ st m, Effect s i st m ∧ Answer i.op m st t

theorem Ran.ok {i : Instr} {s m : State} (h : Effect s i .ok m) (d : Data56) : Ran i s (respond .ok d m) :=
  ⟨.ok, m, h, .ok d⟩

theorem Ran.error {i : Instr} {s m : State} {e : Status} (h : Effect s i e m) (he : e ≠ .ok) (sym pos : Nat) :
    Ran i s (raise e i.op sym pos m) :=
  ⟨e, m, h, .error he sym pos⟩

/-- A read, or NOP, only responds. -/
theorem Ran.unchanged {i : Instr} {s : State} (d : Data56) : Ran i s (respond .ok d s) := .ok (.unchanged i (.inl rfl)) d

/-- A refused command only raises its error. -/
theorem Ran.refused {i : Instr} {s : State} {e : Status} (h : e = .sequence ∨ e = .countOverflow) (sym pos : Nat) :
    Ran i s (raise e i.op sym pos s) := .error (.unchanged i (.inr h)) (by rintro rfl; simp at h) sym pos

/-- Every command that answers has run so: the branches of its meaning, one by one. -/
theorem exec_ran {i : Instr} {s t : State} (he : exec i s = .next t) : Ran i s t := by
  cases i with
  | nop | freqRead | codeRead | statusRead => cases he; exact .unchanged _
  | nodeRead idx sel => cases sel <;> cases he <;> exact .unchanged _
  | freqClear => cases he; exact .ok .freqClear _
  | freqSet => cases he; exact .ok (.freqSet _ _) _
  | freqCount sym =>
    simp only [exec, execFreqCount] at he
    split at he <;> cases he
    · exact .refused (.inr rfl) _ _
    · exact .ok (.freqCount sym) _
  | build =>
    simp only [exec, execBuild] at he
    split_ifs at he <;> cases he
    · exact .refused (.inl rfl) _ _
    · exact .error .buildEmpty (by decide) _ _
    · exact .ok .build _
  | encStart =>
    simp only [exec, execEncStart] at he
    split at he <;> cases he
    · exact .refused (.inl rfl) _ _
    · exact .ok .encStart _
  | encSym sym =>
    simp only [exec, execEncSym] at he
    split_ifs at he <;> cases he
    · exact .refused (.inl rfl) _ _
    · exact .error (.encSymAborts sym (.inl rfl)) (by decide) _ _
    · exact .error (.encSymAborts sym (.inr rfl)) (by decide) _ _
    · exact .ok (.encSym sym _ _) _
  | encEnd =>
    simp only [exec, execEncEnd] at he
    split at he <;> cases he
    · exact .refused (.inl rfl) _ _
    · exact .ok .encEnd _
  | decStart =>
    simp only [exec, execDecStart] at he
    split at he <;> cases he
    · exact .refused (.inl rfl) _ _
    · exact .ok .decStart _
  | decBits n v =>
    simp only [exec, execDecBits] at he
    split_ifs at he <;> cases he
    · exact .refused (.inl rfl) _ _
    · exact .error (.decBitsAborts n v (.inl rfl)) (by decide) _ _
    · exact .error (.decBitsAborts n v (.inr rfl)) (by decide) _ _
    · rcases decodeBits_cases (Instr.op (.decBits n v)) (msbBits n v) 0 s with
        ⟨m, k, syms, hrun⟩ | ⟨hroot, k, syms, hrun⟩ <;> rw [hrun]
      · exact .ok (.decBits n v m k syms) _
      · exact .error (.decBitsMalformed n v hroot k syms) (by decide) _ _
  | decEnd =>
    simp only [exec, execDecEnd] at he
    split_ifs at he <;> cases he
    · exact .refused (.inl rfl) _ _
    · exact .error (.decEnd (.inr rfl)) (by decide) _ _
    · exact .ok (.decEnd (.inl rfl)) _

/-! ### LAST_ERR (R31, R234) -/

/-- No command writes LAST_ERR before its answer (R31). -/
theorem Effect.lastErr_eq {s m : State} {i : Instr} {st : Status} (h : Effect s i st m) : m.lastErr = s.lastErr := by
  cases h with
  | encSym => exact packBits_lastErr _ s
  | _ => rfl

/-- ERR_OP, ERR_SYM and ERR_POS side by side (R73). -/
theorem errData_eq_append (op : BitVec 8) (sym pos : Nat) :
    errData op sym pos = op ++ BitVec.ofNat 16 sym ++ BitVec.ofNat 32 pos := by
  have hflat : (Status.ok.bits ++ op ++ BitVec.ofNat 16 sym ++ BitVec.ofNat 32 pos : BitVec (8 + 8 + 16 + 32)).toNat =
      (Status.ok.bits ++ (op ++ BitVec.ofNat 16 sym ++ BitVec.ofNat 32 pos : BitVec (8 + 16 + 32)) :
        BitVec (8 + (8 + 16 + 32))).toNat := by
    simp only [BitVec.toNat_append, Nat.shiftLeft_or_distrib, ← Nat.shiftLeft_add, Nat.or_assoc]
  exact (responseWord_inj ((responseWord_err .ok op sym pos).trans (BitVec.eq_of_toNat_eq hflat))).2

/-- The last response is an error that LAST_ERR records for opcode `op`, or OK with LAST_ERR as it was (R31, R73). -/
def RecordsError (op : BitVec 8) (s t : State) : Prop :=
  ∃ (os : List Output) (st : Status) (d : Data56), t.outputs = os ++ [.rsp (st.bits ++ d)] ∧
    if st = .ok then t.lastErr = s.lastErr
    else t.lastErr.code = st ∧ t.lastErr.op = op ∧ d = op ++ t.lastErr.sym ++ t.lastErr.pos

/-- An answer to what has left LAST_ERR alone. -/
theorem Answer.recordsError {op : BitVec 8} {s m t : State} {st : Status} (h : Answer op m st t)
    (hm : m.lastErr = s.lastErr) : RecordsError op s t := by
  cases h with
  | ok d => exact ⟨m.outputs, .ok, d, rfl, hm⟩
  | error he sym pos =>
    refine ⟨m.outputs, st, errData op sym pos, rfl, ?_⟩
    rw [if_neg he]
    exact ⟨rfl, rfl, errData_eq_append op sym pos⟩

/-- Settles O12: a command's answer or an illegal word's error is the only write to LAST_ERR. -/
theorem lastErrRecordsTheLatestError : Obligations.LastErrRecordsTheLatestError := by
  intro w s t he
  cases hdec : decode s.params w with
  | ok i =>
    rw [execWord_of_decode_ok hdec] at he
    obtain ⟨st, m, heff, hans⟩ := exec_ran he
    obtain ⟨hop, -⟩ := decode_ok_fields hdec
    rw [hop]
    exact hans.recordsError heff.lastErr_eq
  | error e =>
    rw [execWord_of_decode_error hdec] at he
    cases he
    exact (Answer.error (e := .illegalCmd) (by decide) _ _).recordsError rfl

/-! ### Which command writes what (R51, R236) -/

/-- An answer writes LAST_ERR and the output sequence only (R9, R234). -/
theorem Answer.frame {op : BitVec 8} {m t : State} {st : Status} (h : Answer op m st t) :
    ∃ err os, t = { m with lastErr := err, outputs := os } := by
  cases h with
  | ok d => exact ⟨_, _, rfl⟩
  | error => exact ⟨_, _, rfl⟩

namespace Effect

variable {s m : State} {i : Instr} {st : Status}

theorem params_eq (h : Effect s i st m) : m.params = s.params := by
  cases h with
  | encSym => exact packBits_params _ s
  | _ => rfl

theorem tree_eq (h : Effect s i st m) (hi : i ≠ .build) :
    m.node = s.node ∧ m.root = s.root ∧ m.nleaves = s.nleaves ∧ m.treeValid = s.treeValid ∧ m.code = s.code := by
  cases h with
  | build | buildEmpty => exact absurd rfl hi
  | encSym => simp
  | _ => exact ⟨rfl, rfl, rfl, rfl, rfl⟩

theorem freq_eq (h : Effect s i st m) (hclear : i ≠ .freqClear) (hcount : ∀ sym, i ≠ .freqCount sym)
    (hset : ∀ sym c, i ≠ .freqSet sym c) : m.freq = s.freq := by
  cases h with
  | freqClear => exact absurd rfl hclear
  | freqCount sym => exact absurd rfl (hcount sym)
  | freqSet sym cnt => exact absurd rfl (hset sym cnt)
  | encSym => exact packBits_freq _ s
  | _ => rfl

theorem count_eq_of_ne (h : Effect s i st m) {sym j : Nat} (hi : i = .freqCount sym ∨ ∃ c, i = .freqSet sym c)
    (hj : j ≠ sym) : m.count j = s.count j := by
  obtain rfl | ⟨c, rfl⟩ := hi
  all_goals cases h with
    | unchanged => rfl
    | _ => rw [setCount_count, if_neg hj.symm]

theorem encoder_eq (h : Effect s i st m) (hstart : i ≠ .encStart) (hend : i ≠ .encEnd) (hsym : ∀ sym, i ≠ .encSym sym) :
    m.encOpen = s.encOpen ∧ m.encNsym = s.encNsym ∧ m.encNbits = s.encNbits ∧ m.pkBuf = s.pkBuf ∧ m.pkCnt = s.pkCnt := by
  cases h with
  | encStart => exact absurd rfl hstart
  | encEnd => exact absurd rfl hend
  | encSym sym | encSymAborts sym => exact absurd rfl (hsym sym)
  | _ => exact ⟨rfl, rfl, rfl, rfl, rfl⟩

theorem decoder_eq (h : Effect s i st m) (hstart : i ≠ .decStart) (hend : i ≠ .decEnd)
    (hbits : ∀ n v, i ≠ .decBits n v) :
    m.decOpen = s.decOpen ∧ m.decCur = s.decCur ∧ m.decNbits = s.decNbits ∧ m.decNsym = s.decNsym := by
  cases h with
  | decStart => exact absurd rfl hstart
  | decEnd => exact absurd rfl hend
  | decBits n v | decBitsMalformed n v | decBitsAborts n v => exact absurd rfl (hbits n v)
  | encSym => simp
  | _ => exact ⟨rfl, rfl, rfl, rfl⟩

end Effect

/-- Settles O49, from what a command's effect writes; its answer writes no table. -/
theorem onlyTheirCommandsWriteTheTables : Obligations.OnlyTheirCommandsWriteTheTables := by
  intro i s t he
  obtain ⟨st, m, heff, hans⟩ := exec_ran he
  obtain ⟨err, os, rfl⟩ := hans.frame
  exact ⟨heff.params_eq, heff.tree_eq, fun ⟨hclear, hcount, hset⟩ => heff.freq_eq hclear hcount hset,
    fun sym hi j hj => heff.count_eq_of_ne hi hj⟩

/-- Settles O50, from what a command's effect writes; its answer writes neither direction's registers. -/
theorem directionsAreIndependent : Obligations.DirectionsAreIndependent := by
  intro i s t he
  obtain ⟨st, m, heff, hans⟩ := exec_ran he
  obtain ⟨err, os, rfl⟩ := hans.frame
  exact ⟨fun ⟨hstart, hend, hsym⟩ => heff.encoder_eq hstart hend hsym,
    fun ⟨hstart, hend, hbits⟩ => heff.decoder_eq hstart hend hbits⟩

end Sys2Proof.Machine

/-! PROOFS. The family of spec/20_memory.md: what the ports deliver and in which order (R61, R83, R261, R267), the bits
DEC_BITS and DECODE carry (R55, R81), the reads (R59), and the tree inside a message (R66). -/

namespace Sys2Proof.Machine

/-! ### What is still offered (R61) -/

/-- What a block may have on offer: nothing, or records and then the one response of their command (R61). -/
def OfferedWell (os : List Output) : Prop :=
  os = [] ∨ ∃ (recs : List Output) (w : Word64), os = recs ++ [.rsp w] ∧ ∀ o ∈ recs, ∀ r, o ≠ .rsp r

theorem Port.ordered_iff {q : Port} :
    q.Ordered ↔ q.taken ++ q.offered = q.block.outputs ∧ OfferedWell q.offered := Iff.rfl

/-- Once its first record is taken, an offer is a shorter one; once its response is taken, nothing is left. -/
theorem OfferedWell.tail {o : Output} {rest : List Output} (h : OfferedWell (o :: rest)) : OfferedWell rest := by
  obtain hnil | ⟨recs, w, hos, hrecs⟩ := h
  · cases hnil
  · cases recs with
    | nil => exact .inl (List.cons.inj hos).2
    | cons o' recs =>
      exact .inr ⟨recs, w, (List.cons.inj hos).2, fun x hx => hrecs x (List.mem_cons_of_mem _ hx)⟩

/-- What a command word has put out is offered well (R10, R61). -/
theorem State.RespondsTo.offeredWell {s t : State} (h : s.RespondsTo t) :
    ∃ os, t.outputs = s.outputs ++ os ∧ OfferedWell os := by
  obtain ⟨m, st, d, ⟨recs, hm, hrecs⟩, ht⟩ := h
  exact ⟨recs ++ [.rsp (responseWord st d)], by rw [ht, hm, List.append_assoc], .inr ⟨recs, _, rfl, hrecs⟩⟩

/-! ### Every edge keeps the order (R61, R83, R261) -/

/-- The clock never stops: every word that is taken runs to its answer (R10). -/
theorem Port.exists_edge (q : Port) (i : PortIn) : ∃ r, q.Edge i r := by
  cases hrst : i.rst with
  | true => exact ⟨_, .reset hrst⟩
  | false =>
    by_cases hwait : q.wait = 0
    · match hoff : q.offered, hcmd : i.cmd with
      | o :: rest, _ =>
        cases htake : i.takes o with
        | true => exact ⟨_, .transfer o rest hrst hwait hoff htake⟩
        | false => exact ⟨_, .keep o rest hrst hwait hoff htake⟩
      | [], none => exact ⟨_, .idle hrst hwait hoff hcmd⟩
      | [], some w =>
        obtain ⟨t, hrun, -⟩ := execWord_respondsTo w q.block
        exact ⟨_, .accept w t hrst hwait hoff hcmd hrun⟩
    · exact ⟨_, .work hrst hwait⟩

theorem Port.Ordered.transfer {q : Port} (h : q.Ordered) {o : Output} {rest : List Output} (hoff : q.offered = o :: rest) :
    (q.transfer o rest).Ordered := by
  obtain ⟨hsum, hwell⟩ := Port.ordered_iff.mp h
  rw [hoff] at hsum hwell
  exact Port.ordered_iff.mpr ⟨(List.append_cons ..).symm.trans hsum, hwell.tail⟩

theorem Port.Ordered.accept {q : Port} (h : q.Ordered) {t : State} (hoff : q.offered = []) (hrun : q.block.RespondsTo t) :
    (q.accept t).Ordered := by
  obtain ⟨hsum, -⟩ := Port.ordered_iff.mp h
  obtain ⟨os, hout, hwell⟩ := hrun.offeredWell
  rw [hoff, List.append_nil] at hsum
  have hoffered : (q.accept t).offered = os := by simp [Port.accept, hout]
  refine Port.ordered_iff.mpr ⟨?_, hoffered ▸ hwell⟩
  change q.taken ++ (q.accept t).offered = t.outputs
  rw [hoffered, hout, hsum]

theorem Port.Edge.keeps_ordered {q r : Port} {i : PortIn} (h : q.Edge i r) (hq : q.Ordered) : r.Ordered := by
  cases h with
  | reset => exact Port.ordered_iff.mpr ⟨List.append_nil _, .inl rfl⟩
  | work | keep | idle => exact hq
  | transfer o rest _ _ hoff => exact hq.transfer hoff
  | accept w t _ _ hoff _ hrun =>
    obtain ⟨t', hrun', hresp⟩ := execWord_respondsTo w q.block
    cases hrun'.symm.trans hrun
    exact hq.accept hoff hresp

/-- Settles O54: some edge is always possible, and each kind of edge keeps the order. -/
theorem portsDeliverTheOutputsInOrder : Obligations.PortsDeliverTheOutputsInOrder := by
  refine ⟨fun p => Port.ordered_iff.mpr ⟨rfl, .inl rfl⟩, fun q i hq => ?_⟩
  obtain ⟨r, hedge⟩ := q.exists_edge i
  exact ⟨r, Port.clock_eq_next_iff.mpr hedge, hedge.keeps_ordered hq⟩

/-! ### A host that does not drain (R267) -/

/-- While the host refuses the record on offer, an edge lets it stand and leaves the block alone. -/
theorem Port.Edge.eq_hold_of_refused {q r : Port} {i : PortIn} {o : Output} {rest : List Output} (h : q.Edge i r)
    (hoff : q.offered = o :: rest) (hrst : i.rst = false) (htake : i.takes o = false) : r = q.hold := by
  cases h with
  | reset hrst' => simp [hrst] at hrst'
  | work | keep => rfl
  | transfer o' rest' _ _ hoff' htake' =>
    cases hoff.symm.trans hoff'
    simp [htake] at htake'
  | idle _ _ hoff' | accept _ _ _ _ hoff' => simp [hoff] at hoff'

/-- The same for any number of edges. -/
theorem Port.clockAll_refused {o : Output} {rest : List Output} (is : List PortIn) {q r : Port}
    (hoff : q.offered = o :: rest) (his : ∀ i ∈ is, i.rst = false ∧ i.takes o = false)
    (hrun : Port.clockAll is q = .next r) : r.offered = o :: rest ∧ r.block = q.block := by
  induction is generalizing q with
  | nil => cases hrun; exact ⟨hoff, rfl⟩
  | cons i is ih =>
    obtain ⟨hrst, htake⟩ := his i List.mem_cons_self
    obtain ⟨q', hedge⟩ := q.exists_edge i
    rw [Port.clockAll, Port.clock_eq_next_iff.mpr hedge] at hrun
    cases hedge.eq_hold_of_refused hoff hrst htake
    exact ih (q := q.hold) hoff (fun j hj => his j (List.mem_cons_of_mem _ hj)) hrun

/-- While a bitstream record is next, no response is offered (R61). -/
theorem Port.out_rsp_of_offered_bs {q : Port} {x : BsRecord} {rest : List Output} (hoff : q.offered = .bs x :: rest)
    (rst : Bool) : (q.out rst).rsp = none := by
  rw [Port.out, hoff]
  split <;> rfl

/-- Settles O57: the record stays at the head of what is offered, before the response and before the next command. -/
theorem nonDrainingHostGetsNoResponse : Obligations.NonDrainingHostGetsNoResponse := by
  intro q r x rest is hoff his hrun
  obtain ⟨hr, hblock⟩ := Port.clockAll_refused is hoff his hrun
  refine ⟨Port.out_rsp_of_offered_bs hr false, ?_, hblock⟩
  rw [← Bool.not_eq_true, Port.out_cmdReady_iff]
  simp [hr]

/-! ### The bits DEC_BITS takes (R55, R193) -/

/-- Settles O44: with room for the bits and an internal ROOT, the traversal is the only case `exec_decBits_open` leaves. -/
theorem decBitsTraversesTheTree : Obligations.DecBitsTraversesTheTree := by
  intro s n v p hinv hopen htree hroot _ _ hroom hp
  have hleaf : (s.nodeAt s.root).isLeaf ≠ true := by
    obtain ⟨w, l, r, hnode⟩ := Node.isInternal_iff.mp hroot
    rw [hnode]
    exact Bool.false_ne_true
  obtain ⟨t, hexec, ⟨-, hwhy⟩ | ⟨syms, rest, m, rfl, -, hsplit, hvalid, hrest, -, hm⟩⟩ :=
    exec_decBits_open hinv hopen htree n v p hp fun h => absurd h hleaf
  · exact absurd (hwhy hroom).1 hleaf
  · refine ⟨syms, rest, m, hsplit, hvalid, hrest, hm hroot, ?_⟩
    rw [hexec, respond_ok_answered _ _ (field_zero_56 _).symm]
    simp [State.answered, decoded]

/-! ### The chunks of DECODE (R81) -/

theorem chunks32_succ (fuel : Nat) {bs : Bits} (h : bs ≠ []) :
    chunks32 (fuel + 1) bs = bs.take 32 :: chunks32 fuel (bs.drop 32) := if_neg h

/-- Each chunk fits one DEC_BITS. -/
theorem length_of_mem_chunks32 {fuel : Nat} {bs c : Bits} (h : c ∈ chunks32 fuel bs) : 1 ≤ c.length ∧ c.length ≤ 32 := by
  induction fuel generalizing bs with
  | zero => cases h
  | succ fuel ih =>
    by_cases hbs : bs = []
    · simp [chunks32, hbs] at h
    · rw [chunks32_succ fuel hbs] at h
      rcases List.mem_cons.mp h with rfl | h
      · have := List.length_pos_iff.mpr hbs
        rw [List.length_take]
        omega
      · exact ih h

/-- The chunks put together are the bits, if there are as many chunks to make as bits. -/
theorem chunks32_flatten {fuel : Nat} {bs : Bits} (h : bs.length ≤ fuel) : (chunks32 fuel bs).flatten = bs := by
  induction fuel generalizing bs with
  | zero => exact (List.length_eq_zero_iff.mp (Nat.le_zero.mp h)).symm
  | succ fuel ih =>
    by_cases hbs : bs = []
    · simp [chunks32, hbs]
    · rw [chunks32_succ fuel hbs, List.flatten_cons, ih (by rw [List.length_drop]; omega), List.take_append_drop]

/-- Settles O60: the operands of each chunk's DEC_BITS carry the chunk (`msbBits_msbChunk`), and the chunks are the bits. -/
theorem decodeMacroCarriesItsBits : Obligations.DecodeMacroCarriesItsBits := by
  intro bits
  refine ⟨(chunks32 bits.length bits).map fun c => (c.length, msbChunk c 0), ?_, ?_, ?_⟩
  · rw [List.map_map]
    rfl
  · intro cmd hcmd
    obtain ⟨c, hc, rfl⟩ := List.mem_map.mp hcmd
    exact length_of_mem_chunks32 hc
  · have hcarry : ∀ c ∈ chunks32 bits.length bits, msbBits c.length (msbChunk c 0) = c :=
      fun c hc => msbBits_msbChunk c (length_of_mem_chunks32 hc).2
    rw [List.flatMap_map, List.flatMap_def, List.map_congr_left hcarry, List.map_id', chunks32_flatten le_rfl]

/-! ### The reads (R59) -/

/-- The read commands and NOP (R59). -/
def IsRead (i : Instr) : Prop :=
  i = .nop ∨ (∃ sym, i = .freqRead sym) ∨ (∃ idx sel, i = .nodeRead idx sel) ∨ (∃ sym k, i = .codeRead sym k) ∨
    ∃ v, i = .statusRead v

/-- No view shows what the block has put out (R211). -/
@[simp] theorem emit_view (s : State) (o : Output) (v : View) : (emit o s).view v = s.view v := by
  cases v <;> rfl

/-- A read only responds, and whatever was put out before, with the same DATA. -/
theorem IsRead.exec_eq {i : Instr} (h : IsRead i) (s : State) :
    ∃ d : Data56, exec i s = .next (respond .ok d s) ∧ ∀ o, exec i (emit o s) = .next (respond .ok d (emit o s)) := by
  rcases h with rfl | ⟨sym, rfl⟩ | ⟨idx, sel, rfl⟩ | ⟨sym, k, rfl⟩ | ⟨v, rfl⟩
  · exact ⟨_, rfl, fun _ => rfl⟩
  · exact ⟨_, rfl, fun _ => rfl⟩
  · cases sel <;> exact ⟨_, rfl, fun _ => rfl⟩
  · exact ⟨_, rfl, fun _ => rfl⟩
  · refine ⟨s.view v, rfl, fun o => ?_⟩
    rw [← emit_view s o v]
    rfl

/-- Settles O52: a read's response does not depend on the responses before it, and nothing else changes. -/
theorem readsAreIdempotent : Obligations.ReadsAreIdempotent := by
  intro i s hi
  obtain ⟨d, hfirst, hagain⟩ := IsRead.exec_eq hi s
  exact ⟨.rsp (responseWord .ok d), hfirst, hagain _⟩

/-! ### The tree inside a message (R66) -/

/-- Inside a message BUILD is refused (R121). -/
theorem exec_build_of_busy {s : State} (h : s.busy = true) :
    exec .build s = .next (raise .sequence (Instr.op .build) 0 0 s) :=
  if_pos h

/-- Settles O53: only BUILD writes the tree (`onlyTheirCommandsWriteTheTables`), and inside a message BUILD is refused. -/
theorem treeIsFixedInsideAMessage : Obligations.TreeIsFixedInsideAMessage := by
  intro i s t hopen he
  by_cases hi : i = .build
  · subst hi
    have hbusy : s.busy = true := by simpa [State.busy] using hopen
    cases (exec_build_of_busy hbusy).symm.trans he
    exact ⟨rfl, rfl, rfl, rfl, rfl⟩
  · obtain ⟨-, htree, -⟩ := onlyTheirCommandsWriteTheTables i s t he
    exact htree hi

end Sys2Proof.Machine

/-! PROOFS. The family of spec/30_encoding.md: command words and the commands they spell (R70, R71, R76 to R79), and the
channels' valid and ready lines (R83). -/

namespace Sys2Proof

/-! ### A command and its only word (R70, R77 to R79) -/

/-- Settles O1, by `decode_encode`, for all parameters at once. -/
theorem decodeOfEncodeIsTheCommand : Obligations.DecodeOfEncodeIsTheCommand :=
  fun _ _ hp hw => decode_encode hp hw

/-- A word is its four fields (`commandWord_fields`), and a decoded word's fields are the command's. -/
theorem encode_of_decode_ok {p : Params} {w : Word64} {i : Instr} (h : decode p w = .ok i) : encode i = w := by
  obtain ⟨hop, hn, hsym, himm, -⟩ := decode_ok_fields h
  rw [encode, ← hop, ← hn, ← hsym, ← himm, commandWord_fields]

theorem wellFormed_of_decode_ok {p : Params} {w : Word64} {i : Instr} (h : decode p w = .ok i) : i.wellFormed p = true := by
  obtain ⟨-, -, -, -, hw⟩ := decode_ok_fields h
  exact hw

/-- Settles O2: the fields of a decoded word are the command's operands, which are legal, and no word has them but it. -/
theorem decodedWordIsTheCommandsOnlyWord : Obligations.DecodedWordIsTheCommandsOnlyWord :=
  fun _ _ _ h => ⟨encode_of_decode_ok h, wellFormed_of_decode_ok h⟩

/-! ### Fixed bits (R78) -/

/-- A mask that takes the whole opcode, and of the other fields only bits that are 0, leaves the opcode alone. -/
theorem commandWord_and_mask {op : BitVec 8} {n sym imm nMask symMask immMask : Nat} (hn : n &&& nMask = 0)
    (hsym : sym &&& symMask = 0) (himm : imm &&& immMask = 0) :
    commandWord op n sym imm &&& commandWord 0xFF nMask symMask immMask = commandWord op 0 0 0 := by
  have hop : op &&& 0xFF = op := BitVec.and_allOnes
  refine (BitVec.and_append (w := 8 + 8 + 16) (v := 32)).trans ?_
  simp only [BitVec.and_append, ← BitVec.ofNat_and, hop, hn, hsym, himm, commandWord]

/-- An N of DEC_BITS uses the low six bits of its field. -/
theorem and_0xC0_of_le_32 : ∀ n ≤ 32, n &&& 0xC0 = 0 := by decide

/-- A selector uses the lowest bit of the N field. -/
theorem NodeSel.toField_and_0xFE (sel : NodeSel) : sel.toField &&& 0xFE = 0 := by cases sel <;> rfl

/-- A view number uses the low four bits of the IMM field. -/
theorem View.toField_and_0xFFFFFFF0 (v : View) : v.toField &&& 0xFFFFFFF0 = 0 := by cases v <;> rfl

/-- The fixed bits of a well-formed command's word, by the fields that hold operands in its row of R78. -/
theorem encode_and_fixedMask {p : Params} {i : Instr} (hw : i.wellFormed p = true) :
    encode i &&& i.fixedMask = i.fixedMatch := by
  cases i with
  | nop | freqClear | build | encStart | encEnd | decStart | decEnd => decide
  | freqCount | freqRead | encSym =>
    exact commandWord_and_mask (nMask := 0xFF) (symMask := 0) (immMask := 0xFFFFFFFF)
      (Nat.zero_and _) (Nat.and_zero _) (Nat.zero_and _)
  | freqSet | codeRead =>
    exact commandWord_and_mask (nMask := 0xFF) (symMask := 0) (immMask := 0)
      (Nat.zero_and _) (Nat.and_zero _) (Nat.and_zero _)
  | nodeRead idx sel =>
    exact commandWord_and_mask (nMask := 0xFE) (symMask := 0xFFFF) (immMask := 0)
      sel.toField_and_0xFE (Nat.zero_and _) (Nat.and_zero _)
  | statusRead view =>
    exact commandWord_and_mask (nMask := 0xFF) (symMask := 0xFFFF) (immMask := 0xFFFFFFF0)
      (Nat.zero_and _) (Nat.zero_and _) view.toField_and_0xFFFFFFF0
  | decBits n v =>
    obtain ⟨-, hn⟩ : 1 ≤ n ∧ n ≤ 32 := by simpa [Instr.wellFormed] using hw
    exact commandWord_and_mask (nMask := 0xC0) (symMask := 0xFFFF) (immMask := 0)
      (and_0xC0_of_le_32 n hn) (Nat.zero_and _) (Nat.and_zero _)

/-- Settles O3: a decoded word is the word of its command, which is well-formed. -/
theorem fixedBitsOfDecodedWords : Obligations.FixedBitsOfDecodedWords := by
  intro p w i h
  rw [← encode_of_decode_ok h]
  exact encode_and_fixedMask (wellFormed_of_decode_ok h)

/-! ### Reserved opcodes (R77) -/

/-- Settles O4: every row of `decode` but the last has an opcode of the list. -/
theorem unlistedOpcodesAreReserved : Obligations.UnlistedOpcodesAreReserved := by
  intro p w hop
  unfold decode
  simp only
  split
  case h_16 => rfl
  all_goals
    rename_i hrow
    exact absurd (by simp [hrow]) hop

end Sys2Proof

namespace Sys2Proof.Machine

/-! ### Illegal words (R76) -/

/-- A word that is the word of no well-formed command runs into E_ILLEGAL_CMD with its raw fields. -/
theorem execWord_of_illegal {w : Word64} {s : State}
    (h : ∀ i : Instr, i.wellFormed s.params = true → encode i ≠ w) :
    execWord w s = .next (s.errored .illegalCmd (opField w) (symField w) (immField w)) := by
  cases hdec : decode s.params w with
  | ok i => exact absurd (encode_of_decode_ok hdec) (h i (wellFormed_of_decode_ok hdec))
  | error e => simp [execWord_of_decode_error hdec, raiseIllegal, raise_errored]

/-- Settles O7: an illegal word does not decode, and the rest is what `raise` does. -/
theorem illegalWordChangesOnlyLastErr : Obligations.IllegalWordChangesOnlyLastErr :=
  fun _ _ _ hin hill => (step_of_inputs_cmd hin).trans (execWord_of_illegal hill)

/-! ### Valid and ready (R83) -/

/-- The block drives this record or response on its channel with valid = 1. -/
def PortOut.Offers (out : PortOut) : Output → Prop
  | .bs x => out.bs = some x
  | .sym x => out.sy = some x
  | .rsp x => out.rsp = some x

/-- The block offers the next of what it has produced, once it is done working, and nothing else (R61). -/
theorem Port.out_offers_iff {q : Port} {o : Output} :
    (q.out false).Offers o ↔ q.wait = 0 ∧ ∃ rest, q.offered = o :: rest := by
  by_cases hwait : q.wait = 0
  · match hoff : q.offered with
    | [] | .bs _ :: _ | .sym _ :: _ | .rsp _ :: _ =>
      cases o <;> simp [PortOut.Offers, Port.out, PortOut.idle, hwait, hoff]
  · cases o <;> simp [PortOut.Offers, Port.out, PortOut.idle, hwait]

/-- Where valid and ready meet, an edge without reset transfers what is offered. -/
theorem Port.Edge.eq_transfer_of_taken {q r : Port} {i : PortIn} {o : Output} {rest : List Output} (h : q.Edge i r)
    (hwait : q.wait = 0) (hoff : q.offered = o :: rest) (hrst : i.rst = false) (htake : i.takes o = true) :
    r = q.transfer o rest := by
  cases h with
  | reset hrst' => simp [hrst] at hrst'
  | work _ hwait' => exact absurd hwait hwait'
  | transfer o' rest' _ _ hoff' =>
    cases hoff.symm.trans hoff'
    rfl
  | keep o' rest' _ _ hoff' htake' =>
    cases hoff.symm.trans hoff'
    simp [htake] at htake'
  | idle _ _ hoff' | accept _ _ _ _ hoff' => simp [hoff] at hoff'

/-- Where the host is not ready on the channel (`eq_hold_of_refused`), what is offered stays on offer. -/
theorem Port.Edge.taken_of_offers {q r : Port} {i : PortIn} {o : Output} (h : q.Edge i r) (hrst : i.rst = false)
    (ho : (q.out false).Offers o) :
    if i.takes o then r.taken = q.taken ++ [o] else (r.out false).Offers o ∧ r.taken = q.taken := by
  obtain ⟨hwait, rest, hoff⟩ := Port.out_offers_iff.mp ho
  cases htake : i.takes o with
  | true =>
    cases h.eq_transfer_of_taken hwait hoff hrst htake
    exact rfl
  | false =>
    cases h.eq_hold_of_refused hoff hrst htake
    exact ⟨Port.out_offers_iff.mpr ⟨by simp [Port.hold, hwait], rest, hoff⟩, rfl⟩

/-- An edge at which nothing is offered gives the host nothing. -/
theorem Port.Edge.taken_of_not_offers {q r : Port} {i : PortIn} (h : q.Edge i r)
    (hnone : ∀ o, ¬ (q.out false).Offers o) : r.taken = q.taken := by
  cases h with
  | reset | work | keep | idle | accept => rfl
  | transfer o rest _ hwait hoff => exact absurd (Port.out_offers_iff.mpr ⟨hwait, rest, hoff⟩) (hnone o)

/-- Settles O56: the three channels are `taken_of_offers` for the three kinds of output. -/
theorem offersAreHeldUntilTaken : Obligations.OffersAreHeldUntilTaken := by
  intro q r i hclock hrst
  have hedge := Port.clock_eq_next_iff.mp hclock
  refine ⟨fun x hx => hedge.taken_of_offers (o := .bs x) hrst hx,
    fun x hx => hedge.taken_of_offers (o := .sym x) hrst hx,
    fun x hx => hedge.taken_of_offers (o := .rsp x) hrst hx,
    fun hbs hsy hrsp => hedge.taken_of_not_offers fun o ho => ?_⟩
  cases o with
  | bs x => cases hbs.symm.trans ho
  | sym x => cases hsy.symm.trans ho
  | rsp x => cases hrsp.symm.trans ho

end Sys2Proof.Machine

/-! PROOFS. The family of spec/40_frequency_analyzer.md: what each frequency command answers and which count it leaves
(R101 to R104), the bound on the counts (R105), the counts of a text (R100), and words written out from the rules. -/

namespace Sys2Proof.Machine

/-- Settles O5, by decoding each of the twelve closed words. -/
theorem specWordsDecode : Obligations.SpecWordsDecode := by
  unfold Obligations.SpecWordsDecode
  decide

/-! ### The frequency commands (R101 to R104) -/

@[simp] theorem answered_count (s : State) (recs : List Output) (data : Nat) :
    (s.answered recs data).count = s.count := rfl

theorem answered_setCount_count (s : State) (sym c : Nat) (recs : List Output) (data i : Nat) :
    ((s.setCount sym c).answered recs data).count i = if i = sym then c else s.count i := by
  simp only [answered_count, setCount_count, eq_comm]

/-- The number of a command's word whose N field is 0, as every frequency command's is (R101 to R104). -/
theorem encode_toNat_of_n_zero (i : Instr) {p : Params} (hp : p.legal) (hw : i.wellFormed p = true)
    (hn : i.nOperand = 0) : (encode i).toNat = i.op.toNat * 2 ^ 56 + i.symOperand * 2 ^ 32 + i.immOperand := by
  rw [encode_toNat i hp hw, hn, Nat.zero_mul, Nat.add_zero]

theorem exec_freqClear (s : State) : exec .freqClear s = .next (({ s with freq := [] } : State).answered [] 0) :=
  congrArg _ (respond_ok_answered _ 0 rfl)

/-- FREQ_COUNT at the largest count only raises its error (R102). -/
theorem exec_freqCount_of_eq_max {s : State} {sym : Nat} (h : s.count sym = s.params.maxCount) :
    exec (.freqCount sym) s = .next (s.errored .countOverflow 0x02 (BitVec.ofNat 16 sym) 0) := by
  rw [exec, execFreqCount, if_pos h, raise_errored]
  rfl

theorem exec_freqCount_of_ne_max {s : State} {sym : Nat} (h : s.count sym ≠ s.params.maxCount) :
    exec (.freqCount sym) s = .next ((s.setCount sym (s.count sym + 1)).answered [] (s.count sym + 1)) := by
  have hnew : (s.setCount sym (s.count sym + 1)).count sym = s.count sym + 1 := by simp
  simp only [exec, execFreqCount, if_neg h, hnew, respond_ok_answered _ _ (field_zero_56 _).symm]

theorem exec_freqSet (s : State) (sym cnt : Nat) :
    exec (.freqSet sym cnt) s = .next ((s.setCount sym cnt).answered [] 0) :=
  congrArg _ (respond_ok_answered _ 0 rfl)

theorem exec_freqRead (s : State) (sym : Nat) : exec (.freqRead sym) s = .next (s.answered [] (s.count sym)) :=
  congrArg _ (respond_ok_answered _ _ (field_zero_56 _).symm)

/-- Settles O17: the empty table reads 0 everywhere. -/
theorem freqClearEmptiesTheTable : Obligations.FreqClearEmptiesTheTable :=
  ⟨by decide, fun s => ⟨_, exec_freqClear s, fun _ => rfl, rfl⟩⟩

/-- Settles O18, from the two branches of FREQ_COUNT. -/
theorem freqCountAddsOneOrOverflows : Obligations.FreqCountAddsOneOrOverflows := by
  intro s sym hinv hsym
  refine ⟨(encode_toNat_of_n_zero (.freqCount sym) hinv.legal (decide_eq_true hsym) rfl).trans (Nat.add_zero _), ?_⟩
  split
  case isTrue hmax => exact exec_freqCount_of_eq_max hmax
  case isFalse hmax => exact ⟨_, exec_freqCount_of_ne_max hmax, fun _ => answered_setCount_count .., rfl⟩

/-- Settles O19: FREQ_SET writes one count and answers. -/
theorem freqSetLoadsTheCount : Obligations.FreqSetLoadsTheCount := by
  intro s sym cnt hp hsym hcnt
  have hw : (Instr.freqSet sym cnt).wellFormed s.params = true := by simp [Instr.wellFormed, hsym, hcnt]
  exact ⟨encode_toNat_of_n_zero _ hp hw rfl, _, exec_freqSet s sym cnt, fun _ => answered_setCount_count .., rfl⟩

/-- Settles O20: FREQ_READ only answers. -/
theorem freqReadRespondsWithTheCount : Obligations.FreqReadRespondsWithTheCount := fun s sym hp hsym =>
  ⟨(encode_toNat_of_n_zero (.freqRead sym) hp (decide_eq_true hsym) rfl).trans (Nat.add_zero _), exec_freqRead s sym⟩

/-! ### No count wraps (R105) -/

/-- A command that lowers a count is FREQ_CLEAR, or FREQ_SET of that symbol; FREQ_COUNT only raises one. -/
theorem Effect.lowers_count {s m : State} {i : Instr} {st : Status} {sym : Nat} (h : Effect s i st m)
    (hlt : m.count sym < s.count sym) : i = .freqClear ∨ ∃ c, i = .freqSet sym c := by
  cases h with
  | freqClear => exact .inl rfl
  | freqSet sym' cnt =>
    by_cases hsym : sym' = sym
    · exact .inr ⟨cnt, by rw [hsym]⟩
    · rw [setCount_count, if_neg hsym] at hlt
      exact absurd hlt (Nat.lt_irrefl _)
  | freqCount sym' =>
    rw [setCount_count] at hlt
    split at hlt
    next hsym =>
      subst hsym
      omega
    next => exact absurd hlt (Nat.lt_irrefl _)
  | encSym => exact absurd hlt (by simp [State.count])
  | _ => exact absurd hlt (Nat.lt_irrefl _)

/-- Settles O21: the bound is in the invariant, which every well-formed command keeps. -/
theorem countsNeverWrap : Obligations.CountsNeverWrap := by
  intro s t i sym hinv hw he
  obtain ⟨st, m, heff, hans⟩ := exec_ran he
  have hbound : t.count sym ≤ t.params.maxCount := (exec_inv i hinv hw he).counts sym
  obtain ⟨err, os, rfl⟩ := hans.frame
  rw [← heff.params_eq]
  exact ⟨hbound, heff.lowers_count⟩

/-! ### The counts of a text (R100) -/

theorem execAll_cons_of_next {i : Instr} {s t : State} (h : exec i s = .next t) (is : List Instr) :
    execAll (i :: is) s = execAll is t := by rw [execAll, h]

/-- FREQ_COUNTs add the text's occurrences to the counts they start from, as long as every sum fits its counter. -/
theorem execAll_freqCount (t : List Nat) (s : State) (hfit : ∀ sym, s.count sym + t.count sym ≤ s.params.maxCount) :
    ∃ u, execAll (t.map .freqCount) s = .next u ∧ ∀ sym, u.count sym = s.count sym + t.count sym := by
  induction t generalizing s with
  | nil => exact ⟨s, rfl, fun _ => rfl⟩
  | cons a t ih =>
    have hroom : s.count a ≠ s.params.maxCount := by
      have := hfit a
      rw [List.count_cons_self] at this
      omega
    have hsum (sym : Nat) : ((s.setCount a (s.count a + 1)).answered [] (s.count a + 1)).count sym + t.count sym =
        s.count sym + (a :: t).count sym := by
      rw [answered_setCount_count]
      by_cases h : sym = a
      · subst h
        rw [if_pos rfl, List.count_cons_self]
        omega
      · rw [if_neg h, List.count_cons_of_ne (Ne.symm h)]
    obtain ⟨u, hu, hcount⟩ := ih _ fun sym => (hsum sym).trans_le (hfit sym)
    exact ⟨u, (execAll_cons_of_next (exec_freqCount_of_ne_max hroom) _).trans hu,
      fun sym => (hcount sym).trans (hsum sym)⟩

/-- Settles O22: after FREQ_CLEAR the counts start from 0, and a text's occurrences do not depend on its order. -/
theorem analyzeCountsOccurrences : Obligations.AnalyzeCountsOccurrences := by
  intro s t t' _ hperm _ hmax
  obtain ⟨u, hu, hcount⟩ := execAll_freqCount t' (({ s with freq := [] } : State).answered [] 0) fun sym => by
    rw [hperm.count_eq, answered_count]
    exact (Nat.zero_add _).trans_le (hmax sym)
  refine ⟨u, (execAll_cons_of_next (exec_freqClear s) _).trans hu, fun sym => ?_⟩
  calc u.count sym = 0 + t'.count sym := hcount sym
    _ = t.count sym := by rw [Nat.zero_add, hperm.count_eq]

end Sys2Proof.Machine

/-! PROOFS. The family of spec/41_tree_builder.md: what BUILD answers and changes (R120, R121, R126, R130), the merges, the
shape and the weights of the built tree (R123, R124, R127, R128), that its code is optimal (R129), and NODE_READ (R132). -/

namespace Sys2Proof.Machine

/-! ### Sums over the alphabet -/

/-- A sum over all symbols is one over the alphabet when a symbol that does not occur adds nothing. -/
theorem sum_alphabet (s : State) {f : Nat → Nat} (hf : ∀ a, s.count a = 0 → f a = 0) :
    (s.alphabet.map f).sum = ((List.range s.params.nsym).map f).sum := by
  rw [State.alphabet]
  induction List.range s.params.nsym with
  | nil => rfl
  | cons a l ih =>
    by_cases ha : s.count a = 0
    · simp [ha, ih, hf a ha]
    · simp [ha, ih]

/-- The weighted length of a code, over all symbols or over the alphabet (R129). -/
theorem sum_alphabet_count_mul (s : State) (len : Nat → Nat) :
    (s.alphabet.map fun a => s.count a * len a).sum = ((List.range s.params.nsym).map fun a => s.count a * len a).sum :=
  sum_alphabet s fun a ha => by rw [ha, Nat.zero_mul]

/-! ### The code is optimal (R129) -/

/-- A code in which no codeword begins another's weighs at least what the greedy merge of the counts adds up to: its
lengths satisfy Kraft's inequality. -/
theorem mergeCost_le_of_prefixFree {lv ws : List Nat} {count : Nat → Nat} {c : Nat → Bits} (fuel : Nat) (hlv : lv.Nodup)
    (hsorted : ws.Pairwise (· ≤ ·)) (hws : (lv.map count).Perm ws)
    (hfree : ∀ a ∈ lv, ∀ b ∈ lv, a ≠ b → ¬ c a <+: c b) :
    mergeCost fuel ws ≤ (lv.map fun a => count a * (c a).length).sum := by
  have hwords : (lv.map c).Pairwise fun x y => ¬ x <+: y ∧ ¬ y <+: x :=
    List.pairwise_map.mpr (hlv.imp_of_mem fun ha hb hab => ⟨hfree _ ha _ hb hab, hfree _ hb _ ha hab.symm⟩)
  have hbound := mergeCost_le fuel ws hsorted (lv.map fun a => (count a, (c a).length))
    (by simpa [Function.comp_def] using hws) (by simpa [Function.comp_def] using kraft_le_one _ hwords)
  simpa [weighted, Function.comp_def] using hbound

/-- Paths to the leaves, one for each symbol and as long as its codeword, cost what the code costs. -/
theorem pathCost_eq_sum {count len : Nat → Nat} {lv : List Nat} {l : List (Nat × Bits)} (hsyms : (l.map Prod.fst).Perm lv)
    (hlen : ∀ y ∈ l, y.2.length = len y.1) : pathCost count l = (lv.map fun a => count a * len a).sum := by
  rw [← (hsyms.map _).sum_eq, List.map_map, pathCost]
  exact congrArg List.sum (List.map_congr_left fun y hy => by rw [hlen y hy]; rfl)

section Built

variable {s t : State} (h : Buildable s) (he : exec .build s = .next t)
include h he

/-- The tree a BUILD leaves satisfies R27. -/
theorem Buildable.treeInv : TreeInv t := by
  cases h.exec_build.symm.trans he
  exact (rebuild_treeInv s h.inv.legal h.inv.counts h.alphabet_ne_nil).congr rfl rfl rfl rfl rfl

theorem Buildable.nleaves_eq : t.nleaves = s.alphabet.length := by
  cases h.exec_build.symm.trans he
  rfl

/-- The merge loop has ended with the tree under ROOT (R125), and its invariant holds. -/
theorem Buildable.forest : ∃ (r : QEntry) (seq : Nat), t.root = r.idx ∧
    Forest s.count s.alphabet s.params.nsym seq (s.params.nsym + s.alphabet.length - 1) [r] t.node := by
  cases h.exec_build.symm.trans he
  exact buildTree_forest s.count s.params.nsym s.alphabet (alphabet_pairwise s) (fun _ hi => (mem_alphabet.mp hi).1)
    h.alphabet_ne_nil

/-- The leaves are the symbols of the alphabet (R122). -/
theorem Buildable.isLeaf_iff (i : Nat) : (t.nodeAt i).isLeaf = true ↔ i ∈ s.alphabet := by
  obtain ⟨r, seq, -, hforest⟩ := h.forest he
  exact hforest.leaf_iff i

/-- The paths to the leaves weigh together what the greedy merge of the counts adds up to (`buildTree_cost`). -/
theorem Buildable.paths : ∃ (l : List (Nat × Bits)) (ws : List Nat), (l.map Prod.fst).Perm s.alphabet ∧
    (∀ y ∈ l, descend t.node y.2 t.root = some y.1) ∧ ws.Pairwise (· ≤ ·) ∧ (s.alphabet.map s.count).Perm ws ∧
    pathCost s.count l = mergeCost s.alphabet.length ws := by
  cases h.exec_build.symm.trans he
  exact buildTree_cost s.count s.params.nsym s.alphabet (alphabet_pairwise s) (fun _ hi => (mem_alphabet.mp hi).1)
    h.alphabet_ne_nil

/-- With two symbols or more, a codeword is the path to its leaf, so the code weighs what the paths do. -/
theorem Buildable.codeCost_eq_mergeCost (hroot : (t.nodeAt t.root).isLeaf = false) :
    ∃ ws : List Nat, ws.Pairwise (· ≤ ·) ∧ (s.alphabet.map s.count).Perm ws ∧
      (s.alphabet.map fun a => s.count a * (t.codeAt a).len).sum = mergeCost s.alphabet.length ws := by
  obtain ⟨l, ws, hsyms, hpath, hsorted, hws, hcost⟩ := h.paths he
  refine ⟨ws, hsorted, hws, ?_⟩
  rw [← hcost, pathCost_eq_sum hsyms fun y hy => ?_]
  have hleaf : (t.nodeAt y.1).isLeaf = true := (h.isLeaf_iff he y.1).mpr (hsyms.mem_iff.mp (List.mem_map_of_mem hy))
  rw [CodeEntry.len, ((h.treeInv he).code_of_path hroot (hpath y hy) hleaf).2]

/-- The built code weighs no more than another without empty codewords in which none begins another's. Under a one-leaf
tree its codeword is one bit long, and no nonempty one is shorter. -/
theorem Buildable.codeCost_le {c : Nat → Bits} (hne : ∀ a ∈ s.alphabet, c a ≠ [])
    (hfree : ∀ a ∈ s.alphabet, ∀ b ∈ s.alphabet, a ≠ b → ¬ c a <+: c b) :
    (s.alphabet.map fun a => s.count a * (t.codeAt a).len).sum ≤
      (s.alphabet.map fun a => s.count a * (c a).length).sum := by
  cases hroot : (t.nodeAt t.root).isLeaf with
  | false =>
    obtain ⟨ws, hsorted, hws, hcost⟩ := h.codeCost_eq_mergeCost he hroot
    rw [hcost]
    exact mergeCost_le_of_prefixFree _ ((alphabet_pairwise s).imp Nat.ne_of_lt) hsorted hws hfree
  | true =>
    refine List.sum_le_sum fun a ha => Nat.mul_le_mul_left _ ?_
    have hvalid : (t.codeAt a).valid = true := ((h.treeInv he).leaf_iff a).mp ((h.isLeaf_iff he a).mpr ha)
    have hcode := (h.treeInv he).code_path a hvalid
    rw [if_pos hroot] at hcode
    obtain ⟨-, hbits⟩ := hcode
    rw [CodeEntry.len, hbits]
    exact List.length_pos_iff.mpr (hne a ha)

end Built

/-- Settles O34: the built code reaches the greedy merge's sum (`buildTree_cost`), which by Kraft's inequality is a
lower bound for every code R129 compares with (`mergeCost_le`). -/
theorem buildCodeIsOptimal : Obligations.BuildCodeIsOptimal := by
  intro s t hb he c hne hfree
  rw [← sum_alphabet_count_mul, ← sum_alphabet_count_mul]
  refine hb.codeCost_le he (fun a ha => ?_) fun a ha b hb hab => ?_
  · obtain ⟨hlt, hcount⟩ := mem_alphabet.mp ha
    exact hne a hlt hcount
  · obtain ⟨hlta, hcounta⟩ := mem_alphabet.mp ha
    obtain ⟨hltb, hcountb⟩ := mem_alphabet.mp hb
    exact hfree a b hlta hltb hcounta hcountb hab

/-! ### Response DATA of more than one field (R72) -/

/-- A field below all bits of a number adds its value there: the fields of a response do not overlap. -/
theorem ofNat_or_field {m lo w v : Nat} (h : lo + w ≤ 56) (hm : m % 2 ^ (lo + w) = 0) (hv : v < 2 ^ w) :
    BitVec.ofNat 56 m ||| field lo w v = BitVec.ofNat 56 (m + v * 2 ^ lo) := by
  apply BitVec.eq_of_toNat_eq
  have hfree : (BitVec.ofNat 56 m).toNat % 2 ^ (lo + w) = 0 := by
    rw [BitVec.toNat_ofNat, Nat.mod_mod_of_dvd _ (Nat.pow_dvd_pow 2 h), hm]
  have hlt := (BitVec.ofNat 56 m ||| field lo w v).isLt
  rw [or_field_toNat _ _ _ _ h hfree, Nat.mod_eq_of_lt hv] at hlt ⊢
  rw [← Nat.mod_eq_of_lt hlt, BitVec.toNat_ofNat, BitVec.toNat_ofNat, Nat.mod_add_mod]

theorem field_eq_ofNat {lo w v : Nat} (h : lo + w ≤ 56) (hv : v < 2 ^ w) : field lo w v = BitVec.ofNat 56 (v * 2 ^ lo) := by
  simpa using ofNat_or_field (m := 0) h (Nat.zero_mod _) hv

/-! ### What BUILD answers and changes (R120, R121, R126, R130) -/

theorem exec_build_of_alphabet_nil {s : State} (hbusy : s.busy = false) (h : s.alphabet = []) :
    exec .build s = .next ((clearTree s).errored .emptyAlphabet 0x08 0 0) := by
  simp only [exec, execBuild, hbusy, h, Bool.false_eq_true, if_false, if_true, raise_errored]
  rfl

/-- Outside a message, with a symbol to code, BUILD makes the tree and answers (R120). -/
theorem exec_build_of_alphabet_ne_nil {s : State} (hbusy : s.busy = false) (h : s.alphabet ≠ []) :
    ∃ d : Data56, exec .build s = .next (respond .ok d (rebuild s.alphabet s)) :=
  ⟨_, by simp only [exec, execBuild, hbusy, h, Bool.false_eq_true, if_false]; rfl⟩

/-- BUILD's response has ROOT above NLEAVES (R120): an index and a number of leaves fit 17 bits. -/
theorem Buildable.exec_build_answered {s : State} (h : Buildable s) :
    exec .build s = .next ((rebuild s.alphabet s).answered []
      ((rebuild s.alphabet s).root * 2 ^ 24 + (rebuild s.alphabet s).nleaves)) := by
  have hbusy : s.busy = false := by simp [State.busy, h.closed]
  obtain ⟨hnsym, hnnode, -⟩ := Params.legal_bounds h.inv.legal
  have hroot : (rebuild s.alphabet s).root < s.params.nnode := (h.inv.rebuild hbusy h.alphabet_ne_nil).root_lt
  have hleaves : (rebuild s.alphabet s).nleaves ≤ s.params.nsym := alphabet_length_le s
  have hdata : field 24 17 (rebuild s.alphabet s).root ||| field 0 17 (rebuild s.alphabet s).nleaves =
      BitVec.ofNat 56 ((rebuild s.alphabet s).root * 2 ^ 24 + (rebuild s.alphabet s).nleaves) := by
    rw [field_eq_ofNat (by omega) (by omega), ofNat_or_field (by omega) (by omega) (by omega), Nat.pow_zero, Nat.mul_one]
  rw [h.exec_build, respond_ok_answered _ _ hdata.symm]

/-- Settles O25: what BUILD leaves is `rebuild`, with the answer. -/
theorem buildCompletes : Obligations.BuildCompletes :=
  ⟨by decide, fun _ hb => ⟨_, hb.exec_build_answered, rfl, rfl⟩⟩

/-- Settles O23: the first branch of BUILD. -/
theorem buildIsRefusedInsideAMessage : Obligations.BuildIsRefusedInsideAMessage := by
  intro s hopen
  have hbusy : s.busy = true := by simpa [State.busy] using hopen
  rw [exec_build_of_busy hbusy, raise_errored]
  rfl

/-- Settles O24: with every count 0 the alphabet is empty. -/
theorem buildOfAnEmptyAlphabetFails : Obligations.BuildOfAnEmptyAlphabetFails := by
  intro s henc hdec hzero
  have hbusy : s.busy = false := by simp [State.busy, henc, hdec]
  have halpha : s.alphabet = [] := List.eq_nil_iff_forall_not_mem.mpr fun sym hsym =>
    (mem_alphabet.mp hsym).2 (hzero sym (mem_alphabet.mp hsym).1)
  exact ⟨_, exec_build_of_alphabet_nil hbusy halpha, fun _ => ⟨rfl, rfl⟩, rfl⟩

/-- Settles O32: both branches of an accepted BUILD read the parameters and the counts, and nothing else. -/
theorem buildDependsOnFreqAlone : Obligations.BuildDependsOnFreqAlone := by
  intro s₁ s₂ t₁ t₂ hparams hcounts hbusy₁ hbusy₂ he₁ he₂
  have hcount : s₁.count = s₂.count := funext hcounts
  have halpha : s₁.alphabet = s₂.alphabet := by rw [State.alphabet, State.alphabet, hparams, hcount]
  by_cases hnil : s₂.alphabet = []
  · cases (exec_build_of_alphabet_nil hbusy₁ (halpha.trans hnil)).symm.trans he₁
    cases (exec_build_of_alphabet_nil hbusy₂ hnil).symm.trans he₂
    exact ⟨rfl, rfl, rfl, rfl, rfl⟩
  · obtain ⟨d₁, hd₁⟩ := exec_build_of_alphabet_ne_nil hbusy₁ (halpha ▸ hnil)
    obtain ⟨d₂, hd₂⟩ := exec_build_of_alphabet_ne_nil hbusy₂ hnil
    cases hd₁.symm.trans he₁
    cases hd₂.symm.trans he₂
    simp [hparams, hcount, halpha]

/-! ### The merges and the shape of the tree (R123, R124, R127) -/

/-- Settles O27: the merge loop's invariant says it of every internal node. -/
theorem buildMergesTheTwoLeast : Obligations.BuildMergesTheTwoLeast := by
  intro s t hb he k hk
  obtain ⟨r, seq, -, hforest⟩ := hb.forest he
  have hlt : s.params.nsym + k < s.params.nsym + s.alphabet.length - 1 := by
    rw [hb.nleaves_eq he] at hk
    omega
  obtain ⟨w, left, right, hnode, -, -, -, -, rfl⟩ := hforest.mid _ (Nat.le_add_right ..) hlt
  exact ⟨⟨left, right, hnode⟩, hforest.greedy _ (Nat.le_add_right ..) hlt⟩

/-- No node lies deeper than one less than there are leaves: each bit of a path leads to a node created earlier, and the
internal ones are NODE[NSYM .. NSYM + NLEAVES - 2] (R127). -/
theorem Buildable.depth_le {s t : State} (h : Buildable s) (he : exec .build s = .next t) {bits : Bits} {i : Nat}
    (hpath : descend t.node bits t.root = some i) : bits.length ≤ s.alphabet.length - 1 := by
  obtain ⟨r, seq, hroot, hforest⟩ := h.forest he
  by_cases hbits : bits = []
  · simp [hbits]
  · have hdepth := hforest.descend_length bits _ _ (hroot ▸ hpath) hbits
    have hlast := hforest.lt_of_ne_empty hforest.root_ne_empty
    omega

/-- Settles O28: the internal nodes, ROOT and the arena's end from the merge loop's invariant, the children from R27. -/
theorem buildShapeOfTheTree : Obligations.BuildShapeOfTheTree := by
  intro s t hb he
  obtain ⟨r, seq, hroot, hforest⟩ := hb.forest he
  have hle := alphabet_length_le s
  rw [hb.nleaves_eq he]
  refine ⟨hforest.internal_iff, fun htwo => ?_,
    fun i b hi => ⟨(hb.treeInv he).child_ne_empty b hi, (hb.treeInv he).child_lt b hi⟩,
    fun bits sym hpath _ => hb.depth_le he hpath, Nat.sub_le_sub_right hle 1, fun i hi => ?_⟩
  · exact hroot.trans (Nat.eq_sub_of_add_eq (hforest.root_of_two htwo))
  · have hlast := hforest.lt_of_ne_empty hi
    rw [Params.nnode]
    omega

/-! ### The weights (R128) -/

/-- A node weighs at least what a node below it weighs. -/
theorem TreeInv.weight_le_of_descend {s : State} (h : TreeInv s) {bits : Bits} {n m : Nat}
    (hpath : descend s.node bits n = some m) : (s.nodeAt m).weight ≤ (s.nodeAt n).weight := by
  induction bits generalizing n with
  | nil =>
    cases hpath
    exact Nat.le_refl _
  | cons b bits ih =>
    match hn : s.nodeAt n with
    | .empty | .leaf _ =>
      rw [State.nodeAt] at hn
      simp [descend, hn] at hpath
    | .internal w l r =>
      obtain ⟨-, -, -, -, hw⟩ := h.children n w l r hn
      rw [State.nodeAt] at hn
      simp only [descend, hn] at hpath
      change (s.nodeAt m).weight ≤ w
      cases b with
      | false =>
        have hchild : (s.nodeAt m).weight ≤ (s.nodeAt l).weight := ih hpath
        omega
      | true =>
        have hchild : (s.nodeAt m).weight ≤ (s.nodeAt r).weight := ih hpath
        omega

/-- ROOT weighs most (R128). -/
theorem TreeInv.weight_le_root {s : State} (h : TreeInv s) (i : Nat) : (s.nodeAt i).weight ≤ (s.nodeAt s.root).weight := by
  by_cases hi : s.nodeAt i = .empty
  · rw [hi]
    exact Nat.zero_le _
  · obtain ⟨bits, hpath⟩ := h.reach i hi
    exact h.weight_le_of_descend hpath

/-- BUILD's ROOT weighs the counts together: no merge changes the sum of the queue (R128). -/
theorem Buildable.root_weight {s t : State} (h : Buildable s) (he : exec .build s = .next t) :
    (t.nodeAt t.root).weight = ((List.range s.params.nsym).map s.count).sum := by
  obtain ⟨r, seq, hroot, hforest⟩ := h.forest he
  calc (t.nodeAt t.root).weight
    _ = r.weight := by rw [hroot]; exact (hforest.q_node r (by simp)).2.symm
    _ = (s.alphabet.map s.count).sum := by simpa using hforest.total
    _ = ((List.range s.params.nsym).map s.count).sum := sum_alphabet s fun _ ha => ha

/-- The counts of all symbols together (R105, R128). -/
theorem State.Inv.sum_counts_le {s : State} (h : s.Inv) :
    ((List.range s.params.nsym).map s.count).sum ≤ s.params.nsym * (2 ^ s.params.cntW - 1) := by
  have hle := List.sum_le_card_nsmul ((List.range s.params.nsym).map s.count) s.params.maxCount fun x hx => by
    obtain ⟨a, -, rfl⟩ := List.mem_map.mp hx
    exact h.counts a
  simpa [Params.maxCount] using hle

/-- NSYM counts of CNT_W bits fit WGT_W bits together (R5, R128). -/
theorem nsym_mul_maxCount_lt (p : Params) : p.nsym * (2 ^ p.cntW - 1) < 2 ^ p.wgtW := by
  rw [Params.nsym, Params.wgtW, Nat.pow_add, Nat.mul_comm (2 ^ p.cntW)]
  exact Nat.mul_lt_mul_of_pos_left (Nat.sub_lt (Nat.two_pow_pos _) Nat.one_pos) (Nat.two_pow_pos _)

/-- Settles O29: no node outweighs ROOT, and ROOT weighs the counts together. -/
theorem buildWeightsAreExact : Obligations.BuildWeightsAreExact := by
  intro s t hb he
  refine ⟨fun i w hleaf => ?_, fun i w l r hnode => ?_, hb.root_weight he,
    fun i => ((hb.treeInv he).weight_le_root i).trans_eq (hb.root_weight he), hb.inv.sum_counts_le, nsym_mul_maxCount_lt _⟩
  · have hmem : i ∈ s.alphabet := (hb.isLeaf_iff he i).mp (by rw [hleaf]; rfl)
    obtain ⟨hlt, hcount⟩ := mem_alphabet.mp hmem
    rw [buildPlantsTheLeaves s t hb he i hlt, if_neg hcount] at hleaf
    cases hleaf
    rfl
  · obtain ⟨-, -, -, -, hw⟩ := (hb.treeInv he).children i w l r hnode
    exact hw

/-! ### NODE_READ (R132) -/

/-- The children a node names are indices of the arena (R24). -/
theorem State.Inv.child_lt_nnode {s : State} (h : s.Inv) (i : Nat) :
    (s.nodeAt i).left < s.params.nnode ∧ (s.nodeAt i).right < s.params.nnode := by
  have hpos : 0 < s.params.nnode := Nat.lt_of_le_of_lt (Nat.zero_le _) h.decCurLt
  match hn : s.nodeAt i with
  | .empty | .leaf _ => exact ⟨hpos, hpos⟩
  | .internal w l r =>
    have htree : s.treeValid = true := by
      by_contra hv
      have hnode := (h.noTree (by simpa using hv)).1
      simp [State.nodeAt, hnode] at hn
    obtain ⟨-, -, hl, hr, -⟩ := (h.tree htree).children i w l r hn
    exact ⟨h.node_lt hl, h.node_lt hr⟩

theorem exec_nodeRead_shape {s : State} (h : s.Inv) (i : Nat) :
    exec (.nodeRead i .shape) s =
      .next (s.answered [] ((s.nodeAt i).right * 2 ^ 25 + (s.nodeAt i).left * 2 ^ 8 + (s.nodeAt i).kind)) := by
  obtain ⟨-, hnnode, -⟩ := Params.legal_bounds h.legal
  obtain ⟨hl, hr⟩ := h.child_lt_nnode i
  have hkind : (s.nodeAt i).kind < 2 ^ 2 := by cases s.nodeAt i <;> simp [Node.kind]
  have hdata : field 25 17 (s.nodeAt i).right ||| field 8 17 (s.nodeAt i).left ||| field 0 2 (s.nodeAt i).kind =
      BitVec.ofNat 56 ((s.nodeAt i).right * 2 ^ 25 + (s.nodeAt i).left * 2 ^ 8 + (s.nodeAt i).kind) := by
    rw [field_eq_ofNat (by omega) (by omega), ofNat_or_field (by omega) (by omega) (by omega),
      ofNat_or_field (by omega) (by omega) hkind, Nat.pow_zero, Nat.mul_one]
  exact congrArg _ (respond_ok_answered s _ hdata.symm)

theorem exec_nodeRead_weight (s : State) (i : Nat) :
    exec (.nodeRead i .weight) s = .next (s.answered [] (s.nodeAt i).weight) :=
  congrArg _ (respond_ok_answered _ _ (field_zero_56 _).symm)

/-- Settles O35: the word's four fields, and the two forms of the answer. -/
theorem nodeReadRespondsWithTheNode : Obligations.NodeReadRespondsWithTheNode := by
  intro s i hinv hi
  have hword (sel : NodeSel) : (encode (.nodeRead i sel)).toNat = 0x09 * 2 ^ 56 + sel.toField * 2 ^ 48 + 0 * 2 ^ 32 + i :=
    encode_toNat (.nodeRead i sel) hinv.legal (decide_eq_true hi)
  refine ⟨hword .shape, hword .weight, (exec_nodeRead_shape hinv i).trans ?_, exec_nodeRead_weight s i⟩
  cases s.nodeAt i <;> rfl

end Sys2Proof.Machine

/-! PROOFS. The family of spec/42_code_table.md: the code of a one-leaf tree (R125, R141), codewords as paths (R140, R143),
the guarantees of the built code (R142), and CODE_READ (R144). -/

namespace Sys2Proof.Machine

/-! ### The one-leaf tree (R125, R141) -/

theorem alphabet_eq_singleton {s : State} {sym : Nat} (hlt : sym < s.params.nsym) (hcount : s.count sym ≠ 0)
    (hzero : ∀ i, i < s.params.nsym → i ≠ sym → s.count i = 0) : s.alphabet = [sym] := by
  refine (alphabet_pairwise s).eq_of_mem_iff (List.pairwise_singleton ..) fun i => ?_
  rw [mem_alphabet, List.mem_singleton]
  constructor
  · rintro ⟨hi, hne⟩
    by_contra hsym
    exact hne (hzero i hi hsym)
  · rintro rfl
    exact ⟨hlt, hcount⟩

/-- One leaf is planted, and there is nothing to merge. -/
theorem buildTree_singleton (nsym : Nat) (count : Nat → Nat) (sym : Nat) :
    buildTree nsym count [sym] = (Table.write .empty [] sym (.leaf (count sym)), sym) := rfl

theorem generateCodes_of_leaf {nodes : Table Node} {root : Nat} (h : (Table.read .empty nodes root).isLeaf = true)
    (nleaves : Nat) : generateCodes nodes root nleaves = Table.write .none [] root ⟨true, [false]⟩ := if_pos h

theorem rebuild_singleton_nodeAt (s : State) (sym i : Nat) :
    (rebuild [sym] s).nodeAt i = if sym = i then .leaf (s.count sym) else .empty := by
  rw [State.nodeAt, rebuild_node, buildTree_singleton, Table.read_write, Table.read_nil]

theorem rebuild_singleton_codeAt (s : State) (sym i : Nat) :
    (rebuild [sym] s).codeAt i = if sym = i then ⟨true, [false]⟩ else .none := by
  have hleaf : (Table.read .empty (Table.write .empty [] sym (Node.leaf (s.count sym))) sym).isLeaf = true :=
    congrArg Node.isLeaf (Table.read_write_self ..)
  rw [State.codeAt, rebuild_code, buildTree_singleton, generateCodes_of_leaf hleaf, Table.read_write, Table.read_nil]

/-- Settles O30: the alphabet is that one symbol, and BUILD of it needs no merge. -/
theorem buildOfOneSymbol : Obligations.BuildOfOneSymbol := by
  intro s sym henc hdec hlt hcount hzero
  have hbusy : s.busy = false := by simp [State.busy, henc, hdec]
  have halpha : s.alphabet = [sym] := alphabet_eq_singleton hlt hcount hzero
  obtain ⟨d, hd⟩ := exec_build_of_alphabet_ne_nil hbusy (by simp [halpha])
  rw [halpha] at hd
  refine ⟨_, hd, rfl, rfl, ?_, fun i hi => ?_, ?_, fun i hi => ?_⟩
  · rw [respond_nodeAt, rebuild_singleton_nodeAt, if_pos rfl]
    rfl
  · rw [respond_nodeAt, rebuild_singleton_nodeAt, if_neg hi.symm]
  · rw [respond_codeAt, rebuild_singleton_codeAt, if_pos rfl]
  · rw [respond_codeAt, rebuild_singleton_codeAt, if_neg hi.symm]
    rfl

/-! ### Codewords are the paths to the leaves (R140, R143) -/

/-- With two leaves or more ROOT is the last internal node (R25, R127). -/
theorem TreeInv.root_isLeaf_eq_false {s : State} (h : TreeInv s) (htwo : 2 ≤ s.nleaves) :
    (s.nodeAt s.root).isLeaf = false := by
  have hroot : s.root + 2 = s.params.nsym + s.nleaves := h.root_internal htwo
  obtain ⟨w, l, r, hnode⟩ := Node.isInternal_iff.mp ((h.internal_iff s.root).mpr (by omega))
  rw [hnode]
  rfl

theorem TreeInv.descend_code {s : State} (h : TreeInv s) (hroot : (s.nodeAt s.root).isLeaf = false) {c : Nat}
    (hvalid : (s.codeAt c).valid = true) : descend s.node (s.codeAt c).bits s.root = some c := by
  simpa [hroot] using h.code_path c hvalid

/-- Settles O31: the codeword is a path (R27), and there is one path to a leaf (`code_of_path`). -/
theorem buildCodesAreThePaths : Obligations.BuildCodesAreThePaths := by
  intro s t hb he htwo sym
  have htree := hb.treeInv he
  have hroot := htree.root_isLeaf_eq_false htwo
  split
  next hleaf =>
    have hvalid : (t.codeAt sym).valid = true := (htree.leaf_iff sym).mp hleaf
    refine ⟨hvalid, fun bits => ⟨fun hpath => ?_, ?_⟩⟩
    · obtain ⟨-, hbits⟩ := htree.code_of_path hroot hpath hleaf
      exact hbits.symm
    · rintro rfl
      exact htree.descend_code hroot hvalid
  next hleaf =>
    rw [htree.leaf_iff, Bool.not_eq_true] at hleaf
    exact htree.code_none sym hleaf

/-! ### No codeword begins another symbol's (R142) -/

/-- A codeword that begins another is the same symbol's: under an internal ROOT both are paths to leaves, and below a leaf
there is nothing (`descend_prefix_free`); a one-leaf tree has one symbol. -/
theorem TreeInv.eq_of_code_prefix {s : State} (h : TreeInv s) {a b : Nat} (ha : (s.codeAt a).valid = true)
    (hb : (s.codeAt b).valid = true) (hpre : (s.codeAt a).bits <+: (s.codeAt b).bits) : a = b := by
  cases hroot : (s.nodeAt s.root).isLeaf with
  | true =>
    have eq_root (c : Nat) (hc : (s.codeAt c).valid = true) : c = s.root := by
      have hcode := h.code_path c hc
      rw [if_pos hroot] at hcode
      exact hcode.1
    rw [eq_root a ha, eq_root b hb]
  | false =>
    have hleaf : (s.nodeAt a).isLeaf = true := (h.leaf_iff a).mpr ha
    exact (descend_prefix_free (h.descend_code hroot ha) (h.descend_code hroot hb) hleaf hpre).1

theorem Buildable.params_eq {s t : State} (h : Buildable s) (he : exec .build s = .next t) : t.params = s.params := by
  cases h.exec_build.symm.trans he
  rfl

/-- Settles O33: the leaves are the alphabet, and R27 says which lengths there are. -/
theorem buildCodeIsPrefixFree : Obligations.BuildCodeIsPrefixFree := by
  intro s t hb he
  have htree := hb.treeInv he
  refine ⟨fun sym hlt => ?_, fun sym hvalid => ?_, fun a b ha hb hab hpre => hab (htree.eq_of_code_prefix ha hb hpre)⟩
  · rw [← htree.leaf_iff, hb.isLeaf_iff he, mem_alphabet, and_iff_right hlt]
  · rw [← hb.params_eq he]
    exact htree.code_len sym hvalid

/-! ### The code table in every state (R25, R26) -/

theorem State.Inv.codeAt_of_noTree {s : State} (h : s.Inv) (hno : s.treeValid = false) (sym : Nat) :
    s.codeAt sym = .none := by
  obtain ⟨-, hcode, -⟩ := h.noTree hno
  rw [State.codeAt, hcode, Table.read_nil]

theorem State.Inv.codeAt_of_invalid {s : State} (h : s.Inv) {sym : Nat} (hv : (s.codeAt sym).valid = false) :
    s.codeAt sym = .none := by
  cases htree : s.treeValid with
  | false => exact h.codeAt_of_noTree htree sym
  | true => exact (h.tree htree).code_none sym hv

/-- LEN fits its 16 bits: it is at most MAXCODE (R5, R142). -/
theorem State.Inv.codeAt_len_lt {s : State} (h : s.Inv) (sym : Nat) : (s.codeAt sym).len < 2 ^ 16 := by
  cases htree : s.treeValid with
  | false =>
    rw [h.codeAt_of_noTree htree]
    exact Nat.two_pow_pos 16
  | true =>
    cases hv : (s.codeAt sym).valid with
    | false =>
      rw [h.codeAt_of_invalid hv]
      exact Nat.two_pow_pos 16
    | true =>
      obtain ⟨hnsym, -⟩ := Params.legal_bounds h.legal
      obtain ⟨-, hle⟩ := (h.tree htree).code_len sym hv
      have hpos := nsym_pos s.params
      rw [Params.maxCode] at hle
      omega

/-! ### Bits of a response's field (R72) -/

theorem field_getLsbD_inside {lo w v j : Nat} (h : lo + w ≤ 56) (hlo : lo ≤ j) (hhi : j < lo + w) :
    (field lo w v).getLsbD j = v.testBit (j - lo) := by
  rw [field_getLsbD _ _ _ _ h, decide_eq_true hlo, decide_eq_true hhi, Bool.and_self, Bool.true_and]

theorem field_getLsbD_outside {lo w v j : Nat} (h : lo + w ≤ 56) (hj : j < lo ∨ lo + w ≤ j) :
    (field lo w v).getLsbD j = false := by
  rw [field_getLsbD _ _ _ _ h]
  rcases hj with hlow | hhigh
  · rw [decide_eq_false (Nat.not_le.mpr hlow), Bool.false_and, Bool.false_and]
  · rw [decide_eq_false (Nat.not_lt.mpr hhigh), Bool.and_false, Bool.false_and]

/-! ### CODE_READ (R144) -/

/-- The DATA of CODE_READ's response for entry `e` and chunk `k` (`exec_codeRead`). -/
def codeData (e : CodeEntry) (k : Nat) : Data56 :=
  flag 55 e.valid ||| field 32 16 e.len ||| field 0 32 (msbChunk e.bits k).toNat

/-- CODE_READ answers and changes nothing (R59, R144). -/
theorem exec_codeRead (s : State) (sym k : Nat) :
    exec (.codeRead sym k) s = .next (s.answered [] (codeData (s.codeAt sym) k).toNat) := by
  rw [exec, execCodeRead, ← respond_ok_answered s _ (BitVec.ofNat_toNat ..), BitVec.setWidth_eq, codeData]

theorem codeData_getLsbD (e : CodeEntry) (k j : Nat) : (codeData e k).getLsbD j =
    ((field 55 1 e.valid.toNat).getLsbD j || (field 32 16 e.len).getLsbD j ||
      (field 0 32 (msbChunk e.bits k).toNat).getLsbD j) := by
  rw [codeData, flag, BitVec.getLsbD_or, BitVec.getLsbD_or]

theorem codeData_valid (e : CodeEntry) (k : Nat) : (codeData e k).getLsbD 55 = e.valid := by
  rw [codeData_getLsbD, field_getLsbD_inside (by omega) (by omega) (by omega), field_getLsbD_outside (by omega) (by omega),
    field_getLsbD_outside (by omega) (by omega)]
  cases e.valid <;> rfl

theorem codeData_reserved (e : CodeEntry) (k : Nat) {j : Nat} (h48 : 48 ≤ j) (h54 : j ≤ 54) :
    (codeData e k).getLsbD j = false := by
  rw [codeData_getLsbD, field_getLsbD_outside (by omega) (by omega), field_getLsbD_outside (by omega) (by omega),
    field_getLsbD_outside (by omega) (by omega), Bool.or_self, Bool.or_self]

theorem codeData_len (e : CodeEntry) (k : Nat) : (codeData e k).extractLsb' 32 16 = BitVec.ofNat 16 e.len := by
  rw [codeData, flag, extract_or, extract_or, field_extract_self _ _ _ (by omega),
    field_extract_ne _ _ _ _ _ (by omega) (by omega), field_extract_ne _ _ _ _ _ (by omega) (by omega)]
  simp

/-- The chunk is MSB-first, and 0 past the codeword's end (R56). -/
theorem codeData_chunk (e : CodeEntry) (k : Nat) {j : Nat} (hj : j < 32) :
    (codeData e k).getLsbD (31 - j) = e.bits.getD (32 * k + j) false := by
  rw [codeData_getLsbD, field_getLsbD_outside (by omega) (by omega), field_getLsbD_outside (by omega) (by omega),
    field_getLsbD_inside (by omega) (by omega) (by omega), Bool.or_self, Bool.false_or, Nat.sub_zero, BitVec.testBit_toNat,
    msbChunk_getLsbD _ _ _ hj]

theorem codeData_none (k : Nat) : codeData .none k = 0 := by
  have hchunk : msbChunk [] k = 0 := by simp [msbChunk]
  rw [codeData, CodeEntry.none, hchunk]
  rfl

/-- Settles O36: the response's DATA field by field; under the invariant LEN fits its field and an invalid entry is the
reset value. -/
theorem codeReadRespondsWithTheChunk : Obligations.CodeReadRespondsWithTheChunk := by
  intro s sym k hinv hsym hk
  have hwf : (Instr.codeRead sym k).wellFormed s.params = true := by
    rw [Instr.wellFormed, decide_eq_true hsym, decide_eq_true hk, Bool.and_self]
  have hlen : (codeData (s.codeAt sym) k).toNat / 2 ^ 32 % 2 ^ 16 = (s.codeAt sym).len := by
    rw [← Nat.shiftRight_eq_div_pow, ← BitVec.extractLsb'_toNat, codeData_len, BitVec.toNat_ofNat,
      Nat.mod_eq_of_lt (hinv.codeAt_len_lt sym)]
  refine ⟨encode_toNat_of_n_zero _ hinv.legal hwf rfl, _, exec_codeRead s sym k, BitVec.isLt _, codeData_valid _ k,
    fun j => codeData_reserved _ k, hlen, fun j => codeData_chunk _ k, fun hv => ?_, fun hno => ?_⟩
  · rw [hinv.codeAt_of_invalid hv, codeData_none]
    rfl
  · rw [hinv.codeAt_of_noTree hno]
    rfl

end Sys2Proof.Machine

/-! PROOFS. The family of spec/43_encoder_packer.md: what the encode commands answer and put out (R161 to R163, R168, R169,
R172), a whole message's records (R164, R170), and the round trip through the decoder (R171). -/

namespace Sys2Proof.Machine

/-! ### ENC_START and ENC_END (R161, R163, R165, R172) -/

theorem execAll_concat {is : List Instr} {i : Instr} {s m t : State} (h : execAll is s = .next m)
    (hi : exec i m = .next t) : execAll (is ++ [i]) s = .next t := by
  rw [execAll_append, h]
  exact execAll_cons_of_next hi []

theorem exec_encStart_of_open {s : State} (h : s.encOpen = true) :
    exec .encStart s = .next (s.errored .sequence 0x10 0 0) := by
  rw [exec, execEncStart, if_pos h, raise_errored]
  rfl

theorem exec_encStart_of_closed {s : State} (h : s.encOpen = false) : exec .encStart s = .next
    (({ s with encOpen := true, encNsym := 0, encNbits := 0, pkBuf := 0, pkCnt := 0 } : State).answered [] 0) := by
  rw [exec, execEncStart, if_neg (by simp [h])]
  exact congrArg _ (respond_ok_answered _ 0 rfl)

theorem exec_encEnd_of_closed {s : State} (h : s.encOpen = false) :
    exec .encEnd s = .next (s.errored .sequence 0x12 0 0) := by
  rw [exec, execEncEnd, if_pos h, raise_errored]
  rfl

theorem exec_encEnd_of_open {s : State} (h : s.encOpen = true) : exec .encEnd s = .next
    (({ s with pkBuf := 0, pkCnt := 0, encOpen := false } : State).answered [.bs ⟨s.pkBuf, s.pkCnt.val, true⟩]
      s.encNbits) := by
  rw [exec, execEncEnd, if_neg (by simp [h])]
  simp only [respond_ok_answered _ _ (field_zero_56 _).symm]
  simp [State.answered]

/-- Settles O37: the two branches of ENC_START. -/
theorem encStartOpensAMessage : Obligations.EncStartOpensAMessage := by
  refine ⟨by decide, fun s => ?_⟩
  split
  next hopen => exact exec_encStart_of_open hopen
  next hclosed => exact exec_encStart_of_closed (by simpa using hclosed)

/-- Over its pending bits the packer holds zeros, so with none pending it is 0 (R29). -/
theorem PackerZeros.pkBuf_eq_zero {s : State} (h : PackerZeros s) (hcnt : s.pkCnt.val = 0) : s.pkBuf = 0 := by
  ext j hj
  rw [← BitVec.getLsbD_eq_getElem, h j (by omega)]
  exact (BitVec.getElem_zero hj).symm

/-- Settles O39: the two branches of ENC_END; what the packer holds is in the invariant. -/
theorem encEndFlushesThePacker : Obligations.EncEndFlushesThePacker := by
  refine ⟨by decide, fun s => ?_, fun s hinv hopen => ?_⟩
  · split
    next hclosed => exact exec_encEnd_of_closed hclosed
    next hopen => exact exec_encEnd_of_open (by simpa using hopen)
  · have hcnt := hinv.packer hopen
    exact ⟨hcnt, fun j hj => hinv.packerZeros j (by omega),
      fun hzero => PackerZeros.pkBuf_eq_zero hinv.packerZeros (hcnt.trans hzero)⟩

/-- Settles O40: ENC_START empties the packer, and ENC_END puts out what it holds. -/
theorem emptyMessageEncodesToNothing : Obligations.EmptyMessageEncodesToNothing := by
  intro s hclosed
  rw [execAll_cons_of_next (exec_encStart_of_closed hclosed), execAll_cons_of_next (exec_encEnd_of_open rfl)]
  simp [execAll, State.answered, hclosed]

/-! ### ENC_SYM (R162, R168, R169) -/

theorem exec_encSym_of_closed {s : State} (h : s.encOpen = false) (sym : Nat) :
    exec (.encSym sym) s = .next (s.errored .sequence 0x11 (BitVec.ofNat 16 sym) 0) := by
  rw [exec, execEncSym, if_pos h, raise_errored]
  rfl

theorem exec_encSym_of_invalid {s : State} (ho : s.encOpen = true) {sym : Nat} (hv : (s.codeAt sym).valid = false) :
    exec (.encSym sym) s = .next ((encAbort s).errored .unknownSymbol 0x11 (BitVec.ofNat 16 sym)
      (BitVec.ofNat 32 s.encNsym)) := by
  rw [exec, execEncSym, if_neg (by simp [ho]), if_pos hv, raise_errored]
  rfl

theorem exec_encSym_of_tooLong {s : State} (ho : s.encOpen = true) {sym : Nat} (hv : (s.codeAt sym).valid = true)
    (hlen : s.encNbits + (s.codeAt sym).len > s.params.maxLen) :
    exec (.encSym sym) s = .next ((encAbort s).errored .length 0x11 (BitVec.ofNat 16 sym)
      (BitVec.ofNat 32 s.encNsym)) := by
  rw [exec, execEncSym, if_neg (by simp [ho]), if_neg (by simp [hv]), if_pos hlen, raise_errored]
  rfl

theorem packBit_frame (b : Bool) (s : State) :
    ∃ buf cnt os, packBit b s = { s with pkBuf := buf, pkCnt := cnt, outputs := os } := by
  unfold packBit
  split <;> exact ⟨_, _, _, rfl⟩

/-- Packing writes the packer and the output sequence only (R160). -/
theorem packBits_frame (bs : Bits) (s : State) : packBits bs s =
    { s with pkBuf := (packBits bs s).pkBuf, pkCnt := (packBits bs s).pkCnt, outputs := (packBits bs s).outputs } := by
  induction bs generalizing s with
  | nil => rfl
  | cons b bs ih =>
    obtain ⟨buf, cnt, os, hb⟩ := packBit_frame b s
    rw [packBits, ih, hb]

/-- ENC_SYM's response has LEN above ENC_NBITS: a codeword's length fits 16 bits, a message's 32 (R162). -/
theorem encSymData_eq {s : State} (h : s.Inv) (sym : Nat) {n : Nat} (hn : n ≤ s.params.maxLen) :
    BitVec.ofNat 56 ((s.codeAt sym).len * 2 ^ 32 + n) = field 32 16 (s.codeAt sym).len ||| field 0 32 n := by
  obtain ⟨-, -, -, hpos⟩ := Params.legal_bounds h.legal
  have hlt : n < 2 ^ 32 := by
    have hmax : s.params.maxLen = 2 ^ s.params.posW - 1 := rfl
    have := Nat.two_pow_pos s.params.posW
    omega
  rw [field_eq_ofNat (by omega) (h.codeAt_len_lt sym), ofNat_or_field (by omega) (by omega) hlt, Nat.pow_zero, Nat.mul_one]

/-- ENC_SYM of a codeword that fits: full words go out, and the packer keeps the rest (R160, R162). -/
theorem exec_encSym_packs {s : State} (h : s.Inv) (ho : s.encOpen = true) {sym : Nat} (hv : (s.codeAt sym).valid = true)
    (hlen : s.encNbits + (s.codeAt sym).len ≤ s.params.maxLen) :
    ∃ (t : State) (rs : List BsRecord), exec (.encSym sym) s = .next t ∧
      (∀ r ∈ rs, r.nbits = 32 ∧ r.last = false) ∧
      rs.flatMap BsRecord.bits ++ t.pending = s.pending ++ (s.codeAt sym).bits ∧ PackerZeros t ∧
      t = ({ s with pkBuf := t.pkBuf, pkCnt := t.pkCnt, encNbits := s.encNbits + (s.codeAt sym).len,
                    encNsym := s.encNsym + 1 } : State).answered (rs.map .bs)
            ((s.codeAt sym).len * 2 ^ 32 + (s.encNbits + (s.codeAt sym).len)) := by
  obtain ⟨rs, hfull, hout, hbits, -, hzeros⟩ := packBits_spec (s.codeAt sym).bits s h.packerZeros
  have hexec := exec_encSym_fits ho hv hlen
  rw [← encSymData_eq h sym hlen, respond_ok_answered _ _ rfl] at hexec
  refine ⟨_, rs, hexec, hfull, hbits, hzeros, ?_⟩
  rw [packBits_frame, hout]
  simp [State.answered]

/-- Settles O38: ENC_SYM's three errors in their order, and else `exec_encSym_packs`. -/
theorem encSymPacksTheCodeword : Obligations.EncSymPacksTheCodeword := by
  intro s sym hinv hsym
  refine ⟨(encode_toNat_of_n_zero (.encSym sym) hinv.legal (decide_eq_true hsym) rfl).trans (Nat.add_zero _), ?_⟩
  split
  next hclosed => exact exec_encSym_of_closed hclosed sym
  next hopen =>
    rw [Bool.not_eq_false] at hopen
    split
    next hinvalid => exact exec_encSym_of_invalid hopen hinvalid
    next hvalid =>
      rw [Bool.not_eq_false] at hvalid
      split
      next hlong => exact exec_encSym_of_tooLong hopen hvalid hlong
      next hfits => exact exec_encSym_packs hinv hopen hvalid (Nat.le_of_not_gt hfits)

/-! ### A whole message's records (R164, R170) -/

/-- ENC_START leaves nothing pending, and the ENC_SYMs pack the codewords (`encSyms_spec`). -/
theorem execAll_encStart_encSyms {s : State} (h : s.Inv) (hclosed : s.encOpen = false) {t : List Nat}
    (hv : ∀ c ∈ t, (s.codeAt c).valid = true)
    (hlen : (t.flatMap fun c => (s.codeAt c).bits).length ≤ s.params.maxLen) :
    ∃ (m : State) (os : List Output), execAll (.encStart :: t.map .encSym) s = .next m ∧ m.encOpen = true ∧
      m.outputs = s.outputs ++ os ∧ (∀ r ∈ bsRecords os, r.nbits = 32 ∧ r.last = false) ∧
      (bsRecords os).flatMap BsRecord.bits ++ m.pending = t.flatMap (fun c => (s.codeAt c).bits) ∧
      32 * (bsRecords os).length + m.pkCnt.val = (t.flatMap fun c => (s.codeAt c).bits).length ∧
      m.encNbits = (t.flatMap fun c => (s.codeAt c).bits).length := by
  have hstart := exec_encStart_of_closed hclosed
  obtain ⟨m, os, hsyms, -, hopen, hout, hfull, hbits, hcount, hnbits, -⟩ :=
    encSyms_spec t _ (exec_inv .encStart h rfl hstart) rfl hv ((Nat.zero_add _).trans_le hlen)
  refine ⟨m, .rsp 0 :: os, (execAll_cons_of_next hstart _).trans hsyms, hopen, ?_, hfull, hbits,
    hcount.trans (Nat.zero_add _), hnbits.trans (Nat.zero_add _)⟩
  rw [hout]
  simp [State.answered]

/-- Settles O41: the full records hold what the packer has let go, and ENC_END puts out what is left as the last one. -/
theorem encodedMessageIsTheCodewords : Obligations.EncodedMessageIsTheCodewords := by
  intro s t hinv hclosed hvalid hlen
  obtain ⟨m, os, hexec, hopen, hout, hfull, hbits, hcount, hnbits⟩ := execAll_encStart_encSyms hinv hclosed hvalid hlen
  have hlt := m.pkCnt.isLt
  refine ⟨_, os ++ [.bs ⟨m.pkBuf, m.pkCnt.val, true⟩], bsRecords os, ⟨m.pkBuf, m.pkCnt.val, true⟩,
    execAll_concat hexec (exec_encEnd_of_open hopen), ?_, bsRecords_append .., hfull, rfl, by omega, by simp only; omega,
    ?_⟩
  · rw [← hnbits]
    simp [State.answered, hout]
  · rw [List.flatMap_append, List.flatMap_singleton]
    exact hbits

/-! ### The round trip (R171) -/

theorem exec_decStart_of_closed {s : State} (h : s.decOpen = false) : exec .decStart s = .next
    (({ s with decOpen := true, decCur := s.root, decNbits := 0, decNsym := 0 } : State).answered [] 0) := by
  rw [exec, execDecStart, if_neg (by simp [h])]
  exact congrArg _ (respond_ok_answered _ 0 rfl)

/-- DEC_END on a codeword boundary (R195). -/
theorem exec_decEnd_of_boundary {s : State} (ho : s.decOpen = true) (hcur : s.decCur = s.root) :
    exec .decEnd s = .next ((decAbort s).answered [] s.decNsym) := by
  rw [exec, execDecEnd, if_neg (by simp [ho]), if_neg (by simp [hcur])]
  exact congrArg _ (respond_ok_answered _ _ (field_zero_56 _).symm)

namespace TreeInv

variable {s : State} {t : List Nat}

/-- Under a one-leaf tree a text is ROOT's symbol again and again, and its codewords are 0 bits (R141). -/
theorem codewords_of_one_leaf (h : TreeInv s) (hroot : (s.nodeAt s.root).isLeaf = true)
    (hv : ∀ c ∈ t, (s.codeAt c).valid = true) :
    t = List.replicate t.length s.root ∧ (t.flatMap fun c => (s.codeAt c).bits) = List.replicate t.length false := by
  have hcode (c : Nat) (hc : c ∈ t) : c = s.root ∧ (s.codeAt c).bits = [false] := by
    simpa [hroot] using h.code_path c (hv c hc)
  refine ⟨List.eq_replicate_iff.mpr ⟨rfl, fun c hc => (hcode c hc).1⟩, ?_⟩
  rw [List.flatMap_congr fun c hc => (hcode c hc).2, ← List.map_eq_flatMap, List.map_const']

/-- The codewords of a text split in no other way into codewords and the beginning of another (R142, R194, R200). -/
theorem eq_of_codewords_split (h : TreeInv s) {syms : List Nat} {rest : Bits} {m : Nat}
    (ht : ∀ c ∈ t, (s.codeAt c).valid = true) (hs : ∀ c ∈ syms, (s.codeAt c).valid = true)
    (hm : descend s.node rest s.root = some m) (hleaf : (s.nodeAt s.root).isLeaf = true → rest = [])
    (hint : (s.nodeAt s.root).isInternal → (s.nodeAt m).isInternal)
    (he : (t.flatMap fun c => (s.codeAt c).bits) = (syms.flatMap fun c => (s.codeAt c).bits) ++ rest) :
    syms = t ∧ rest = [] := by
  rcases h.root_cases with ⟨hroot, -⟩ | hroot
  · obtain rfl := hleaf hroot
    obtain ⟨ht', htbits⟩ := h.codewords_of_one_leaf hroot ht
    obtain ⟨hs', hsbits⟩ := h.codewords_of_one_leaf hroot hs
    rw [htbits, hsbits, List.append_nil] at he
    have hlen : t.length = syms.length := by simpa using congrArg List.length he
    exact ⟨by rw [hs', ht', hlen], rfl⟩
  · obtain ⟨rfl, rfl⟩ :=
      split_unique h hroot t syms [] rest s.root m ht hs rfl hroot hm (hint hroot) ((List.append_nil _).trans he)
    exact ⟨rfl, rfl⟩

end TreeInv

/-- A decode message of a text's codewords, in any pieces, puts out the text and ends well (R193 to R195, R200). -/
theorem execAll_decode_codewords {s : State} (h : s.Inv) (htree : s.treeValid = true) (hclosed : s.decOpen = false)
    {t : List Nat} (hv : ∀ c ∈ t, (s.codeAt c).valid = true)
    (hlen : (t.flatMap fun c => (s.codeAt c).bits).length ≤ s.params.maxLen) {cmds : List (Nat × Word32)}
    (hcmds : ∀ c ∈ cmds, 1 ≤ c.1 ∧ c.1 ≤ 32)
    (hbits : cmds.flatMap (fun c => msbBits c.1 c.2) = t.flatMap fun c => (s.codeAt c).bits) :
    ∃ (v : State) (os : List Output),
      execAll (.decStart :: cmds.map (fun c => .decBits c.1 c.2) ++ [.decEnd]) s = .next v ∧
      v.outputs = s.outputs ++ os ++ [.rsp (0x00#8 ++ BitVec.ofNat 56 t.length)] ∧ symRecords os = t := by
  have ht := h.tree htree
  have hstart := exec_decStart_of_closed hclosed
  obtain ⟨m, hexec, ⟨-, hwhy⟩ | ⟨os, rest, hopen, hroot, hout, hsplit, hvalid, hrest, hnsym, hleaf, hint⟩⟩ :=
    decBitsSeq_spec cmds _ (exec_inv .decStart h rfl hstart) rfl htree [] rfl (fun _ => rfl) hcmds
  · obtain ⟨hroot, hone⟩ := hwhy (by rw [hbits]; exact (Nat.zero_add _).trans_le hlen)
    rw [hbits, (ht.codewords_of_one_leaf hroot hv).2] at hone
    exact absurd (List.eq_of_mem_replicate hone) (by decide)
  · rw [hbits] at hsplit
    obtain ⟨hsyms, rfl⟩ := ht.eq_of_codewords_split hv hvalid hrest hleaf hint hsplit
    have hcur : m.decCur = m.root := hroot ▸ (Option.some.inj hrest).symm
    have hcount : m.decNsym = t.length := by rw [hnsym, hsyms]; exact Nat.zero_add _
    refine ⟨_, .rsp 0 :: os,
      execAll_concat ((execAll_cons_of_next hstart _).trans hexec) (exec_decEnd_of_boundary hopen hcur), ?_, hsyms⟩
    simp [State.answered, hout, hcount]

/-- A symbol with a codeword is a symbol of the alphabet (R26). -/
theorem State.Inv.lt_nsym_of_code {s : State} (h : s.Inv) (htree : s.treeValid = true) {c : Nat}
    (hv : (s.codeAt c).valid = true) : c < s.params.nsym :=
  (h.tree htree).leaf_lt c (((h.tree htree).leaf_iff c).mpr hv)

theorem mem_pseudoEncode {t : List Nat} {i : Instr} :
    i ∈ pseudoEncode t ↔ i = .encStart ∨ (∃ c ∈ t, .encSym c = i) ∨ i = .encEnd := by
  simp [pseudoEncode]

/-- Commands that are neither BUILD nor the decoder's leave the code and the decoder's state alone (R66, R236). -/
theorem execAll_keeps_code {is : List Instr} {s u : State}
    (hi : ∀ i ∈ is, i ≠ .build ∧ i ≠ .decStart ∧ i ≠ .decEnd ∧ ∀ n v, i ≠ .decBits n v)
    (he : execAll is s = .next u) : u.treeValid = s.treeValid ∧ u.code = s.code ∧ u.decOpen = s.decOpen := by
  induction is generalizing s with
  | nil => cases he; exact ⟨rfl, rfl, rfl⟩
  | cons i is ih =>
    obtain ⟨t, ht, -⟩ := exec_params i s
    rw [execAll, ht] at he
    obtain ⟨hbuild, hdec⟩ := hi i (.head _)
    obtain ⟨htree, hcode, hopen⟩ := ih (fun j hj => hi j (.tail _ hj)) he
    obtain ⟨-, hkeep, -⟩ := onlyTheirCommandsWriteTheTables i s t ht
    obtain ⟨-, -, -, htree', hcode'⟩ := hkeep hbuild
    obtain ⟨-, hkeep⟩ := directionsAreIndependent i s t ht
    obtain ⟨hopen', -⟩ := hkeep hdec
    exact ⟨htree.trans htree', hcode.trans hcode', hopen.trans hopen'⟩

section EncodeMessage
variable {s u : State} {t : List Nat}

/-- An encode message of symbols with codewords keeps the invariant. -/
theorem inv_of_pseudoEncode (h : s.Inv) (htree : s.treeValid = true) (hv : ∀ c ∈ t, (s.codeAt c).valid = true)
    (he : execAll (pseudoEncode t) s = .next u) : u.Inv ∧ u.params = s.params := by
  have hwf : ∀ i ∈ pseudoEncode t, i.wellFormed s.params = true := by
    intro i hi
    rcases mem_pseudoEncode.mp hi with rfl | ⟨c, hc, rfl⟩ | rfl
    · rfl
    · exact decide_eq_true (h.lt_nsym_of_code htree (hv c hc))
    · rfl
  obtain ⟨u', he', hinv, hparams⟩ := execAll_inv (pseudoEncode t) s h hwf
  cases he.symm.trans he'
  exact ⟨hinv, hparams⟩

theorem code_of_pseudoEncode (he : execAll (pseudoEncode t) s = .next u) :
    u.treeValid = s.treeValid ∧ u.code = s.code ∧ u.decOpen = s.decOpen := by
  refine execAll_keeps_code (fun i hi => ?_) he
  rcases mem_pseudoEncode.mp hi with rfl | ⟨c, -, rfl⟩ | rfl <;> simp

/-- The valid bits of all an encode message puts out are its codewords (`encodedMessageIsTheCodewords`). -/
theorem bits_of_pseudoEncode (h : s.Inv) (hclosed : s.encOpen = false) (hv : ∀ c ∈ t, (s.codeAt c).valid = true)
    (hlen : (t.flatMap fun c => (s.codeAt c).bits).length ≤ s.params.maxLen) {os : List Output}
    (he : execAll (pseudoEncode t) s = .next u) (hout : u.outputs = s.outputs ++ os) :
    (bsRecords os).flatMap BsRecord.bits = t.flatMap fun c => (s.codeAt c).bits := by
  obtain ⟨u', os', rs, last, he', hout', hrecs, -, -, -, -, hbits⟩ := encodedMessageIsTheCodewords s t h hclosed hv hlen
  cases he.symm.trans he'
  rw [hout, List.append_assoc] at hout'
  rw [List.append_cancel_left hout', bsRecords_append, hrecs, ← hbits]
  simp [bsRecords]

end EncodeMessage

/-- Settles O48: the records hold the codewords, and the encode message leaves the code and the decoder alone, so
`execAll_decode_codewords` applies to the state it leaves. -/
theorem decodeOfEncodeIsTheMessage : Obligations.DecodeOfEncodeIsTheMessage := by
  intro s u t os cmds hinv htree henc hdec hv hlen hexec hout hcmds hcarry
  obtain ⟨huinv, huparams⟩ := inv_of_pseudoEncode hinv htree hv hexec
  obtain ⟨hutree, hucode, hudec⟩ := code_of_pseudoEncode hexec
  have hbits := hcarry.trans (bits_of_pseudoEncode hinv henc hv hlen hexec hout)
  have hcodeAt : u.codeAt = s.codeAt := by funext c; simp only [State.codeAt, hucode]
  rw [← hcodeAt] at hv hbits hlen
  exact execAll_decode_codewords huinv (hutree.trans htree) (hudec.trans hdec) hv (huparams ▸ hlen) hcmds hbits

end Sys2Proof.Machine

/-! PROOFS. The family of spec/44_decoder.md: what the decode commands answer (R191, R192, R195, R197 to R199), DEC_BITS under
a one-leaf tree (R194), and a whole message as the split of its bits into codewords (R200). -/

namespace Sys2Proof.Machine

/-! ### What DEC_BITS answers (R192, R194, R198, R199) -/

theorem exec_decBits_of_closed {s : State} (h : s.decOpen = false) (n : Nat) (v : Word32) :
    exec (.decBits n v) s = .next (s.errored .sequence 0x19 0 v) := by
  rw [exec, execDecBits, if_pos h, raise_errored, BitVec.ofNat_toNat, BitVec.setWidth_eq]
  rfl

theorem exec_decBits_of_noTree {s : State} (ho : s.decOpen = true) (htree : s.treeValid = false) (n : Nat) (v : Word32) :
    exec (.decBits n v) s = .next ((decAbort s).errored .noTree 0x19 0 (BitVec.ofNat 32 s.decNbits)) := by
  rw [exec, execDecBits, if_neg (by simp [ho]), if_pos htree, raise_errored]
  rfl

theorem exec_decBits_of_tooLong {s : State} (ho : s.decOpen = true) (htree : s.treeValid = true) {n : Nat}
    (hlen : s.decNbits + n > s.params.maxLen) (v : Word32) :
    exec (.decBits n v) s = .next ((decAbort s).errored .length 0x19 0 (BitVec.ofNat 32 s.decNbits)) := by
  rw [exec, execDecBits, if_neg (by simp [ho]), if_neg (by simp [htree]), if_pos hlen, raise_errored]
  rfl

theorem exec_decBits_of_room {s : State} (ho : s.decOpen = true) (htree : s.treeValid = true) {n : Nat}
    (hlen : s.decNbits + n ≤ s.params.maxLen) (v : Word32) :
    exec (.decBits n v) s = .next (decodeBits 0x19 (msbBits n v) 0 s) := by
  rw [exec, execDecBits, if_neg (by simp [ho]), if_neg (by simp [htree]), if_neg (Nat.not_lt.mpr hlen)]
  rfl

theorem msbBits_eq_zeros {n : Nat} {v : Word32} (h : ∀ j, j < n → v.getLsbD (31 - j) = false) :
    msbBits n v = List.replicate n false := by
  rw [msbBits, List.map_congr_left fun j hj => h j (List.mem_range.mp hj), List.map_const', List.length_range]

/-- The first `n` bits are the first `j`, the bit at `j`, and what comes after it (R55). -/
theorem msbBits_eq_append_cons {n j : Nat} (h : j < n) (v : Word32) :
    ∃ after, msbBits n v = msbBits j v ++ v.getLsbD (31 - j) :: after := by
  obtain ⟨k, rfl⟩ := Nat.exists_eq_add_of_lt h
  refine ⟨(List.range k).map fun i => v.getLsbD (31 - (j + 1 + i)), ?_⟩
  rw [Nat.add_right_comm, msbBits, List.range_add, List.range_succ]
  simp [msbBits]

/-- The state after `k` 0 bits under a one-leaf tree: ROOT's symbol is put out `k` times (R194). -/
theorem decoded_root_replicate (s : State) (k : Nat) : decoded s s.decCur k (List.replicate k s.root) =
    { s with decNbits := s.decNbits + k, decNsym := s.decNsym + k,
             outputs := s.outputs ++ List.replicate k (.sym (BitVec.ofNat 16 s.root)) } := by
  rw [decoded, List.length_replicate, List.map_replicate]

section OneLeaf

variable {s : State} {n : Nat} {v : Word32} (ho : s.decOpen = true) (htree : s.treeValid = true)
  (hroot : (s.nodeAt s.root).isLeaf = true) (hlen : s.decNbits + n ≤ s.params.maxLen)

include ho htree hroot hlen

theorem exec_decBits_zeros (hzeros : ∀ j, j < n → v.getLsbD (31 - j) = false) :
    exec (.decBits n v) s = .next (({ s with decNbits := s.decNbits + n, decNsym := s.decNsym + n } : State).answered
      (List.replicate n (.sym (BitVec.ofNat 16 s.root))) n) := by
  rw [exec_decBits_of_room ho htree hlen, msbBits_eq_zeros hzeros, decodeBits_zeros _ _ _ _ hroot, Nat.zero_add,
    respond_ok_answered _ _ (field_zero_56 _).symm, decoded_root_replicate]
  simp [State.answered]

theorem exec_decBits_one {j : Nat} (hj : j < n) (hzeros : ∀ i, i < j → v.getLsbD (31 - i) = false)
    (hone : v.getLsbD (31 - j) = true) :
    exec (.decBits n v) s = .next ((decAbort (decoded s s.decCur j (List.replicate j s.root))).errored
      .malformedBitstream 0x19 0 (BitVec.ofNat 32 (s.decNbits + j))) := by
  obtain ⟨after, hbits⟩ := msbBits_eq_append_cons hj v
  rw [exec_decBits_of_room ho htree hlen, hbits, msbBits_eq_zeros hzeros, hone, decodeBits_one _ _ _ _ _ hroot,
    raise_errored]
  rfl

end OneLeaf

/-- Settles O45: the bits are 0s only, or 0s up to the first 1. -/
theorem decBitsUnderAOneLeafTree : Obligations.DecBitsUnderAOneLeafTree := by
  intro s n v _ hopen htree hroot _ _ hroom
  refine ⟨exec_decBits_zeros hopen htree hroot hroom, fun j hj hzeros hone => ?_⟩
  rw [exec_decBits_one hopen htree hroot hroom hj hzeros hone, decoded_root_replicate]
  rfl

/-- Settles O43: DEC_BITS's word, and its three refusals. -/
theorem decBitsRefusals : Obligations.DecBitsRefusals := by
  intro s n v hpos hle
  have hwf : (Instr.decBits n v).wellFormed .default = true := by simp [Instr.wellFormed, hpos, hle]
  have hword := encode_toNat (.decBits n v) (by decide) hwf
  rw [Instr.symOperand, Nat.zero_mul, Nat.add_zero] at hword
  exact ⟨hword, fun hclosed => exec_decBits_of_closed hclosed n v,
    fun hopen hno => exec_decBits_of_noTree hopen hno n v,
    fun hopen htree hlong => exec_decBits_of_tooLong hopen htree hlong v⟩

/-! ### DEC_START and DEC_END (R191, R195, R197) -/

theorem exec_decStart_of_open {s : State} (h : s.decOpen = true) :
    exec .decStart s = .next (s.errored .sequence 0x18 0 0) := by
  rw [exec, execDecStart, if_pos h, raise_errored]
  rfl

theorem exec_decEnd_of_closed {s : State} (h : s.decOpen = false) :
    exec .decEnd s = .next (s.errored .sequence 0x1A 0 0) := by
  rw [exec, execDecEnd, if_pos h, raise_errored]
  rfl

/-- DEC_END inside a codeword (R195). -/
theorem exec_decEnd_of_inside {s : State} (ho : s.decOpen = true) (hcur : s.decCur ≠ s.root) :
    exec .decEnd s = .next ((decAbort s).errored .malformedBitstream 0x1A 0 (BitVec.ofNat 32 s.decNbits)) := by
  rw [exec, execDecEnd, if_neg (by simp [ho]), if_pos hcur, raise_errored]
  rfl

/-- Settles O42: the two branches of DEC_START. -/
theorem decStartOpensAMessage : Obligations.DecStartOpensAMessage := by
  refine ⟨by decide, fun s => ?_⟩
  split
  next hopen => exact exec_decStart_of_open hopen
  next hclosed => exact exec_decStart_of_closed (by simpa using hclosed)

/-- Under a one-leaf tree the traversal never leaves ROOT (R194). -/
theorem State.Inv.decCur_eq_root {s : State} (h : s.Inv) (ho : s.decOpen = true) (hroot : (s.nodeAt s.root).isLeaf = true) :
    s.decCur = s.root := by
  have hleaf : ¬ (s.nodeAt s.root).isInternal := by
    cases hn : s.nodeAt s.root <;> simp_all [Node.isLeaf, Node.kind]
  simpa only [if_neg hleaf] using h.decCurOk ho

/-- Settles O46: the three branches of DEC_END; a message just opened is at ROOT. -/
theorem decEndChecksTheBoundary : Obligations.DecEndChecksTheBoundary := by
  refine ⟨by decide, fun s => ?_, fun s hinv hopen hroot => hinv.decCur_eq_root hopen hroot, fun s hclosed => ?_⟩
  · split
    next hclosed => exact exec_decEnd_of_closed hclosed
    next hopen =>
      rw [Bool.not_eq_false] at hopen
      split
      next hinside => exact exec_decEnd_of_inside hopen hinside
      next hboundary => exact exec_decEnd_of_boundary hopen (not_not.mp hboundary)
  · rw [execAll_cons_of_next (exec_decStart_of_closed hclosed), execAll_cons_of_next (exec_decEnd_of_boundary rfl rfl)]
    simp [execAll, State.answered, decAbort, hclosed]

/-! ### A whole message (R200) -/

theorem exec_of_execAll_concat {is : List Instr} {i : Instr} {s m t : State} (h : execAll is s = .next m)
    (he : execAll (is ++ [i]) s = .next t) : exec i m = .next t := by
  obtain ⟨t', hi, -⟩ := exec_params i m
  cases (execAll_concat h hi).symm.trans he
  exact hi

/-- DEC_END answers OK only in an open message on a codeword boundary, and then with DEC_NSYM (R195). -/
theorem boundary_of_exec_decEnd_ok {s t : State} {os : List Output} {d : Data56} (he : exec .decEnd s = .next t)
    (hout : t.outputs = os ++ [.rsp (0x00#8 ++ d)]) :
    s.decOpen = true ∧ s.decCur = s.root ∧ s.outputs = os ∧ d = BitVec.ofNat 56 s.decNsym := by
  simp only [exec, execDecEnd] at he
  split_ifs at he with hclosed hinside <;> cases he <;> obtain ⟨hos, hst, hd⟩ := outputs_inj (e' := .ok) hout
  · cases hst
  · cases hst
  · exact ⟨by simpa using hclosed, not_not.mp hinside, hos, hd.symm.trans (field_zero_56 _)⟩

/-- A path that ends where it starts is empty: children come before their parents (R127). -/
theorem TreeInv.eq_nil_of_descend_root {s : State} (h : TreeInv s) {bits : Bits}
    (hpath : descend s.node bits s.root = some s.root) : bits = [] :=
  h.path_unique bits [] s.root hpath rfl

/-- A decode message up to its DEC_END: closed by an error, or its bits are split into the codewords of the symbols put
out and `rest`, the path to DEC_CUR (`decBitsSeq_spec`). -/
theorem execAll_decStart_decBits {s : State} (h : s.Inv) (htree : s.treeValid = true) (hclosed : s.decOpen = false)
    {cmds : List (Nat × Word32)} (hcmds : ∀ c ∈ cmds, 1 ≤ c.1 ∧ c.1 ≤ 32) :
    ∃ m, execAll (.decStart :: cmds.map fun c => .decBits c.1 c.2) s = .next m ∧
      (m.decOpen = false ∨ ∃ (os : List Output) (rest : Bits), m.root = s.root ∧ m.outputs = s.outputs ++ os ∧
        cmds.flatMap (fun c => msbBits c.1 c.2) = (symRecords os).flatMap (fun c => (s.codeAt c).bits) ++ rest ∧
        (∀ c ∈ symRecords os, (s.codeAt c).valid = true) ∧ descend s.node rest s.root = some m.decCur ∧
        m.decNsym = (symRecords os).length) := by
  have hstart := exec_decStart_of_closed hclosed
  obtain ⟨m, hexec, hcase⟩ :=
    decBitsSeq_spec cmds _ (exec_inv .decStart h rfl hstart) rfl htree [] rfl (fun _ => rfl) hcmds
  refine ⟨m, (execAll_cons_of_next hstart _).trans hexec, ?_⟩
  rcases hcase with ⟨hend, -⟩ | ⟨os, rest, -, hroot, hout, hsplit, hvalid, hrest, hnsym, -, -⟩
  · exact .inl hend
  · refine .inr ⟨.rsp 0 :: os, rest, hroot, ?_, hsplit, hvalid, hrest, hnsym.trans (Nat.zero_add _)⟩
    simp [hout, State.answered]

/-- Settles O47: the DEC_BITS have split the bits into codewords and a path to DEC_CUR; a DEC_END that answers OK has
found DEC_CUR at ROOT, so the path is empty; no other split is possible (`TreeInv.eq_of_codewords_split`). -/
theorem decodedMessageIsTheUniqueSplit : Obligations.DecodedMessageIsTheUniqueSplit := by
  intro s u cmds d os hinv htree hclosed hcmds hexec hout
  have ht := hinv.tree htree
  obtain ⟨m, hbits, hcase⟩ := execAll_decStart_decBits hinv htree hclosed hcmds
  obtain ⟨hopen, hcur, hmout, rfl⟩ := boundary_of_exec_decEnd_ok (exec_of_execAll_concat hbits hexec) hout
  rcases hcase with hend | ⟨os', rest, hroot, hmout', hsplit, hvalid, hrest, hnsym⟩
  · exact absurd hopen (by simp [hend])
  · obtain rfl : os' = os := List.append_cancel_left (hmout'.symm.trans hmout)
    obtain rfl : rest = [] := ht.eq_nil_of_descend_root (by rw [hrest, hcur, hroot])
    refine ⟨by rw [hsplit, List.append_nil], by rw [hnsym], fun syms hsyms hbits' => ?_⟩
    have hsame := ht.eq_of_codewords_split hsyms hvalid hrest (fun _ => rfl) (by rw [hcur, hroot]; exact id)
      (hbits'.symm.trans hsplit)
    exact hsame.1.symm

end Sys2Proof.Machine

/-! PROOFS. The family of spec/45_control.md: NOP (R210) and the views of STATUS_READ (R211). -/

namespace Sys2Proof.Machine

/-! ### NOP (R210) -/

theorem exec_nop (s : State) : exec .nop s = .next (s.answered [] 0) :=
  congrArg _ (respond_ok_answered s 0 rfl)

/-- NOP is the only command of opcode 0x00 (R77). -/
theorem eq_nop_of_op_eq_zero {i : Instr} (h : i.op = 0x00) : i = .nop := by
  cases i with
  | nop => rfl
  | _ => cases h

/-- Settles O15: a word of opcode 0x00 decodes to NOP alone, and NOP has one word (`encode_of_decode_ok`). -/
theorem nopOnlyResponds : Obligations.NopOnlyResponds := by
  refine ⟨by decide, fun p w hop hne => ?_, exec_nop⟩
  cases hdec : decode p w with
  | error r => exact ⟨r, rfl⟩
  | ok i =>
    have hword : encode i = w := encode_of_decode_ok hdec
    have hnop : i = .nop := eq_nop_of_op_eq_zero (by rw [← opField_encode, hword, hop])
    subst hnop
    exact absurd hword.symm hne

/-! ### The values of the views fit their fields (R211) -/

theorem State.Inv.nleaves_le_nsym {s : State} (h : s.Inv) : s.nleaves ≤ s.params.nsym := by
  cases htree : s.treeValid with
  | true => exact (h.tree htree).leaves.2
  | false =>
    obtain ⟨-, -, -, hleaves⟩ := h.noTree htree
    exact hleaves ▸ Nat.zero_le _

/-- A message counter fits a 32-bit field (R5, R169, R199). -/
theorem lt_two_pow_32_of_le_maxLen {p : Params} (hp : p.legal) {n : Nat} (h : n ≤ p.maxLen) : n < 2 ^ 32 := by
  obtain ⟨-, -, -, hpos⟩ := Params.legal_bounds hp
  have hmax : p.maxLen < 2 ^ p.posW := Nat.sub_lt (Nat.two_pow_pos _) Nat.one_pos
  omega

/-! ### STATUS_READ (R211) -/

theorem encode_statusRead_toNat (v : View) : (encode (.statusRead v)).toNat = 0x0F * 2 ^ 56 + v.toField := by
  have hword : (encode (.statusRead v)).toNat = 0x0F * 2 ^ 56 + 0 * 2 ^ 32 + v.toField :=
    encode_toNat_of_n_zero (p := .default) (.statusRead v) (by decide) rfl rfl
  rw [hword, Nat.zero_mul, Nat.add_zero]

theorem exec_statusRead {s : State} {v : View} {n : Nat} (h : s.view v = BitVec.ofNat 56 n) :
    exec (.statusRead v) s = .next (s.answered [] n) :=
  congrArg _ (respond_ok_answered s n h.symm)

theorem field_zero_eq_ofNat {w v : Nat} (hw : w ≤ 56) (hv : v < 2 ^ w) : field 0 w v = BitVec.ofNat 56 v := by
  rw [field_eq_ofNat (by omega) hv, Nat.pow_zero, Nat.mul_one]

theorem view_status {s : State} (h : s.Inv) : s.view .status = BitVec.ofNat 56
    (s.treeValid.toNat + s.encOpen.toNat * 2 + s.decOpen.toNat * 2 ^ 2 + s.lastErr.code.bits.toNat * 2 ^ 8 +
      s.nleaves * 2 ^ 16 + s.root * 2 ^ 33) := by
  obtain ⟨hnsym, hnnode, -⟩ := Params.legal_bounds h.legal
  have hroot := h.root_lt
  have hleaves := h.nleaves_le_nsym
  have hcode := s.lastErr.code.bits.isLt
  have hflag (b : Bool) : b.toNat < 2 ^ 1 := b.toNat_lt
  simp only [State.view, flag]
  rw [field_eq_ofNat (by omega) (by omega), ofNat_or_field (by omega) (by omega) (by omega),
    ofNat_or_field (by omega) (by omega) hcode, ofNat_or_field (by omega) (by omega) (hflag _),
    ofNat_or_field (by omega) (by omega) (hflag _), ofNat_or_field (by omega) (by omega) (hflag _)]
  congr 1
  omega

theorem view_params {s : State} (h : s.Inv) : s.view .params = BitVec.ofNat 56
    (s.params.symW + s.params.cntW * 2 ^ 8 + s.params.posW * 2 ^ 16 + 32 * 2 ^ 24) := by
  obtain ⟨-, hsym, -, hcnt, -, hpos⟩ := h.legal
  rw [State.view, Params.packW, field_eq_ofNat (by omega) (by omega), ofNat_or_field (by omega) (by omega) (by omega),
    ofNat_or_field (by omega) (by omega) (by omega), ofNat_or_field (by omega) (by omega) (by omega)]
  congr 1
  omega

theorem view_lastErr (s : State) : s.view .lastErr = BitVec.ofNat 56
    (s.lastErr.op.toNat * 2 ^ 48 + s.lastErr.sym.toNat * 2 ^ 32 + s.lastErr.pos.toNat) := by
  rw [State.view, field_eq_ofNat (by omega) s.lastErr.op.isLt, ofNat_or_field (by omega) (by omega) s.lastErr.sym.isLt,
    ofNat_or_field (by omega) (by omega) s.lastErr.pos.isLt, Nat.pow_zero, Nat.mul_one]

theorem view_traversal {s : State} (h : s.Inv) :
    s.view .traversal = BitVec.ofNat 56 (s.pkCnt.val + s.decCur * 2 ^ 8) := by
  obtain ⟨-, hnnode, -⟩ := Params.legal_bounds h.legal
  have hcur := h.decCurLt
  rw [State.view, field_eq_ofNat (by omega) (by omega), ofNat_or_field (by omega) (by omega) s.pkCnt.isLt, Nat.pow_zero,
    Nat.mul_one, Nat.add_comm]

/-- Settles O16, view by view: under the invariant every value fits its field, and the fields do not overlap. -/
theorem statusReadShowsTheView : Obligations.StatusReadShowsTheView := by
  intro s v h
  have hcounter {n : Nat} (hn : n ≤ s.params.maxLen) : field 0 32 n = BitVec.ofNat 56 n :=
    field_zero_eq_ofNat (by omega) (lt_two_pow_32_of_le_maxLen h.legal hn)
  obtain ⟨hencNsym, hencNbits⟩ := h.encCounts
  obtain ⟨hdecNsym, hdecNbits⟩ := h.decCounts
  refine ⟨(encode_statusRead_toNat v).trans (by cases v <;> rfl), exec_statusRead ?_⟩
  cases v with
  | status => exact view_status h
  | params => exact view_params h
  | encNsym => exact hcounter (hencNsym.trans hencNbits)
  | encNbits => exact hcounter hencNbits
  | decNbits => exact hcounter hdecNbits
  | decNsym => exact hcounter (hdecNsym.trans hdecNbits)
  | lastErr => exact view_lastErr s
  | traversal => exact view_traversal h
  | pkBuf => exact field_zero_eq_ofNat (by omega) s.pkBuf.isLt

end Sys2Proof.Machine

/-! PROOFS. The family of spec/60_exceptions.md: the status codes (R231), and what each error leaves behind (R236). -/

namespace Sys2Proof.Machine

/-! ### The status codes (R231) -/

/-- Settles O11, code by code. -/
theorem statusCodesAreAsListed : Obligations.StatusCodesAreAsListed :=
  ⟨rfl, rfl, rfl, rfl, rfl, rfl, rfl, rfl, rfl⟩

/-! ### What an error changes (R236) -/

/-- An answer's response carries the answer's status (R72). -/
theorem Answer.outputs_eq {op : BitVec 8} {m t : State} {st : Status} (h : Answer op m st t) :
    ∃ d, t.outputs = m.outputs ++ [.rsp (responseWord st d)] := by
  cases h with
  | ok d => exact ⟨d, respond_outputs ..⟩
  | error _ sym pos => exact ⟨errData op sym pos, raise_outputs ..⟩

/-- Settles O51: the response shows which status the command answered with, the effects of that status are the ones the
rule names, and the answer adds only LAST_ERR and the response (`Answer.frame`). -/
theorem errorsChangeOnlyWhatTheirRuleSays : Obligations.ErrorsChangeOnlyWhatTheirRuleSays := by
  intro w s t e d os he hne hout
  cases hdec : decode s.params w with
  | error r =>
    rw [execWord_of_decode_error hdec] at he
    cases he
    obtain ⟨-, rfl, -⟩ := outputs_inj (hout.symm.trans (raise_outputs ..))
    rfl
  | ok i =>
    rw [execWord_of_decode_ok hdec] at he
    obtain ⟨st, m, heff, hans⟩ := exec_ran he
    obtain ⟨hop, -⟩ := decode_ok_fields hdec
    obtain ⟨d', hout'⟩ := hans.outputs_eq
    obtain ⟨-, rfl, -⟩ := outputs_inj (hout.symm.trans hout')
    obtain ⟨err, os', rfl⟩ := hans.frame
    rw [hop]
    cases heff with
    | unchanged _ h =>
      obtain rfl | rfl | rfl := h
      · exact absurd rfl hne
      · rfl
      · rfl
    | buildEmpty => rfl
    | encSymAborts sym h =>
      obtain rfl | rfl := h
      · rfl
      · exact .inl ⟨rfl, rfl⟩
    | decBitsMalformed n v hroot k syms => exact .inr ⟨rfl, hroot, rfl⟩
    | decBitsAborts n v h =>
      obtain rfl | rfl := h
      · rfl
      · exact .inr ⟨rfl, rfl⟩
    | decEnd h =>
      obtain rfl | rfl := h
      · exact absurd rfl hne
      · exact .inl ⟨rfl, rfl⟩
    | _ => exact absurd rfl hne

end Sys2Proof.Machine

/-! PROOFS. The family of spec/70_reset_and_hazards.md: the reset values of the state (R260) and reset at the ports
(R261). -/

namespace Sys2Proof.Machine

/-! ### The index spaces after reset (R22, R260) -/

@[simp] theorem takeReset_count (s : State) (sym : Nat) : (takeReset s).count sym = 0 := Table.read_nil sym
@[simp] theorem takeReset_nodeAt (s : State) (i : Nat) : (takeReset s).nodeAt i = .empty := Table.read_nil i
@[simp] theorem takeReset_codeAt (s : State) (sym : Nat) : (takeReset s).codeAt sym = .none := Table.read_nil sym

/-- Settles O8: the step takes the reset, which leaves the index spaces empty and sets every register. -/
theorem resetPutsEveryItemAtItsResetValue : Obligations.ResetPutsEveryItemAtItsResetValue := by
  intro s rest hin
  refine ⟨_, step_of_inputs_rst hin, fun i => ⟨takeReset_count _ i, takeReset_nodeAt _ i, takeReset_codeAt _ i⟩, ?_⟩
  exact ⟨rfl, rfl, rfl, rfl, rfl, rfl, rfl, rfl, rfl, rfl, rfl, rfl, rfl, takeReset_params _⟩

/-- Settles O13: `resetWith_inv`. -/
theorem resetSatisfiesTheInvariant : Obligations.ResetSatisfiesTheInvariant := fun _ hp => resetWith_inv hp

/-! ### Reset at the ports (R261) -/

@[simp] theorem Port.out_of_rst (q : Port) : q.out true = .idle := rfl

theorem Port.clock_of_rst {q : Port} {i : PortIn} (hrst : i.rst = true) : q.clock i = .next q.reset :=
  Port.clock_eq_next_iff.mpr (.reset hrst)

@[simp] theorem Port.reset_offered (q : Port) : q.reset.offered = [] := rfl
@[simp] theorem Port.reset_taken (q : Port) : q.reset.taken = q.taken := rfl
@[simp] theorem Port.reset_block (q : Port) : q.reset.block = takeReset { q.block with outputs := q.taken } := rfl

/-- Settles O58: an edge with rst = 1 is `Port.reset`, and the lines are idle while rst = 1. -/
theorem resetWithdrawsWhatIsOffered : Obligations.ResetWithdrawsWhatIsOffered := by
  intro q i hrst
  refine ⟨?_, q.reset, Port.clock_of_rst hrst, q.reset_offered, q.reset_taken, q.reset_block⟩
  rw [hrst, q.out_of_rst, PortOut.idle]

end Sys2Proof.Machine
